-- ==== Sys2Proof/Word.lean ====
section
/-! DEFINITION. The word and byte types of the block (R5: `WORD` = 32 bits, memory byte addressed). -/

namespace Sys2Proof

/-- A 32-bit word: a control register, a descriptor word, an address or a binary32 bit pattern (R5, R6). -/
abbrev Word := BitVec 32

/-- A byte of memory (R60). -/
abbrev Byte := BitVec 8

end Sys2Proof
end

