-- ==== Sys2Proof/Config.lean ====
section
/-! DEFINITION. What the spec leaves open and no state can carry: the exponential (R166, parameter `EXP32`)
and the free values that stand for "unspecified" (R72, R78, R209, R210, R241). Each is a constant without a body,
so nothing can be proved about its value. The other two parameters of R5, `MMIO_BASE` and `Accessible`, are
plain data in the state (notes/assumptions/2.md), where every statement over all states ranges over all platforms. -/

namespace Sys2Proof.Config

/-- The unconstrained part of `EXP32` (R166). `Machine.exp32` narrows it to the functions that satisfy E1 to E5:
every function that satisfies them is `Machine.exp32` for some value of this constant. -/
opaque exp32Raw : Word → Word

/-- The byte an address holds where the spec says the value is unspecified (R210, R241, R78). The first argument is
the number of the draw (`State.draws`), the second the address: two draws are unrelated. -/
opaque freeByte : Nat → Nat → Byte

/-- An unspecified choice (R209: which failing address is reported; R72: whether an element the result does not
need is read; R64, R78: which of two racing accesses is last). The argument is the number of the draw. -/
opaque freeNat : Nat → Nat

end Sys2Proof.Config
end

