-- ==== Sys2Proof/Syntax.lean ====
section
/-! DEFINITION. The fourteen commands of BRS-CMD v1 with their operands (R3, R105), and the 64-byte descriptor as
sixteen words (R90). A dimension is a natural number, an offset an integer; an address or a binary32 operand is the
32-bit word the descriptor carries (R104). -/

namespace Sys2Proof

/-- Sixteen words: a descriptor `W0..W15` (R90), or the latches `D[0..15]` that hold one (R22). -/
structure Desc where
  w0 : Word := 0
  w1 : Word := 0
  w2 : Word := 0
  w3 : Word := 0
  w4 : Word := 0
  w5 : Word := 0
  w6 : Word := 0
  w7 : Word := 0
  w8 : Word := 0
  w9 : Word := 0
  w10 : Word := 0
  w11 : Word := 0
  w12 : Word := 0
  w13 : Word := 0
  w14 : Word := 0
  w15 : Word := 0
  deriving DecidableEq, Repr

/-- The element type field `ET` (R91). -/
inductive ElemType
  | u8
  | f32
  deriving DecidableEq, Repr

/-- An image view `(addr, w, h, d)` (R12, R92). Its element type is the command's. -/
structure View where
  addr : Word
  w : Nat
  h : Nat
  d : Nat
  deriving DecidableEq, Repr

/-- A filter tensor: `FADDR`, `FH`, `FW`, `CI`, `CO` (R68, R97). -/
structure Filter where
  addr : Word
  fh : Nat
  fw : Nat
  ci : Nat
  co : Nat
  deriving DecidableEq, Repr

/-- The ten descriptor formats (R93 to R102). -/
inductive Format
  | z | j | m | b | c | a | k | p | v | t
  deriving DecidableEq, Repr

/-- The fourteen opcodes by name (R105). -/
inductive Op
  | endCmd | jump | nop
  | bsamp | affine | croprs
  | conv2d
  | addbias | relu | biasrelu
  | maxpool2
  | softmax
  | histeq | otsu
  deriving DecidableEq, Repr

/-- A command with its operands, one constructor per row of the opcode table (R105). -/
inductive Instr
  /-- `END`: format Z (R188). -/
  | endCmd
  /-- `JUMP target`: format J (R189). -/
  | jump (target : Word)
  /-- `NOP`: format Z (R187). -/
  | nop
  /-- `BSAMP.ET in, out, sx, sy`: format P (R125, R126). -/
  | bsamp (et : ElemType) (inp : View) (outAddr : Word) (sx sy : Word)
  /-- `AFFINE.ET in, out, off, theta`: format A (R127, R128). -/
  | affine (et : ElemType) (inp out : View) (offX offY : Int) (t0 t1 t2 t3 : Word)
  /-- `CROPRS.ET in, out, lefttop, crop`: format K (R131). -/
  | croprs (et : ElemType) (inp out : View) (left top : Int) (cropW cropH : Nat)
  /-- `CONV2D in, filt, out`: format C (R140, R141). -/
  | conv2d (inp : View) (filt : Filter) (out : View)
  /-- `ADDBIAS img, bias`: format B with `W4..W6` zero (R151). -/
  | addbias (img : View) (baddr : Word)
  /-- `RELU in, out`: format M (R153). -/
  | relu (inp out : View)
  /-- `BIASRELU in, bias, out`: format B (R155). -/
  | biasrelu (inp : View) (baddr : Word) (out : View)
  /-- `MAXPOOL2 in, out`: format M (R160, R161). -/
  | maxpool2 (inp out : View)
  /-- `SOFTMAX scores, n, probs`: format V (R165, R167). -/
  | softmax (saddr : Word) (n : Nat) (paddr : Word)
  /-- `HISTEQ in, out`: format M (R172, R174). -/
  | histeq (inp out : View)
  /-- `OTSU in, result`: format T (R177, R178). -/
  | otsu (inp : View) (raddr : Word)
  deriving DecidableEq, Repr

end Sys2Proof
end

