-- ==== Sys2Proof/WellFormed.lean ====
section
/-! DEFINITION. A command is well formed when every operand fits its descriptor field (R92, R97, R99, R101, R104):
dimensions 16 bits unsigned, `N` 32 bits unsigned, offsets 32 bits two's complement. Zero dimensions and every other
content the checks of R211 refuse are encodable, hence well formed: the machine faults on them. -/

namespace Sys2Proof

/-- A dimension field is 16 bits wide (R5 `DIM_W`, R104). -/
def dimFits (n : Nat) : Bool := decide (n < 2 ^ 16)

/-- The count field `N` is 32 bits wide (R5 `N_W`). -/
def countFits (n : Nat) : Bool := decide (n < 2 ^ 32)

/-- An offset is the two's-complement reading of a whole word (R104 `s32`). -/
def offsetFits (x : Int) : Bool := decide (-2 ^ 31 ≤ x ∧ x < 2 ^ 31)

/-- The three dimensions of an image view fit their fields (R92). -/
def View.fits (v : View) : Bool := dimFits v.w && dimFits v.h && dimFits v.d

/-- The four dimensions of a filter fit their fields (R97). -/
def Filter.fits (f : Filter) : Bool := dimFits f.fh && dimFits f.fw && dimFits f.ci && dimFits f.co

/-- Every operand of the command is a value its descriptor can carry. -/
def Instr.wf : Instr → Bool
  | .endCmd => true
  | .jump _ => true
  | .nop => true
  | .bsamp _ inp _ _ _ => inp.fits
  | .affine _ inp out offX offY _ _ _ _ => inp.fits && out.fits && offsetFits offX && offsetFits offY
  | .croprs _ inp out left top cropW cropH =>
      inp.fits && out.fits && offsetFits left && offsetFits top && dimFits cropW && dimFits cropH
  | .conv2d inp filt out => inp.fits && filt.fits && out.fits
  | .addbias img _ => img.fits
  | .relu inp out => inp.fits && out.fits
  | .biasrelu inp _ out => inp.fits && out.fits
  | .maxpool2 inp out => inp.fits && out.fits
  | .softmax _ n _ => countFits n
  | .histeq inp out => inp.fits && out.fits
  | .otsu inp _ => inp.fits

end Sys2Proof
end

