-- ==== Sys2Proof/Decode.lean ====
section
/-! DEFINITION. Reading and writing descriptors: the byte order of a word (R63), the opcode map (R105), the fields
each format uses (R91 to R103), decoding (R106 to R108) and its inverse, the encoder. -/

namespace Sys2Proof

/-! ### Byte order (R63) -/

/-- The 32-bit word whose bytes, lowest address first, are `b0 b1 b2 b3`: little-endian (R63). -/
def wordOfBytes (b0 b1 b2 b3 : Byte) : Word := b3 ++ b2 ++ b1 ++ b0

/-- The four bytes of a word, lowest address first: little-endian (R63). -/
def bytesOfWord (v : Word) : List Byte :=
  [v.extractLsb' 0 8, v.extractLsb' 8 8, v.extractLsb' 16 8, v.extractLsb' 24 8]

/-! ### Descriptor words -/

/-- Word `Wk` of a descriptor, or latch `D[k]` (R22, R90). There is no word beyond 15. -/
def descWord (d : Desc) (k : Nat) : Word :=
  match k with
  | 0 => d.w0 | 1 => d.w1 | 2 => d.w2 | 3 => d.w3 | 4 => d.w4 | 5 => d.w5 | 6 => d.w6 | 7 => d.w7
  | 8 => d.w8 | 9 => d.w9 | 10 => d.w10 | 11 => d.w11 | 12 => d.w12 | 13 => d.w13 | 14 => d.w14 | 15 => d.w15
  | _ => 0

/-- The descriptor whose word `Wk` is `f k` (R90). -/
def descOfFn (f : Nat → Word) : Desc :=
  { w0 := f 0, w1 := f 1, w2 := f 2, w3 := f 3, w4 := f 4, w5 := f 5, w6 := f 6, w7 := f 7
    w8 := f 8, w9 := f 9, w10 := f 10, w11 := f 11, w12 := f 12, w13 := f 13, w14 := f 14, w15 := f 15 }

/-- The word at byte offset `4k` of a list of bytes (R90). A missing byte reads as zero. -/
def wordAt (bytes : List Byte) (k : Nat) : Word :=
  wordOfBytes (bytes.getD (4 * k) 0) (bytes.getD (4 * k + 1) 0) (bytes.getD (4 * k + 2) 0) (bytes.getD (4 * k + 3) 0)

/-- The descriptor that 64 bytes of memory hold, lowest address first (R90). -/
def descOfBytes (bytes : List Byte) : Desc := descOfFn (wordAt bytes)

/-- The 64 bytes of a descriptor, lowest address first (R90). -/
def bytesOfDesc (d : Desc) : List Byte := (List.range 16).flatMap fun k => bytesOfWord (descWord d k)

/-- The low half of a word: `w[15:0]` (R92). -/
def lowHalf (w : Word) : Nat := w.toNat % 2 ^ 16

/-- The high half of a word: `w[31:16]` (R92). -/
def highHalf (w : Word) : Nat := w.toNat / 2 ^ 16

/-- A word from its two halves, the low one first (R92). -/
def wordOfHalves (lo hi : Nat) : Word := BitVec.ofNat 32 (lo + hi * 2 ^ 16)

/-! ### The opcode map -/

/-- `OPC` of each command (R105). -/
def opcodeOf : Op → Nat
  | .endCmd => 0x01
  | .jump => 0x02
  | .nop => 0x03
  | .bsamp => 0x10
  | .affine => 0x11
  | .croprs => 0x12
  | .conv2d => 0x20
  | .addbias => 0x30
  | .relu => 0x31
  | .biasrelu => 0x32
  | .maxpool2 => 0x40
  | .softmax => 0x50
  | .histeq => 0x60
  | .otsu => 0x61

/-- The rows of the opcode table (R105). -/
def allOps : List Op :=
  [.endCmd, .jump, .nop, .bsamp, .affine, .croprs, .conv2d, .addbias, .relu, .biasrelu, .maxpool2, .softmax,
    .histeq, .otsu]

/-- The row whose `OPC` is `n`; every other value is illegal (R106, R108). -/
def opOf (n : Nat) : Option Op := allOps.find? fun op => opcodeOf op == n

/-- The format of each command (R105). -/
def formatOf : Op → Format
  | .endCmd => .z
  | .jump => .j
  | .nop => .z
  | .bsamp => .p
  | .affine => .a
  | .croprs => .k
  | .conv2d => .c
  | .addbias => .b
  | .relu => .m
  | .biasrelu => .b
  | .maxpool2 => .m
  | .softmax => .v
  | .histeq => .m
  | .otsu => .t

/-- How many low bits of each word `W0..W15` belong to a field, by format (R91 to R103): in every word the used bits
are the low ones. `ET` makes 9 bits of `W0` in formats A, K and P. -/
def formatBits : Format → List Nat
  | .z => [8, 0, 0, 0, 0, 0, 0, 0, 0, 0, 0, 0, 0, 0, 0, 0]
  | .j => [8, 32, 0, 0, 0, 0, 0, 0, 0, 0, 0, 0, 0, 0, 0, 0]
  | .m => [8, 32, 32, 16, 32, 32, 16, 0, 0, 0, 0, 0, 0, 0, 0, 0]
  | .b => [8, 32, 32, 16, 32, 32, 16, 32, 0, 0, 0, 0, 0, 0, 0, 0]
  | .c => [8, 32, 32, 16, 32, 32, 16, 32, 32, 32, 0, 0, 0, 0, 0, 0]
  | .a => [9, 32, 32, 16, 32, 32, 16, 32, 32, 32, 32, 32, 32, 0, 0, 0]
  | .k => [9, 32, 32, 16, 32, 32, 16, 32, 32, 32, 0, 0, 0, 0, 0, 0]
  | .p => [9, 32, 32, 16, 32, 0, 0, 32, 32, 0, 0, 0, 0, 0, 0, 0]
  | .v => [8, 32, 32, 0, 32, 0, 0, 0, 0, 0, 0, 0, 0, 0, 0, 0]
  | .t => [8, 32, 32, 16, 32, 0, 0, 0, 0, 0, 0, 0, 0, 0, 0, 0]

/-- The used low bits of word `Wk` for a command: its format's, but `ADDBIAS` reserves `W4..W6` in full (R96, R203). -/
def usedBits (op : Op) (k : Nat) : Nat :=
  if op = .addbias ∧ 4 ≤ k ∧ k ≤ 6 then 0 else (formatBits (formatOf op)).getD k 0

/-- Word `Wk` has a reserved bit set: a bit at or above its used low bits (R107). -/
def reservedSet (op : Op) (d : Desc) (k : Nat) : Bool := decide ((descWord d k).toNat / 2 ^ usedBits op k ≠ 0)

/-- The lowest word index with a reserved bit set (R107, R203). -/
def firstReserved (op : Op) (d : Desc) : Option Nat := (List.range 16).find? (reservedSet op d)

/-! ### Decoding -/

/-- Why a descriptor is no command: the faults of decoding (R106, R107, R108). -/
inductive DecodeError
  /-- `OPC` is not assigned; carries `D[0]` (R202). Raised by `decode`. -/
  | illegalOpcode (w0 : Word)
  /-- A reserved bit is set; carries the lowest word index (R203). Raised by `decode`. -/
  | reservedField (k : Nat)
  deriving DecidableEq, Repr

/-- The view in the `IN` position, `W1..W3` (R92). -/
def inView (d : Desc) : View := ⟨d.w1, lowHalf d.w2, highHalf d.w2, lowHalf d.w3⟩

/-- The view in the `OUT` position, `W4..W6` (R92). -/
def outView (d : Desc) : View := ⟨d.w4, lowHalf d.w5, highHalf d.w5, lowHalf d.w6⟩

/-- The filter tensor of format C, `W7..W9` (R97). -/
def filterOf (d : Desc) : Filter := ⟨d.w7, highHalf d.w8, lowHalf d.w8, lowHalf d.w9, highHalf d.w9⟩

/-- The element type, bit 8 of `W0` (R91). -/
def elemTypeOf (d : Desc) : ElemType := if d.w0.toNat / 2 ^ 8 % 2 = 1 then .f32 else .u8

/-- The operands of a command, taken from the fields of its format (R93 to R104). -/
def fieldsOf (op : Op) (d : Desc) : Instr :=
  match op with
  | .endCmd => .endCmd
  | .jump => .jump d.w1
  | .nop => .nop
  | .bsamp => .bsamp (elemTypeOf d) (inView d) d.w4 d.w7 d.w8
  | .affine => .affine (elemTypeOf d) (inView d) (outView d) d.w7.toInt d.w8.toInt d.w9 d.w10 d.w11 d.w12
  | .croprs => .croprs (elemTypeOf d) (inView d) (outView d) d.w7.toInt d.w8.toInt (lowHalf d.w9) (highHalf d.w9)
  | .conv2d => .conv2d (inView d) (filterOf d) (outView d)
  | .addbias => .addbias (inView d) d.w7
  | .relu => .relu (inView d) (outView d)
  | .biasrelu => .biasrelu (inView d) d.w7 (outView d)
  | .maxpool2 => .maxpool2 (inView d) (outView d)
  | .softmax => .softmax d.w1 d.w2.toNat d.w4
  | .histeq => .histeq (inView d) (outView d)
  | .otsu => .otsu (inView d) d.w4

/-- Decoding is total: `D[0][7:0]` selects the row (R106), an unassigned value is refused first (R108), then a set
reserved bit (R107, in the order of R211); otherwise the command with its operands. -/
def decode (d : Desc) : Except DecodeError Instr :=
  match opOf (d.w0.toNat % 2 ^ 8) with
  | none => .error (.illegalOpcode d.w0)
  | some op =>
    match firstReserved op d with
    | some k => .error (.reservedField k)
    | none => .ok (fieldsOf op d)

/-! ### Encoding -/

/-- The row of the opcode table a command belongs to (R105). -/
def rowOf : Instr → Op
  | .endCmd => .endCmd
  | .jump _ => .jump
  | .nop => .nop
  | .bsamp _ _ _ _ _ => .bsamp
  | .affine _ _ _ _ _ _ _ _ _ => .affine
  | .croprs _ _ _ _ _ _ _ => .croprs
  | .conv2d _ _ _ => .conv2d
  | .addbias _ _ => .addbias
  | .relu _ _ => .relu
  | .biasrelu _ _ _ => .biasrelu
  | .maxpool2 _ _ => .maxpool2
  | .softmax _ _ _ => .softmax
  | .histeq _ _ => .histeq
  | .otsu _ _ => .otsu

/-- The header word: `OPC`, and `ET` at bit 8 (R91). -/
def headerOf (op : Op) (et : ElemType) : Word :=
  BitVec.ofNat 32 (opcodeOf op + match et with | .u8 => 0 | .f32 => 2 ^ 8)

/-- The second word of a view: `W` low, `H` high (R92). -/
def sizeWord (v : View) : Word := wordOfHalves v.w v.h

/-- The third word of a view: `D` (R92). -/
def depthWord (v : View) : Word := wordOfHalves v.d 0

/-- The descriptor of a command: every field at its place and every reserved bit zero (R91 to R104, R109). -/
def encode : Instr → Desc
  | .endCmd => { w0 := headerOf .endCmd .u8 }
  | .jump target => { w0 := headerOf .jump .u8, w1 := target }
  | .nop => { w0 := headerOf .nop .u8 }
  | .bsamp et inp outAddr sx sy =>
      { w0 := headerOf .bsamp et, w1 := inp.addr, w2 := sizeWord inp, w3 := depthWord inp, w4 := outAddr, w7 := sx, w8 := sy }
  | .affine et inp out offX offY t0 t1 t2 t3 =>
      { w0 := headerOf .affine et, w1 := inp.addr, w2 := sizeWord inp, w3 := depthWord inp, w4 := out.addr
        w5 := sizeWord out, w6 := depthWord out, w7 := BitVec.ofInt 32 offX, w8 := BitVec.ofInt 32 offY
        w9 := t0, w10 := t1, w11 := t2, w12 := t3 }
  | .croprs et inp out left top cropW cropH =>
      { w0 := headerOf .croprs et, w1 := inp.addr, w2 := sizeWord inp, w3 := depthWord inp, w4 := out.addr
        w5 := sizeWord out, w6 := depthWord out, w7 := BitVec.ofInt 32 left, w8 := BitVec.ofInt 32 top
        w9 := wordOfHalves cropW cropH }
  | .conv2d inp filt out =>
      { w0 := headerOf .conv2d .u8, w1 := inp.addr, w2 := sizeWord inp, w3 := depthWord inp, w4 := out.addr
        w5 := sizeWord out, w6 := depthWord out, w7 := filt.addr, w8 := wordOfHalves filt.fw filt.fh
        w9 := wordOfHalves filt.ci filt.co }
  | .addbias img baddr =>
      { w0 := headerOf .addbias .u8, w1 := img.addr, w2 := sizeWord img, w3 := depthWord img, w7 := baddr }
  | .relu inp out =>
      { w0 := headerOf .relu .u8, w1 := inp.addr, w2 := sizeWord inp, w3 := depthWord inp, w4 := out.addr
        w5 := sizeWord out, w6 := depthWord out }
  | .biasrelu inp baddr out =>
      { w0 := headerOf .biasrelu .u8, w1 := inp.addr, w2 := sizeWord inp, w3 := depthWord inp, w4 := out.addr
        w5 := sizeWord out, w6 := depthWord out, w7 := baddr }
  | .maxpool2 inp out =>
      { w0 := headerOf .maxpool2 .u8, w1 := inp.addr, w2 := sizeWord inp, w3 := depthWord inp, w4 := out.addr
        w5 := sizeWord out, w6 := depthWord out }
  | .softmax saddr n paddr =>
      { w0 := headerOf .softmax .u8, w1 := saddr, w2 := BitVec.ofNat 32 n, w4 := paddr }
  | .histeq inp out =>
      { w0 := headerOf .histeq .u8, w1 := inp.addr, w2 := sizeWord inp, w3 := depthWord inp, w4 := out.addr
        w5 := sizeWord out, w6 := depthWord out }
  | .otsu inp raddr =>
      { w0 := headerOf .otsu .u8, w1 := inp.addr, w2 := sizeWord inp, w3 := depthWord inp, w4 := raddr }

/-! ### The host's table words -/

/-- The 64 bytes of an instruction whose bits are `w`, numbered from the least significant bit of its first word: the
first `nbits` bits are `w`'s and every bit above them is 0. Each word is little-endian and the first lies lowest, so
byte `k` is bits `8k+7..8k` of the number (R63, R90). -/
def tableBytes (nbits w : Nat) : List Byte :=
  (List.range 64).map fun k => BitVec.ofNat 8 (w % 2 ^ nbits / 2 ^ (8 * k))

/-- The instruction the decoder reads from an instruction whose bits are `w`. -/
def decodeTableWord (nbits w : Nat) : Option Instr := (decode (descOfBytes (tableBytes nbits w))).toOption

end Sys2Proof
end

