-- ==== Sys2Proof/Machine/State.lean ====
section
/-! DEFINITION. The state of the block and of its surroundings, as plain data (R20, R21, R48), and why a step can stop.
The block's own state is R21's list; memory, the platform's parameters and the host's pending accesses stand beside it,
so that one deterministic step covers both agents and every interleaving of them (R20, R35, R217). -/

namespace Sys2Proof.Machine

/-- `STATUS.STATE` (R33). The encoding 3 never occurs, so there is no fourth constructor. -/
inductive EngineState
  /-- 0: the engine takes no step. -/
  | idle
  /-- 1: the engine takes command steps. -/
  | run
  /-- 2: a command faulted; no step until `CTRL.CLRFAULT` or reset. -/
  | faulted
  deriving DecidableEq, Repr

/-- The `kind` of an engine access (R5 `Accessible(a, n, kind)`). -/
inductive AccessKind
  | fetch
  | read
  | write
  deriving DecidableEq, Repr

/-- The eight faults of the block with their information (R201). Taking one is a next state (R212), never an outcome
`fault` of the model. -/
inductive Cause
  /-- Code 1: `D[0][7:0]` is not an assigned opcode; carries `D[0]` (R202). -/
  | illegalOpcode (w0 : Word)
  /-- Code 2: a reserved bit is set; carries the lowest word index (R203). -/
  | reservedField (k : Nat)
  /-- Code 3: a dimension field is zero; carries the lowest word index (R204). -/
  | dimZero (k : Nat)
  /-- Code 4: a shape relation fails; carries the sub-code (R205). -/
  | shape (sub : Nat)
  /-- Code 5: a misaligned buffer or target; carries the buffer id (R206). -/
  | misaligned (buf : Nat)
  /-- Code 6: an extent ends above 2^32; carries the buffer id (R207). -/
  | addrRange (buf : Nat)
  /-- Code 7: an output extent overlaps an input extent; carries the input's buffer id (R208). -/
  | overlap (buf : Nat)
  /-- Code 8: an access is not answered; carries the failing address (R209). -/
  | busError (addr : Word)
  deriving DecidableEq, Repr

/-- One entry of the platform's answer to `Accessible(a, n, kind)` (R5, R62): accesses of `n` bytes and this kind whose
address lies in `first..last` are not answered. Lists of such entries are exactly the predicates of R5 with finite
support, and the address space is finite. -/
structure Denial where
  kind : AccessKind
  n : Nat
  first : Nat
  last : Nat
  deriving DecidableEq, Repr

/-- What the host and the reset input do to the block (R20, R47, R240). -/
inductive HostEvent
  /-- The host writes these bytes from an address of its own address space: the register window where the address lies
  in it, memory elsewhere (R47). -/
  | write (addr : Word) (bytes : List Byte)
  /-- The host reads `n` bytes from an address of its own address space (R47). -/
  | read (addr : Word) (n : Nat)
  /-- The reset input is asserted or released (R240). -/
  | resetPin (asserted : Bool)
  deriving DecidableEq, Repr

/-- Who moves next (R20: either agent may be scheduled at any time). -/
inductive Move
  /-- The host acts between two steps of the engine. -/
  | host (e : HostEvent)
  /-- The engine takes its step, and these host events land inside it (R35): the first list while the descriptor's words
  are read, before the fetch event; the second after the fetch event and before the completion event. -/
  | engine (fetching executing : List HostEvent)
  deriving DecidableEq, Repr

/-- Memory: address and byte pairs, addresses strictly rising, no entry equal to `defaultByte` (R60). -/
abbrev Memory := List Host.Cell

/-- What an unlisted address reads as. DESIGN CHOICE, unsafe: R48 leaves the contents of memory at power-up to the
platform (notes/assumptions/1.md). -/
def defaultByte : Byte := 0

/-- The canonical form: addresses strictly rising and no listed byte equal to what an unlisted address reads as. -/
def Memory.wf : Memory → Bool
  | [] => true
  | [(_, b)] => b != defaultByte
  | (a, b) :: (a', b') :: rest => b != defaultByte && decide (a < a') && Memory.wf ((a', b') :: rest)

/-- The whole state. Fields `d` to `cmdCnt` are R21's complete list for the block; `mem` is the platform's (R21); the
rest are the model's own: the platform's parameters, the reset input, the pending moves, what the host has read, which
of its writes are not ordered before the next fetch, and the count of free values drawn (INVENTORY.md, State). -/
structure State where
  /-- `D[0]..D[15]`, the descriptor latches (R22). -/
  d : Desc
  /-- `CP`, the command pointer; bits 5:0 hardwired to zero (R25). -/
  cp : Word
  /-- `STATUS.STATE` (R33). -/
  engine : EngineState
  /-- `STATUS.STOPREQ` (R33). -/
  stopReq : Bool
  /-- `FLAGS`: bit 0 `DEGEN` (R29). -/
  flags : Word
  /-- `INTEN`: bits 2:0 (R36). -/
  inten : Word
  /-- `INTSTAT`: bit 0 `DONE`, bit 1 `FAULT`, bit 2 `STOPPED` (R37). -/
  intstat : Word
  /-- `ERRCODE` (R38). -/
  errCode : Word
  /-- `ERRCP` (R39). -/
  errCp : Word
  /-- `ERRINFO` (R40). -/
  errInfo : Word
  /-- `CMDCNT` (R41). -/
  cmdCnt : Word
  /-- Memory (R60). -/
  mem : Memory
  /-- `MMIO_BASE`, a platform parameter (R5, R30). -/
  mmioBase : Word
  /-- The accesses `Accessible` denies, a platform parameter (R5, R62). -/
  denied : List Denial
  /-- The reset input is asserted (R240). -/
  resetPin : Bool
  /-- The moves still to come; when there is none, the engine moves (R185). DESIGN CHOICE (notes/assumptions/4.md). -/
  schedule : List Move
  /-- What the host's reads returned, oldest first. DESIGN CHOICE (notes/assumptions/16.md). -/
  readLog : List (List Byte)
  /-- The addresses of the bytes the host wrote in `RUN` that nothing has ordered before the engine's next fetch: no start
  since (R75), no engine write over them (R74). A fetched word with one of them is a free value (R78, R245 H3). DESIGN
  CHOICE (notes/assumptions/22.md). -/
  unordered : List Nat
  /-- How many free values have been drawn (`Config.freeByte`, `Config.freeNat`). DESIGN CHOICE
  (notes/assumptions/6.md). -/
  draws : Nat
  deriving DecidableEq, Repr

/-- No step of this machine stops with a model fault: every fault the spec names is the state `FAULTED` (R201, R212),
which is a next state. Nobody raises one (safe: there is nothing to raise; DEDUCED, notes/assumptions/18.md). -/
inductive Fault
  deriving DecidableEq, Repr

/-- Why a step has no meaning. -/
inductive Refusal
  /-- An instruction without a meaning yet; raised by `exec` alone (safe). No arm of `exec` raises it. -/
  | notModelled (mnemonic : String)
  /-- The host accesses the register window while the reset input is asserted; raised by `hostAccess` (safe). R240:
  "the register window's behaviour is not defined". -/
  | windowInReset
  deriving DecidableEq, Repr

/-- The machine right after reset (R48, R240): every register of the block at the value of R48's table, memory with
nothing listed, the platform answering every access, the window at the top of the host's address space, no move
pending. The values of `mem`, `mmioBase` and `denied` are the model's (notes/assumptions/1.md, 2.md). -/
def State.reset : State :=
  { d := {}, cp := 0, engine := .idle, stopReq := false, flags := 0, inten := 0, intstat := 0
    errCode := 0, errCp := 0, errInfo := 0, cmdCnt := 0, mem := [], mmioBase := 0xFFFFF000, denied := []
    resetPin := false, schedule := [], readLog := [], unordered := [], draws := 0 }

end Sys2Proof.Machine
end

