-- ==== Sys2Proof/Machine/Ops.lean ====
section
/-! DEFINITION. The operations the whole machine shares: bytes and words of memory, which accesses the platform
answers, free values, descriptor fetch, and the events that end a command step: completion (R186 step 6), the fault
entry (R212), the honoured stop (R186 step 1), and reset (R48, R241). There is no return from a fault inside the block:
the host's `CTRL.CLRFAULT` is it (R213), in Window.lean beside the other window writes. -/

namespace Sys2Proof.Machine

/-! ### Memory -/

/-- The byte at an address. The list is sorted, so the search stops at the first greater address. -/
def readByte : Memory → Nat → Byte
  | [], _ => defaultByte
  | (k, b) :: rest, a => if a < k then defaultByte else if a = k then b else readByte rest a

/-- Store one byte, keeping the canonical form: storing the default byte removes the entry. -/
def writeByte : Memory → Nat → Byte → Memory
  | [], a, b => if b = defaultByte then [] else [(a, b)]
  | (k, c) :: rest, a, b =>
    if a < k then (if b = defaultByte then (k, c) :: rest else (a, b) :: (k, c) :: rest)
    else if a = k then (if b = defaultByte then rest else (a, b) :: rest)
    else (k, c) :: writeByte rest a b

/-- Store bytes at their addresses, in order. -/
def writeCells (m : Memory) (cells : List Host.Cell) : Memory := cells.foldl (fun m c => writeByte m c.1 c.2) m

/-- `MemRead(a, 4)`: the word at four consecutive bytes, little-endian (R8, R63). -/
def readWord (m : Memory) (a : Nat) : Word :=
  wordOfBytes (readByte m a) (readByte m (a + 1)) (readByte m (a + 2)) (readByte m (a + 3))

/-- Consecutive bytes from an address, as cells. -/
def cellsFrom (a : Nat) : List Byte → List Host.Cell
  | [] => []
  | b :: rest => (a, b) :: cellsFrom (a + 1) rest

/-- The cells of a word stored at an address, little-endian (R8, R63). -/
def wordCells (a : Nat) (v : Word) : List Host.Cell := cellsFrom a (bytesOfWord v)

/-- A byte range `[addr, addr + size)` (R70). -/
structure Extent where
  addr : Nat
  size : Nat
  deriving DecidableEq, Repr

/-- The address lies in the range. -/
def inExtent (e : Extent) (a : Nat) : Bool := decide (e.addr ≤ a) && decide (a < e.addr + e.size)

/-- The address lies in one of the ranges. -/
def inExtents (es : List Extent) (a : Nat) : Bool := es.any (inExtent · a)

/-- The addresses of a range. -/
def extentAddrs (e : Extent) : List Nat := (List.range e.size).map (e.addr + ·)

/-- Two ranges overlap: both non-empty and each begins before the other ends (R71). -/
def overlaps (e f : Extent) : Bool :=
  decide (0 < e.size) && decide (0 < f.size) && decide (e.addr < f.addr + f.size) && decide (f.addr < e.addr + e.size)

/-! ### The platform's answer -/

/-- One access of the engine: `n` bytes at `addr` (R64). -/
structure Access where
  kind : AccessKind
  n : Nat
  addr : Nat
  deriving DecidableEq, Repr

/-- The platform does not answer the access: `Accessible(a, n, kind)` is false (R5, R209). -/
def isDenied (s : State) (x : Access) : Bool :=
  s.denied.any fun r => decide (r.kind = x.kind) && decide (r.n = x.n) && decide (r.first ≤ x.addr) && decide (x.addr ≤ r.last)

/-! ### Free values -/

/-- Count one draw of a free value. -/
def drawn (s : State) : State := { s with draws := s.draws + 1 }

/-- A free choice between yes and no. -/
def freeBit (draw : Nat) : Bool := decide (Config.freeNat draw % 2 = 1)

/-- A free choice among the members of a list; a list with one member leaves none. -/
def freeMember (draw : Nat) (dflt : α) : List α → α
  | [] => dflt
  | [x] => x
  | x :: y :: rest => (x :: y :: rest).getD (Config.freeNat draw % (rest.length + 2)) x

/-- Every byte of these ranges becomes unspecified: old value or anything (R210, R241, R78). No other byte changes. -/
def havoc (es : List Extent) (s : State) : State :=
  drawn { s with mem := writeCells s.mem ((es.flatMap extentAddrs).map fun a => (a, Config.freeByte s.draws a)) }

/-- A free word: four free bytes of one draw, at four addresses. -/
def freeWord (draw a : Nat) : Word :=
  wordOfBytes (Config.freeByte draw a) (Config.freeByte draw (a + 1)) (Config.freeByte draw (a + 2)) (Config.freeByte draw (a + 3))

/-- The bytes of these ranges are the engine's from here on, and later fetches read its writes there (R74, R80), but for
the bytes on which the host races with it (R78). -/
def ordered (es : List Extent) (racing : List Nat) (s : State) : State :=
  { s with unordered := s.unordered.filter fun a => !inExtents es a || racing.contains a }

/-! ### Faults -/

/-- `code(F)` (R201). -/
def errCodeOf : Cause → Word
  | .illegalOpcode _ => 1
  | .reservedField _ => 2
  | .dimZero _ => 3
  | .shape _ => 4
  | .misaligned _ => 5
  | .addrRange _ => 6
  | .overlap _ => 7
  | .busError _ => 8

/-- The information word of a fault (R201). -/
def errInfoOf : Cause → Word
  | .illegalOpcode w0 => w0
  | .reservedField k => BitVec.ofNat 32 k
  | .dimZero k => BitVec.ofNat 32 k
  | .shape sub => BitVec.ofNat 32 sub
  | .misaligned buf => BitVec.ofNat 32 buf
  | .addrRange buf => BitVec.ofNat 32 buf
  | .overlap buf => BitVec.ofNat 32 buf
  | .busError addr => addr

/-- The fault of a descriptor that decodes to no command (R106). -/
def causeOfDecode : DecodeError → Cause
  | .illegalOpcode w0 => .illegalOpcode w0
  | .reservedField k => .reservedField k

/-- The fault entry, one event (R212): code, information and `CP` are saved, the engine halts in `FAULTED`, a pending
stop request is dropped, `INTSTAT.FAULT` is set. `CP`, `CMDCNT`, `FLAGS`, `D` and memory stay. -/
def takeFault (c : Cause) (s : State) : State :=
  { s with errCode := errCodeOf c, errInfo := errInfoOf c, errCp := s.cp, engine := .faulted, stopReq := false
           intstat := s.intstat ||| 2 }

/-! ### The other events of the command step -/

/-- The completion event of a command (R186 step 6): `CMDCNT` counts it and `CP` goes to the next descriptor. -/
def complete (next : Word) (s : State) : State := { s with cmdCnt := s.cmdCnt + 1, cp := next }

/-- What `END` adds to its completion event (R186 step 6, R188). -/
def endRun (s : State) : State := { s with engine := .idle, stopReq := false, intstat := s.intstat ||| 1 }

/-- An honoured stop request (R186 step 1): no fetch; `CP`, `CMDCNT` and `D` unchanged. -/
def honourStop (s : State) : State := { s with stopReq := false, engine := .idle, intstat := s.intstat ||| 4 }

/-- Reset, hardware or soft (R48, R241, R242): every register of the block at its reset value; memory and the
surroundings stay. -/
def resetBlock (s : State) : State :=
  { State.reset with mem := s.mem, mmioBase := s.mmioBase, denied := s.denied, resetPin := s.resetPin
                     schedule := s.schedule, readLog := s.readLog, unordered := s.unordered
                     draws := s.draws }

/-! ### Descriptor fetch -/

/-- The address of word `Wk` of the descriptor at `CP` (R90, R186 step 2). -/
def fetchAddr (cp : Word) (k : Nat) : Nat := cp.toNat + 4 * k

/-- One of the sixteen fetch reads is not answered (R186 step 2, R209). -/
def fetchDenied (s : State) : Bool := (List.range 16).any fun k => isDenied s ⟨.fetch, 4, fetchAddr s.cp k⟩

/-- Word `Wk` of the descriptor at `CP` has a byte the host wrote in `RUN` that nothing orders before this fetch: what is
read there is unspecified (R75, R78, R245 H3). -/
def wordUnordered (s : State) (k : Nat) : Bool := (List.range 4).any fun j => s.unordered.contains (fetchAddr s.cp k + j)

/-- The descriptor memory holds at an address (R90, R186 step 2). -/
def descAt (m : Memory) (cp : Word) : Desc := descOfFn fun k => readWord m (fetchAddr cp k)

/-- The fetch event: all sixteen latches at once (R22, R186 step 2). -/
def latch (d : Desc) (s : State) : State := { s with d := d }

end Sys2Proof.Machine
end

