-- ==== Sys2Proof/Machine/Flags.lean ====
section
/-! DEFINITION. The flag and event registers and the views the window gives of them: `FLAGS.DEGEN` (R29), the
write-one-to-clear rule (R29, R37), `STATUS` (R33), the interrupt line (R216). No command reads a flag, and no command
computes one from a result: the only flag a command sets is `DEGEN`. -/

namespace Sys2Proof.Machine

/-- A command that took a degenerate fallback sets `FLAGS.DEGEN`; no command clears it (R29, R186 step 6). -/
def setDegen (degen : Bool) (s : State) : State := if degen then { s with flags := s.flags ||| 1 } else s

/-- Write-one-to-clear over the bits a register has (R29, R37): a written 1 clears its bit, a written 0 leaves it, the
reserved bits ignore the write. -/
def writeOneClear (bits old v : Word) : Word := old &&& ~~~(v &&& bits)

/-- `STATUS` as read: `STATE` in bits 1:0, `STOPREQ` in bit 2, the rest zero (R33). -/
def statusWord (s : State) : Word :=
  (match s.engine with | .idle => 0 | .run => 1 | .faulted => 2) ||| (if s.stopReq then 4 else 0)

/-- The interrupt output: some `INTSTAT` bit is pending and enabled (R216). -/
def irq (s : State) : Bool := decide (s.intstat &&& s.inten &&& 7 ≠ 0)

end Sys2Proof.Machine
end

