-- ==== Sys2Proof/Machine/Float.lean ====
section
/-! DEFINITION. Binary32 as the spec uses it (R10, R11): every operation on bit patterns, computed exactly over the
integers and rounded once. A finite binary32 is an integer number of units of 2^-149, the weight of the last bit of a
subnormal; all exact arithmetic is in those units. R10 takes the content of IEEE 754 from general knowledge: PRESUMED
(notes/assumptions/17.md). -/

namespace Sys2Proof.Machine

/-- The canonical quiet NaN (R10). -/
def canonicalNaN : Word := 0x7FC00000

/-- `+0.0` (R10). -/
def fzero : Word := 0x00000000

/-- `1.0` (R10). -/
def fone : Word := 0x3F800000

/-- `0.5` (R10). -/
def fhalf : Word := 0x3F000000

/-- The magnitude bits of `+infinity`: exponent all ones, fraction zero (R10). -/
def infMag : Nat := 0x7F800000

/-- How many units of 2^-149 make one. -/
def oneUnits : Nat := 2 ^ 149

/-- The bits below the sign bit: exponent and fraction (R10). -/
def magBits (x : Word) : Nat := x.toNat % 2 ^ 31

/-- The sign bit (R10). -/
def isNeg (x : Word) : Bool := decide (2 ^ 31 ≤ x.toNat)

/-- A NaN: exponent all ones, fraction not zero (R10). -/
def isNaN (x : Word) : Bool := decide (infMag < magBits x)

/-- An infinity of either sign (R10). -/
def isInf (x : Word) : Bool := decide (magBits x = infMag)

/-- A zero of either sign (R10). -/
def isZero (x : Word) : Bool := decide (magBits x = 0)

/-- Neither a NaN nor an infinity: `is_finite` (R10). -/
def isFinite (x : Word) : Bool := decide (magBits x < infMag)

/-- The magnitude of a finite datum in units: a subnormal's fraction, or a normal's significand scaled by its
exponent (R10). -/
def unitsOf (x : Word) : Nat :=
  let e := magBits x / 2 ^ 23
  let f := magBits x % 2 ^ 23
  if e = 0 then f else (2 ^ 23 + f) * 2 ^ (e - 1)

/-- The value of a finite datum in units, signed (R10). -/
def signedUnits (x : Word) : Int := if isNeg x then -(unitsOf x : Int) else (unitsOf x : Int)

/-- A bit pattern from a sign and magnitude bits. -/
def packFloat (neg : Bool) (m : Nat) : Word := BitVec.ofNat 32 ((if neg then 2 ^ 31 else 0) + m)

/-- The integer nearest to `num / den`, an exact half going to the even integer (R10, R11). -/
def divRoundEven (num den : Nat) : Nat :=
  let q := num / den
  let r := num % den
  if den < 2 * r ∨ (2 * r = den ∧ q % 2 = 1) then q + 1 else q

/-- The magnitude bits of the binary32 nearest to `num / den` units, ties to even, overflow to infinity (R10). With
`k` the number of bits above the 24 a significand holds, the last place weighs `2^k` units; the rounded significand
added to `k` in the exponent's place carries into the exponent by itself. -/
def roundUnits (num den : Nat) : Nat :=
  let k := (num / den).log2 - 23
  min (k * 2 ^ 23 + divRoundEven num (den * 2 ^ k)) infMag

/-- `fadd` (R10): the exact sum rounded once; a NaN result is canonical; an exact zero is `-0` only for two negative
zeros. -/
def fadd (a b : Word) : Word :=
  if isNaN a || isNaN b then canonicalNaN
  else if isInf a then (if isInf b && isNeg a != isNeg b then canonicalNaN else a)
  else if isInf b then b
  else
    let t := signedUnits a + signedUnits b
    if t = 0 then packFloat (isNeg a && isNeg b) 0
    else packFloat (decide (t < 0)) (roundUnits t.natAbs 1)

/-- Negation of the sign bit, the helper of `fsub`. -/
def fneg (a : Word) : Word := a ^^^ 0x80000000

/-- `fsub` (R10): `a - b` is `a + (-b)` in IEEE arithmetic, NaNs becoming canonical. -/
def fsub (a b : Word) : Word := fadd a (fneg b)

/-- `fmul` (R10): the exact product rounded once; zero times infinity is the canonical NaN. -/
def fmul (a b : Word) : Word :=
  if isNaN a || isNaN b then canonicalNaN
  else
    let s := isNeg a != isNeg b
    if isInf a || isInf b then (if isZero a || isZero b then canonicalNaN else packFloat s infMag)
    else packFloat s (roundUnits (unitsOf a * unitsOf b) oneUnits)

/-- `fdiv` (R10): the exact quotient rounded once; 0/0 and inf/inf are the canonical NaN, a finite non-zero value over
a zero is an infinity of the product's sign. -/
def fdiv (a b : Word) : Word :=
  if isNaN a || isNaN b then canonicalNaN
  else
    let s := isNeg a != isNeg b
    if isInf a then (if isInf b then canonicalNaN else packFloat s infMag)
    else if isInf b then packFloat s 0
    else if isZero b then (if isZero a then canonicalNaN else packFloat s infMag)
    else packFloat s (roundUnits (unitsOf a * oneUnits) (unitsOf b))

/-- The order of non-NaN data as integers: the magnitude bits with their sign; both zeros are 0. -/
def orderKey (x : Word) : Int := if isNeg x then -(magBits x : Int) else (magBits x : Int)

/-- `fgt` (R10): neither operand is a NaN and `a > b`. -/
def fgt (a b : Word) : Bool := !isNaN a && !isNaN b && decide (orderKey b < orderKey a)

/-- `i2f` (R10): the nearest binary32 to an integer, ties to even. -/
def i2f (n : Int) : Word := packFloat (decide (n < 0)) (roundUnits (n.natAbs * oneUnits) 1)

/-- `u8f` (R10): a byte as a binary32, exact. -/
def u8f (b : Byte) : Word := i2f (b.toNat : Int)

/-- `floor_int` of a finite datum (R10). -/
def floorInt (x : Word) : Int := signedUnits x / (oneUnits : Int)

/-- `ffloor` of a finite datum (R10): exact, and `ffloor(-0) = -0`. -/
def ffloor (x : Word) : Word := if isZero x then x else i2f (floorInt x)

/-- `f2u8` (R11): NaN and everything not above zero go to 0, everything from 255 up to 255, the rest to the nearest
integer, ties to even. -/
def f2u8 (v : Word) : Byte :=
  if isNaN v || isNeg v || isZero v then 0
  else if 255 * oneUnits ≤ unitsOf v || isInf v then 255
  else BitVec.ofNat 8 (divRoundEven (unitsOf v) oneUnits)

/-- `Relu1` (R150). -/
def relu1 (v : Word) : Word := if fgt v fzero then v else fzero

/-- A result E4 and E5 allow for `EXP32(x)`, `x` not a NaN (R166): not a NaN, not below zero, and not above one where
`x` is not above zero. -/
def expAllowed (x y : Word) : Bool := !isNaN y && decide (0 ≤ orderKey y) && (fgt x fzero || !fgt y fone)

/-- `EXP32` (R166), the parameter narrowed to E1..E5 (DEDUCED, notes/assumptions/7.md): E1 to E3 fix the value at the zeros, at `-infinity` and at NaNs;
elsewhere the value is `Config.exp32Raw`'s where E4 and E5 allow it. -/
def exp32 (x : Word) : Word :=
  if isNaN x then canonicalNaN
  else if isZero x then fone
  else if isInf x && isNeg x then fzero
  else if expAllowed x (Config.exp32Raw x) then Config.exp32Raw x
  else fzero

end Sys2Proof.Machine
end

