-- ==== Sys2Proof/Machine/Operands.lean ====
section
/-! DEFINITION. The operand forms: image views, filters and vectors (R12, R66 to R70), the checks every command makes
before it writes (R203 to R208, R211), and the shared course of a command that passes or fails them (R186 steps 4 to 6,
R209, R210). -/

namespace Sys2Proof.Machine

/-! ### Elements -/

/-- `esize(ET)` (R12). -/
def esize : ElemType → Nat
  | .u8 => 1
  | .f32 => 4

/-- The number of elements of a view (R66). -/
def viewCount (v : View) : Nat := v.w * v.h * v.d

/-- The linear offset of element `(x, y, c)`: `d*(w*y+x)+c` (R12, R66). -/
def elemIndex (v : View) (x y c : Nat) : Nat := v.d * (v.w * y + x) + c

/-- The byte address of element `i` of a buffer. -/
def elemAddr (et : ElemType) (base : Word) (i : Nat) : Nat := base.toNat + esize et * i

/-- Element `i` of a buffer as a binary32: `u8f` of a byte, or the word unchanged (R12). -/
def loadElem (et : ElemType) (m : Memory) (base : Word) (i : Nat) : Word :=
  match et with
  | .u8 => u8f (readByte m (elemAddr .u8 base i))
  | .f32 => readWord m (elemAddr .f32 base i)

/-- `Pix(I, x, y, c)` (R12). -/
def pix (et : ElemType) (m : Memory) (v : View) (x y c : Nat) : Word := loadElem et m v.addr (elemIndex v x y c)

/-- The cells of element `i` of a buffer that receives the binary32 `f`: `f2u8(f)`, or `f` unchanged (R12). -/
def elemCells (et : ElemType) (base : Word) (i : Nat) (f : Word) : List Host.Cell :=
  match et with
  | .u8 => [(elemAddr .u8 base i, f2u8 f)]
  | .f32 => wordCells (elemAddr .f32 base i) f

/-- The cells of the first `n` elements of a buffer, element `i` receiving `f i`. -/
def bufferCells (et : ElemType) (base : Word) (n : Nat) (f : Nat → Word) : List Host.Cell :=
  (List.range n).flatMap fun i => elemCells et base i (f i)

/-- `SetPix` over a whole view: element `(x, y, c)` receives `f x y c` (R12); `x`, `y`, `c` are recovered from the linear
offset `i = d*(w*y+x)+c`. -/
def viewCells (et : ElemType) (v : View) (f : Nat → Nat → Nat → Word) : List Host.Cell :=
  bufferCells et v.addr (viewCount v) fun i => f (i / v.d % v.w) (i / v.d / v.w) (i % v.d)

/-- The accesses to the first `n` elements of a buffer (R64). -/
def bufferAccesses (kind : AccessKind) (et : ElemType) (base : Word) (n : Nat) : List Access :=
  (List.range n).map fun i => ⟨kind, esize et, elemAddr et base i⟩

/-- The accesses to every element of a view (R61). -/
def viewAccesses (kind : AccessKind) (et : ElemType) (v : View) : List Access :=
  bufferAccesses kind et v.addr (viewCount v)

/-! ### Buffers and the checks -/

/-- A buffer as the checks see it: its id (R201), its extent (R70), and whether its elements are binary32 (R206). -/
structure Buffer where
  id : Nat
  base : Nat
  size : Nat
  isF32 : Bool
  deriving DecidableEq, Repr

/-- The extent of a buffer (R70). -/
def extentOf (b : Buffer) : Extent := ⟨b.base, b.size⟩

/-- An image view as buffer `id`: `esize(ET)*w*h*d` bytes (R70). -/
def viewBuffer (id : Nat) (et : ElemType) (v : View) : Buffer :=
  ⟨id, v.addr.toNat, esize et * viewCount v, decide (et = .f32)⟩

/-- A vector of `n` elements as buffer `id` (R69, R70). -/
def vectorBuffer (id : Nat) (et : ElemType) (base : Word) (n : Nat) : Buffer :=
  ⟨id, base.toNat, esize et * n, decide (et = .f32)⟩

/-- The number of elements of a filter (R68). -/
def filterCount (f : Filter) : Nat := f.fh * f.fw * f.ci * f.co

/-- A filter tensor as buffer `id`: `4*FH*FW*CI*CO` bytes (R70). -/
def filterBuffer (id : Nat) (f : Filter) : Buffer := ⟨id, f.addr.toNat, 4 * filterCount f, true⟩

/-- The dimension fields of a view whose size word is `Wk` and depth word `Wk+1`, by word index (R92, R204). -/
def viewDims (k : Nat) (v : View) : List (Nat × Nat) := [(k, v.w), (k, v.h), (k + 1, v.d)]

/-- `DIM_ZERO` with the lowest word holding a zero field; the fields come in word order (R204). -/
def dimCheck (dims : List (Nat × Nat)) : Option Cause := (dims.find? fun p => p.2 == 0).map fun p => .dimZero p.1

/-- `SHAPE` with the lowest failing sub-code; the relations come in sub-code order (R205). -/
def shapeCheck (rels : List (Nat × Bool)) : Option Cause := (rels.find? fun p => !p.2).map fun p => .shape p.1

/-- `MISALIGNED` with the first binary32 buffer whose base is not a multiple of 4; buffers come in id order (R206). -/
def alignCheck (bufs : List Buffer) : Option Cause :=
  (bufs.find? fun b => b.isF32 && b.base % 4 != 0).map fun b => .misaligned b.id

/-- `ADDR_RANGE` with the first buffer that ends above 2^32; buffers come in id order (R207). -/
def rangeCheck (bufs : List Buffer) : Option Cause :=
  (bufs.find? fun b => decide (2 ^ 32 < b.base + b.size)).map fun b => .addrRange b.id

/-- `OVERLAP` with the id of the first input the output overlaps; the pairs (output, input) come in the order of the
inputs' ids (R208). -/
def overlapCheck (pairs : List (Buffer × Buffer)) : Option Cause :=
  (pairs.find? fun p => overlaps (extentOf p.1) (extentOf p.2)).map fun p => .overlap p.2.id

/-- The checks of a command in the order of R211: the first that fails is reported, the later ones are not made. -/
def preflight (dims : List (Nat × Nat)) (rels : List (Nat × Bool)) (bufs : List Buffer)
    (pairs : List (Buffer × Buffer)) : Option Cause :=
  match dimCheck dims with
  | some c => some c
  | none =>
    match shapeCheck rels with
    | some c => some c
    | none =>
      match alignCheck bufs with
      | some c => some c
      | none =>
        match rangeCheck bufs with
        | some c => some c
        | none => overlapCheck pairs

/-! ### The course of a command -/

/-- What a command's descriptor alone settles: the fault its checks report, and its input and output extents (R211,
R70). -/
structure Footprint where
  cause : Option Cause
  ins : List Extent
  outs : List Extent
  deriving DecidableEq, Repr

/-- The footprint of a command from its checks: `ins` and `outs` name its input and output buffers. -/
def footprintOf (dims : List (Nat × Nat)) (rels : List (Nat × Bool)) (bufs : List Buffer)
    (pairs : List (Buffer × Buffer)) (ins outs : List Buffer) : Footprint :=
  ⟨preflight dims rels bufs pairs, ins.map extentOf, outs.map extentOf⟩

/-- What a command does once its checks have passed: the accesses its rule makes, the further accesses to its inputs
that R72 leaves free, the bytes it stores, and whether it took a degenerate fallback. -/
structure Work where
  needs : List Access
  may : List Access
  stores : List Host.Cell
  degen : Bool
  deriving DecidableEq, Repr

/-- A data `BUS_ERROR` (R209, R210): the output extents become unspecified and `ERRINFO` is the address of one failing
access, which one unspecified. DEDUCED (notes/assumptions/9.md). -/
def busFault (outs : List Extent) (failing : List Access) (s : State) : State :=
  takeFault (.busError (BitVec.ofNat 32 (freeMember s.draws ⟨.read, 1, 0⟩ failing).addr)) (havoc outs s)

/-- The completion of a compute command: its bytes are in memory, then one completion event sets `DEGEN` if the
command took a fallback, counts it and advances `CP` by 64 (R26, R76, R186). -/
def finish (w : Work) (s : State) : State :=
  complete (s.cp + 64) (setDegen w.degen { s with mem := writeCells s.mem w.stores })

/-- The execution of a command whose checks have passed (R186 steps 5 and 6): a failing access of its rule is a
`BUS_ERROR` (R209); a failing access that R72 only allows is one or not, by a free choice; otherwise it completes.
DEDUCED (notes/assumptions/8.md). -/
def runWork (outs : List Extent) (w : Work) (s : State) : Host.Outcome State Fault Refusal :=
  if w.needs.any (isDenied s) then .next (busFault outs ((w.needs ++ w.may).filter (isDenied s)) s)
  else if w.may.any (isDenied s) then
    if freeBit s.draws then .next (busFault outs (w.may.filter (isDenied s)) (drawn s))
    else .next (finish w (drawn s))
  else .next (finish w s)

/-- A compute command (R186 steps 4 to 6): a failed check is its fault (R211), with nothing written; otherwise its work,
computed from the memory it begins with. -/
def runUnit (fp : Footprint) (work : Memory → Work) (s : State) : Host.Outcome State Fault Refusal :=
  match fp.cause with
  | some c => .next (takeFault c s)
  | none => runWork fp.outs (work s.mem) s

end Sys2Proof.Machine
end

