-- ==== Sys2Proof/Machine/BiasRelu.lean ====
section
/-! DEFINITION. The bias and ReLU unit: `ADDBIAS`, `RELU`, `BIASRELU` (42_bias_relu.md). All buffers are binary32. -/

namespace Sys2Proof.Machine

/-- The sum of element `(x, y, c)` of a view and element `c` of a bias vector (R151, R155). -/
def biasedPix (m : Memory) (v : View) (baddr : Word) (x y c : Nat) : Word :=
  fadd (pix .f32 m v x y c) (loadElem .f32 m baddr c)

/-- The three relations of equal shapes (R153, R155, R205). -/
def sameShape (inp out : View) : List (Nat × Bool) := [(1, out.w == inp.w), (2, out.h == inp.h), (3, out.d == inp.d)]

/-! ### ADDBIAS -/

/-- The checks of `ADDBIAS` (R151): the image is input and output; the bias has `IMG.D` elements. -/
def addbiasFootprint (img : View) (baddr : Word) : Footprint :=
  let i := viewBuffer 0 .f32 img
  let b := vectorBuffer 2 .f32 baddr img.d
  footprintOf (viewDims 2 img) [] [i, b] [(i, b)] [i, b] [i]

/-- The work of `ADDBIAS` (R151): every element is read once and written once. -/
def addbiasWork (img : View) (baddr : Word) (m : Memory) : Work :=
  { needs := viewAccesses .read .f32 img ++ bufferAccesses .read .f32 baddr img.d ++ viewAccesses .write .f32 img
    may := []
    stores := viewCells .f32 img fun x y c => biasedPix m img baddr x y c
    degen := false }

/-- `ADDBIAS` (R151). -/
def execAddbias (img : View) (baddr : Word) (s : State) : Host.Outcome State Fault Refusal :=
  runUnit (addbiasFootprint img baddr) (addbiasWork img baddr) s

/-! ### RELU -/

/-- The checks of `RELU` (R153). -/
def reluFootprint (inp out : View) : Footprint :=
  let i := viewBuffer 0 .f32 inp
  let o := viewBuffer 1 .f32 out
  footprintOf (viewDims 2 inp ++ viewDims 5 out) (sameShape inp out) [i, o] [(o, i)] [i] [o]

/-- The work of `RELU` (R153): element `i` of `OUT` is `Relu1` of element `i` of `IN`. -/
def reluWork (inp out : View) (m : Memory) : Work :=
  { needs := viewAccesses .read .f32 inp ++ viewAccesses .write .f32 out
    may := []
    stores := bufferCells .f32 out.addr (viewCount inp) fun i => relu1 (loadElem .f32 m inp.addr i)
    degen := false }

/-- `RELU` (R153). -/
def execRelu (inp out : View) (s : State) : Host.Outcome State Fault Refusal :=
  runUnit (reluFootprint inp out) (reluWork inp out) s

/-! ### BIASRELU -/

/-- The checks of `BIASRELU` (R155): the pair `OUT` against `IN` is skipped when they begin at one address (R208). -/
def biasreluFootprint (inp : View) (baddr : Word) (out : View) : Footprint :=
  let i := viewBuffer 0 .f32 inp
  let o := viewBuffer 1 .f32 out
  let b := vectorBuffer 2 .f32 baddr inp.d
  footprintOf (viewDims 2 inp ++ viewDims 5 out) (sameShape inp out) [i, o, b]
    ((if out.addr = inp.addr then [] else [(o, i)]) ++ [(o, b)]) [i, b] [o]

/-- The work of `BIASRELU` (R155): the sum is rounded before `Relu1`. -/
def biasreluWork (inp : View) (baddr : Word) (out : View) (m : Memory) : Work :=
  { needs := viewAccesses .read .f32 inp ++ bufferAccesses .read .f32 baddr inp.d ++ viewAccesses .write .f32 out
    may := []
    stores := viewCells .f32 out fun x y c => relu1 (biasedPix m inp baddr x y c)
    degen := false }

/-- `BIASRELU` (R155). -/
def execBiasrelu (inp : View) (baddr : Word) (out : View) (s : State) : Host.Outcome State Fault Refusal :=
  runUnit (biasreluFootprint inp baddr out) (biasreluWork inp baddr out) s

end Sys2Proof.Machine
end

