-- ==== Sys2Proof/Machine/Control.lean ====
section
/-! DEFINITION. The sequencer's own commands: `END`, `JUMP`, `NOP` (46_control.md). -/

namespace Sys2Proof.Machine

/-- A command without buffers and without checks beyond the decoder's. -/
def noFootprint : Footprint := ⟨none, [], []⟩

/-- `JUMP` checks its target: a multiple of 64, else `MISALIGNED(3)` (R189, R206). -/
def jumpFootprint (target : Word) : Footprint :=
  ⟨if target.toNat % 64 = 0 then none else some (.misaligned 3), [], []⟩

/-- `END` (R188): completes like any command, then the run is over: `IDLE`, stop request dropped, `INTSTAT.DONE`. -/
def execEndCmd (s : State) : Host.Outcome State Fault Refusal := .next (endRun (complete (s.cp + 64) s))

/-- `JUMP` (R189): an aligned target becomes `CP`; a misaligned one faults and `CP` stays at the `JUMP`. -/
def execJump (target : Word) (s : State) : Host.Outcome State Fault Refusal :=
  match (jumpFootprint target).cause with
  | some c => .next (takeFault c s)
  | none => .next (complete target s)

/-- `NOP` (R187): nothing but its completion. -/
def execNop (s : State) : Host.Outcome State Fault Refusal := .next (complete (s.cp + 64) s)

end Sys2Proof.Machine
end

