-- ==== Sys2Proof/Machine/Conv.lean ====
section
/-! DEFINITION. The valid 2D convolution engine: `CONV2D` (41_conv2d.md). -/

namespace Sys2Proof.Machine

/-- `Filt(fy, fx, ci, co)` (R68). -/
def filtElem (m : Memory) (f : Filter) (fy fx ci co : Nat) : Word :=
  loadElem .f32 m f.addr (((fy * f.fw + fx) * f.ci + ci) * f.co + co)

/-- The taps of the filter in accumulation order: `fy`, then `fx`, then `ci` (R144). -/
def convTaps (f : Filter) : List (Nat × Nat × Nat) :=
  (List.range f.fh).flatMap fun fy =>
    (List.range f.fw).flatMap fun fx =>
      (List.range f.ci).map fun ci => (fy, fx, ci)

/-- One output element (R141): the sum of products from `+0.0`, each product and sum rounded (R144); the filter is not
flipped (R142). -/
def convValue (m : Memory) (inp : View) (f : Filter) (x y co : Nat) : Word :=
  (convTaps f).foldl
    (fun acc t => fadd acc (fmul (pix .f32 m inp (x + t.2.1) (y + t.1) t.2.2) (filtElem m f t.1 t.2.1 t.2.2 co))) fzero

/-- The checks of `CONV2D` (R141): the shape relations hold over the integers, where the right side may be zero or
less. -/
def conv2dFootprint (inp : View) (filt : Filter) (out : View) : Footprint :=
  let i := viewBuffer 0 .f32 inp
  let o := viewBuffer 1 .f32 out
  let f := filterBuffer 2 filt
  footprintOf (viewDims 2 inp ++ viewDims 5 out ++ [(8, filt.fw), (8, filt.fh), (9, filt.ci), (9, filt.co)])
    [(1, decide ((out.w : Int) = inp.w - filt.fw + 1)), (2, decide ((out.h : Int) = inp.h - filt.fh + 1)),
      (4, filt.ci == inp.d), (5, filt.co == out.d)]
    [i, o, f] [(o, i), (o, f)] [i, f] [o]

/-- The work of `CONV2D` (R141). -/
def conv2dWork (inp : View) (filt : Filter) (out : View) (m : Memory) : Work :=
  { needs := viewAccesses .read .f32 inp ++ bufferAccesses .read .f32 filt.addr (filterCount filt)
      ++ viewAccesses .write .f32 out
    may := []
    stores := viewCells .f32 out fun x y co => convValue m inp filt x y co
    degen := false }

/-- `CONV2D` (R141). -/
def execConv2d (inp : View) (filt : Filter) (out : View) (s : State) : Host.Outcome State Fault Refusal :=
  runUnit (conv2dFootprint inp filt out) (conv2dWork inp filt out) s

end Sys2Proof.Machine
end

