-- ==== Sys2Proof/Machine/Histogram.lean ====
section
/-! DEFINITION. The histogram units: `HISTEQ` and `OTSU` (45_histogram.md). All arithmetic is exact integer arithmetic. -/

namespace Sys2Proof.Machine

/-! ### The shared histogram (R170, R171) -/

/-- The pixels of a single-channel 8-bit image in memory order (R170). -/
def grayPixels (m : Memory) (v : View) : List Nat :=
  (List.range (v.w * v.h)).map fun i => (readByte m (elemAddr .u8 v.addr i)).toNat

/-- `hist[t]`: how many pixels have value `t` (R171). -/
def histOf (pixels : List Nat) (t : Nat) : Nat := pixels.countP (· == t)

/-- `cdf[v]`: the sum of `hist[0..v]` (R171). -/
def cdfOf (pixels : List Nat) (v : Nat) : Nat := ((List.range (v + 1)).map (histOf pixels)).sum

/-! ### HISTEQ -/

/-- `cdf_min`: the value of `cdf` at the least pixel value that occurs (R173, R174). -/
def cdfMin (pixels : List Nat) : Nat :=
  match (List.range 256).find? fun t => decide (0 < histOf pixels t) with
  | some vmin => cdfOf pixels vmin
  | none => 0

/-- The image is constant: `NP = cdf_min` (R175). -/
def isConstant (pixels : List Nat) : Bool := pixels.length == cdfMin pixels

/-- The remapped value of a pixel: itself in a constant image (R175), else `round((cdf[v]-cdf_min)*255/(NP-cdf_min))`
with exact halves up (R174). -/
def equalized (pixels : List Nat) (v : Nat) : Nat :=
  if isConstant pixels then v
  else
    let den := pixels.length - cdfMin pixels
    let num := (cdfOf pixels v - cdfMin pixels) * 255
    (2 * num + den) / (2 * den)

/-- The checks of `HISTEQ` (R174). -/
def histeqFootprint (inp out : View) : Footprint :=
  let i := viewBuffer 0 .u8 inp
  let o := viewBuffer 1 .u8 out
  footprintOf (viewDims 2 inp ++ viewDims 5 out)
    [(1, out.w == inp.w), (2, out.h == inp.h), (3, out.d == inp.d), (6, inp.d == 1)] [i, o] [(o, i)] [i] [o]

/-- The work of `HISTEQ` (R174): every byte of `OUT`, and `DEGEN` for a constant image. -/
def histeqWork (inp out : View) (m : Memory) : Work :=
  let pixels := grayPixels m inp
  { needs := viewAccesses .read .u8 inp ++ viewAccesses .write .u8 out
    may := []
    stores := (List.range (inp.w * inp.h)).map fun i =>
      (elemAddr .u8 out.addr i, BitVec.ofNat 8 (equalized pixels (readByte m (elemAddr .u8 inp.addr i)).toNat))
    degen := isConstant pixels }

/-- `HISTEQ` (R174, R175). -/
def execHisteq (inp out : View) (s : State) : Host.Outcome State Fault Refusal :=
  runUnit (histeqFootprint inp out) (histeqWork inp out) s

/-! ### OTSU -/

/-- `SUM`: the sum of `t * hist[t]` over all values (R178). -/
def graySum (pixels : List Nat) : Nat := ((List.range 256).map fun t => t * histOf pixels t).sum

/-- The objective's numerator of a candidate (R178). -/
def otsuNum (np sum wB sumB : Nat) : Nat := (((sumB : Int) * np - (sum : Int) * wB) ^ 2).natAbs

/-- The scan of the candidates (R178): `wB`, `sumB` and the best objective so far as a fraction, with its level. A
candidate with `wB = 0` is skipped; `wF = 0` stops; an objective not below the best replaces it. -/
def otsuScan (pixels : List Nat) (np sum : Nat) : List Nat → Nat → Nat → Nat → Nat → Nat → Nat
  | [], _, _, _, _, level => level
  | t :: ts, wB, sumB, bestNum, bestDen, level =>
    let wB' := wB + histOf pixels t
    if wB' = 0 then otsuScan pixels np sum ts wB' sumB bestNum bestDen level
    else if np - wB' = 0 then level
    else
      let sumB' := sumB + t * histOf pixels t
      let num := otsuNum np sum wB' sumB'
      let den := wB' * (np - wB')
      if bestNum * den ≤ num * bestDen then otsuScan pixels np sum ts wB' sumB' num den t
      else otsuScan pixels np sum ts wB' sumB' bestNum bestDen level

/-- The selected level: candidates 0 to 255 upward, initial maximum 0, initial level 0 (R178). -/
def otsuLevel (pixels : List Nat) : Nat :=
  otsuScan pixels pixels.length (graySum pixels) (List.range 256) 0 0 0 1 0

/-- The checks of `OTSU` (R178): the result byte is buffer 1. -/
def otsuFootprint (inp : View) (raddr : Word) : Footprint :=
  let i := viewBuffer 0 .u8 inp
  let o := vectorBuffer 1 .u8 raddr 1
  footprintOf (viewDims 2 inp) [(6, inp.d == 1)] [i, o] [(o, i)] [i] [o]

/-- The work of `OTSU` (R178): one byte at `RADDR`. -/
def otsuWork (inp : View) (raddr : Word) (m : Memory) : Work :=
  { needs := viewAccesses .read .u8 inp ++ bufferAccesses .write .u8 raddr 1
    may := []
    stores := [(raddr.toNat, BitVec.ofNat 8 (otsuLevel (grayPixels m inp)))]
    degen := false }

/-- `OTSU` (R178). -/
def execOtsu (inp : View) (raddr : Word) (s : State) : Host.Outcome State Fault Refusal :=
  runUnit (otsuFootprint inp raddr) (otsuWork inp raddr) s

end Sys2Proof.Machine
end

