-- ==== Sys2Proof/Machine/Pool.lean ====
section
/-! DEFINITION. The 2x2 max-pooling unit: `MAXPOOL2` (43_maxpool.md). -/

namespace Sys2Proof.Machine

/-- A later element replaces the running maximum only when strictly greater (R161). -/
def fmaxStep (m v : Word) : Word := if fgt v m then v else m

/-- The maximum of the 2x2 block of output pixel `(ox, oy)`, in the order of R161. -/
def poolValue (mem : Memory) (inp : View) (ox oy c : Nat) : Word :=
  let p := fun x y => pix .f32 mem inp x y c
  fmaxStep (fmaxStep (fmaxStep (p (2 * ox) (2 * oy)) (p (2 * ox + 1) (2 * oy))) (p (2 * ox) (2 * oy + 1)))
    (p (2 * ox + 1) (2 * oy + 1))

/-- The checks of `MAXPOOL2` (R161). -/
def maxpool2Footprint (inp out : View) : Footprint :=
  let i := viewBuffer 0 .f32 inp
  let o := viewBuffer 1 .f32 out
  footprintOf (viewDims 2 inp ++ viewDims 5 out)
    [(1, out.w == inp.w / 2), (2, out.h == inp.h / 2), (3, out.d == inp.d)] [i, o] [(o, i)] [i] [o]

/-- The elements `MAXPOOL2` reads: those with `x < 2*OUT.w` and `y < 2*OUT.h` (R61, R162). -/
def poolReads (inp out : View) : List Access :=
  (List.range (2 * out.h)).flatMap fun y =>
    (List.range (2 * out.w)).flatMap fun x =>
      (List.range inp.d).map fun c => ⟨.read, 4, elemAddr .f32 inp.addr (elemIndex inp x y c)⟩

/-- The work of `MAXPOOL2` (R161). -/
def maxpool2Work (inp out : View) (m : Memory) : Work :=
  { needs := poolReads inp out ++ viewAccesses .write .f32 out
    may := []
    stores := viewCells .f32 out fun ox oy c => poolValue m inp ox oy c
    degen := false }

/-- `MAXPOOL2` (R161). -/
def execMaxpool2 (inp out : View) (s : State) : Host.Outcome State Fault Refusal :=
  runUnit (maxpool2Footprint inp out) (maxpool2Work inp out) s

end Sys2Proof.Machine
end

