-- ==== Sys2Proof/Machine/Resampler.lean ====
section
/-! DEFINITION. The resampler unit: the shared bilinear sample and the commands `BSAMP`, `AFFINE`, `CROPRS`
(40_resampler.md). -/

namespace Sys2Proof.Machine

/-! ### The shared primitive (R121, R122) -/

/-- `InBounds(I, x, y)` (R121). -/
def inBounds (v : View) (x y : Int) : Bool :=
  decide (0 ≤ x) && decide (x < v.w) && decide (0 ≤ y) && decide (y < v.h)

/-- The four neighbours of a finite coordinate with their weights, in the order of R121: `(x0,y0)`, `(x1,y0)`,
`(x0,y1)`, `(x1,y1)`. A coordinate that is not finite has none (R122). -/
def neighbours (sx sy : Word) : List (Word × Int × Int) :=
  if isFinite sx && isFinite sy then
    let x0 := floorInt sx
    let y0 := floorInt sy
    let fx := fsub sx (ffloor sx)
    let fy := fsub sy (ffloor sy)
    let gx := fsub fone fx
    let gy := fsub fone fy
    [(fmul gx gy, x0, y0), (fmul fx gy, x0 + 1, y0), (fmul gx fy, x0, y0 + 1), (fmul fx fy, x0 + 1, y0 + 1)]
  else []

/-- The neighbours inside the image: the zero-pad policy skips the others (R122). -/
def samplePoints (v : View) (sx sy : Word) : List (Word × Int × Int) :=
  (neighbours sx sy).filter fun p => inBounds v p.2.1 p.2.2

/-- `BilinearSample(I, sx, sy, c)` (R121): the weighted sum of the neighbours in bounds, from `+0.0`, in order. -/
def bilinear (et : ElemType) (m : Memory) (v : View) (sx sy : Word) (c : Nat) : Word :=
  (samplePoints v sx sy).foldl
    (fun acc p => fadd acc (fmul p.1 (pix et m v p.2.1.toNat p.2.2.toNat c))) fzero

/-- The reads of these neighbours over all channels. -/
def pointAccesses (et : ElemType) (v : View) (points : List (Word × Int × Int)) : List Access :=
  points.flatMap fun p =>
    (List.range v.d).map fun c => ⟨.read, esize et, elemAddr et v.addr (elemIndex v p.2.1.toNat p.2.2.toNat c)⟩

/-- The reads of one sample: the neighbours in bounds (R61, R121). -/
def sampleAccesses (et : ElemType) (v : View) (sx sy : Word) : List Access :=
  pointAccesses et v (samplePoints v sx sy)

/-- The reads the sample's value depends on. An 8-bit neighbour of weight zero adds `+0.0` whatever it holds, and R72 lets
the engine leave it unread; a binary32 neighbour of weight zero may be an infinity or a NaN, and counts (R123 b).
DEDUCED (notes/assumptions/8.md). -/
def neededAccesses (et : ElemType) (v : View) (sx sy : Word) : List Access :=
  pointAccesses et v ((samplePoints v sx sy).filter fun p => decide (et = .f32) || !isZero p.1)

/-! ### BSAMP -/

/-- The checks of `BSAMP` (R126): no shape relation. -/
def bsampFootprint (et : ElemType) (inp : View) (outAddr : Word) : Footprint :=
  let i := viewBuffer 0 et inp
  let o := vectorBuffer 1 et outAddr inp.d
  footprintOf (viewDims 2 inp) [] [i, o] [(o, i)] [i] [o]

/-- The work of `BSAMP` (R126): one sample per channel. -/
def bsampWork (et : ElemType) (inp : View) (outAddr sx sy : Word) (m : Memory) : Work :=
  { needs := neededAccesses et inp sx sy ++ bufferAccesses .write et outAddr inp.d
    may := sampleAccesses et inp sx sy
    stores := bufferCells et outAddr inp.d fun c => bilinear et m inp sx sy c
    degen := false }

/-- `BSAMP` (R126). -/
def execBsamp (et : ElemType) (inp : View) (outAddr sx sy : Word) (s : State) : Host.Outcome State Fault Refusal :=
  runUnit (bsampFootprint et inp outAddr) (bsampWork et inp outAddr sx sy) s

/-! ### AFFINE -/

/-- The checks `AFFINE` and `CROPRS` share (R128, R131): equal channel counts, disjoint extents; `more` are further
dimension fields. -/
def warpFootprint (et : ElemType) (inp out : View) (more : List (Nat × Nat)) : Footprint :=
  let i := viewBuffer 0 et inp
  let o := viewBuffer 1 et out
  footprintOf (viewDims 2 inp ++ viewDims 5 out ++ more) [(3, inp.d == out.d)] [i, o] [(o, i)] [i] [o]

/-- The source coordinate of destination pixel `(ix, iy)` of `AFFINE`, in the operation order of R128. -/
def affineCoord (inp out : View) (offX offY : Int) (t0 t1 t2 t3 : Word) (ix iy : Nat) : Word × Word :=
  let ox := fdiv (i2f offX) (i2f inp.w)
  let oy := fdiv (i2f offY) (i2f inp.h)
  let xn := fdiv (fadd (i2f ix) fhalf) (i2f out.w)
  let yn := fdiv (fadd (i2f iy) fhalf) (i2f out.h)
  let xs := fadd (fadd (fmul t0 xn) (fmul t1 yn)) ox
  let ys := fadd (fadd (fmul t2 xn) (fmul t3 yn)) oy
  (fsub (fmul xs (i2f inp.w)) fhalf, fsub (fmul ys (i2f inp.h)) fhalf)

/-- The reads a warp's result depends on: those of the samples of every destination pixel; `samples ix iy` lists their coordinates. -/
def warpAccesses (et : ElemType) (inp out : View) (samples : Nat → Nat → List (Word × Word)) : List Access :=
  (List.range out.h).flatMap fun iy =>
    (List.range out.w).flatMap fun ix =>
      (samples ix iy).flatMap fun p => neededAccesses et inp p.1 p.2

/-- The checks of `AFFINE` (R128). -/
def affineFootprint (et : ElemType) (inp out : View) : Footprint := warpFootprint et inp out []

/-- The work of `AFFINE` (R128): one sample per destination pixel and channel. -/
def affineWork (et : ElemType) (inp out : View) (offX offY : Int) (t0 t1 t2 t3 : Word) (m : Memory) : Work :=
  let coord := affineCoord inp out offX offY t0 t1 t2 t3
  { needs := warpAccesses et inp out (fun ix iy => [coord ix iy]) ++ viewAccesses .write et out
    may := viewAccesses .read et inp
    stores := viewCells et out fun ix iy c => bilinear et m inp (coord ix iy).1 (coord ix iy).2 c
    degen := false }

/-- `AFFINE` (R128). -/
def execAffine (et : ElemType) (inp out : View) (offX offY : Int) (t0 t1 t2 t3 : Word) (s : State) :
    Host.Outcome State Fault Refusal :=
  runUnit (affineFootprint et inp out) (affineWork et inp out offX offY t0 t1 t2 t3) s

/-! ### CROPRS -/

/-- `ceil(a / b)` for `b > 0` (R6, R132). -/
def ceilDiv (a b : Nat) : Nat := (a + b - 1) / b

/-- The decimation factor (R131, R132). -/
def decimation (out : View) (cropW cropH : Nat) : Nat := max (ceilDiv cropW out.w) (ceilDiv cropH out.h)

/-- One source coordinate of canvas pixel `b` along an axis of canvas size `size` (R131):
`origin + (b + 0.5)*crop/size - 0.5`. -/
def cropCoord (origin : Int) (crop size b : Nat) : Word :=
  fsub (fadd (i2f origin) (fdiv (fmul (fadd (i2f b) fhalf) (i2f crop)) (i2f size))) fhalf

/-- The `dsf*dsf` sample coordinates of output pixel `(ox, oy)`, `j` outer and `i` inner (R131). -/
def cropSamples (out : View) (left top : Int) (cropW cropH : Nat) (ox oy : Nat) : List (Word × Word) :=
  let dsf := decimation out cropW cropH
  (List.range dsf).flatMap fun j =>
    (List.range dsf).map fun i =>
      (cropCoord left cropW (out.w * dsf) (ox * dsf + i), cropCoord top cropH (out.h * dsf) (oy * dsf + j))

/-- The value of one output element of `CROPRS`: the sum of its samples divided by `dsf*dsf` once (R131). -/
def cropValue (et : ElemType) (m : Memory) (inp out : View) (left top : Int) (cropW cropH : Nat) (ox oy c : Nat) : Word :=
  let dsf := decimation out cropW cropH
  let acc := (cropSamples out left top cropW cropH ox oy).foldl
    (fun acc p => fadd acc (bilinear et m inp p.1 p.2 c)) fzero
  fdiv acc (i2f ((dsf * dsf : Nat) : Int))

/-- The checks of `CROPRS` (R131): `CROPW` and `CROPH` are dimension fields of `W9`. -/
def croprsFootprint (et : ElemType) (inp out : View) (cropW cropH : Nat) : Footprint :=
  warpFootprint et inp out [(9, cropW), (9, cropH)]

/-- The work of `CROPRS` (R131). -/
def croprsWork (et : ElemType) (inp out : View) (left top : Int) (cropW cropH : Nat) (m : Memory) : Work :=
  { needs := warpAccesses et inp out (cropSamples out left top cropW cropH) ++ viewAccesses .write et out
    may := viewAccesses .read et inp
    stores := viewCells et out fun ox oy c => cropValue et m inp out left top cropW cropH ox oy c
    degen := false }

/-- `CROPRS` (R131). -/
def execCroprs (et : ElemType) (inp out : View) (left top : Int) (cropW cropH : Nat) (s : State) :
    Host.Outcome State Fault Refusal :=
  runUnit (croprsFootprint et inp out cropW cropH) (croprsWork et inp out left top cropW cropH) s

end Sys2Proof.Machine
end

