-- ==== Sys2Proof/Machine/Softmax.lean ====
section
/-! DEFINITION. The softmax unit: `SOFTMAX` (44_softmax.md). The exponential is the parameter `exp32` (R166). -/

namespace Sys2Proof.Machine

/-- The largest score: an ascending scan from `s(0)`, replaced only when strictly greater (R167). -/
def softmaxMax (m : Memory) (saddr : Word) (n : Nat) : Word :=
  (List.range (n - 1)).foldl
    (fun mx i => if fgt (loadElem .f32 m saddr (i + 1)) mx then loadElem .f32 m saddr (i + 1) else mx)
    (loadElem .f32 m saddr 0)

/-- `e(i)`: the exponential of a score less the maximum (R167). -/
def softmaxExp (m : Memory) (saddr : Word) (mx : Word) (i : Nat) : Word := exp32 (fsub (loadElem .f32 m saddr i) mx)

/-- `S`: the ascending sum of the exponentials from `+0.0` (R167). -/
def softmaxSum (m : Memory) (saddr : Word) (n : Nat) (mx : Word) : Word :=
  (List.range n).foldl (fun acc i => fadd acc (softmaxExp m saddr mx i)) fzero

/-- Probability `i` (R167). -/
def softmaxProb (m : Memory) (saddr : Word) (n i : Nat) : Word :=
  let mx := softmaxMax m saddr n
  fdiv (softmaxExp m saddr mx i) (softmaxSum m saddr n mx)

/-- The checks of `SOFTMAX` (R167): no dimension field and no shape; empty ranges overlap nothing. -/
def softmaxFootprint (saddr : Word) (n : Nat) (paddr : Word) : Footprint :=
  let i := vectorBuffer 0 .f32 saddr n
  let o := vectorBuffer 1 .f32 paddr n
  footprintOf [] [] [i, o] [(o, i)] [i] [o]

/-- The work of `SOFTMAX` (R167). With `N = 0` nothing is read or written and the fallback is taken (R168). -/
def softmaxWork (saddr : Word) (n : Nat) (paddr : Word) (m : Memory) : Work :=
  { needs := bufferAccesses .read .f32 saddr n ++ bufferAccesses .write .f32 paddr n
    may := []
    stores := bufferCells .f32 paddr n fun i => softmaxProb m saddr n i
    degen := n == 0 }

/-- `SOFTMAX` (R167, R168). -/
def execSoftmax (saddr : Word) (n : Nat) (paddr : Word) (s : State) : Host.Outcome State Fault Refusal :=
  runUnit (softmaxFootprint saddr n paddr) (softmaxWork saddr n paddr) s

end Sys2Proof.Machine
end

