-- ==== Sys2Proof/Machine/Dispatch.lean ====
section
/-! DEFINITION. One arm per command (R105): its meaning. -/

namespace Sys2Proof.Machine

/-- The meaning of a command whose descriptor has been fetched and decoded (R186 steps 4 to 6), in every state
(DESIGN CHOICE, notes/assumptions/21.md): `step` asks for `RUN`. -/
def exec (i : Instr) (s : State) : Host.Outcome State Fault Refusal :=
  match i with
  | .endCmd => Sys2Proof.Machine.execEndCmd s
  | .jump target => Sys2Proof.Machine.execJump target s
  | .nop => Sys2Proof.Machine.execNop s
  | .bsamp et inp outAddr sx sy => Sys2Proof.Machine.execBsamp et inp outAddr sx sy s
  | .affine et inp out offX offY t0 t1 t2 t3 => Sys2Proof.Machine.execAffine et inp out offX offY t0 t1 t2 t3 s
  | .croprs et inp out left top cropW cropH => Sys2Proof.Machine.execCroprs et inp out left top cropW cropH s
  | .conv2d inp filt out => Sys2Proof.Machine.execConv2d inp filt out s
  | .addbias img baddr => Sys2Proof.Machine.execAddbias img baddr s
  | .relu inp out => Sys2Proof.Machine.execRelu inp out s
  | .biasrelu inp baddr out => Sys2Proof.Machine.execBiasrelu inp baddr out s
  | .maxpool2 inp out => Sys2Proof.Machine.execMaxpool2 inp out s
  | .softmax saddr n paddr => Sys2Proof.Machine.execSoftmax saddr n paddr s
  | .histeq inp out => Sys2Proof.Machine.execHisteq inp out s
  | .otsu inp raddr => Sys2Proof.Machine.execOtsu inp raddr s

end Sys2Proof.Machine
end

