-- ==== Sys2Proof/Machine/Window.lean ====
section
/-! DEFINITION. The host's side of the block: the register window (R30 to R44), host accesses to memory (R47), and the
reset input (R240). `CTRL` is here: start, stop, the return from a fault `CLRFAULT` (R213) and soft reset (R32, R241). -/

namespace Sys2Proof.Machine

/-- The read value of `ID` (R31). -/
def idValue : Word := 0x42525301

/-- A read of the window at a word-aligned offset (R30, R43). `CTRL` and reserved offsets read 0; reserved bits read 0;
no read has a side effect (R42). -/
def windowRead (s : State) (off : Nat) : Word :=
  if off = 0x000 then idValue
  else if off = 0x008 then statusWord s
  else if off = 0x00C then s.cp
  else if off = 0x010 then s.flags &&& 1
  else if off = 0x014 then s.inten &&& 7
  else if off = 0x018 then s.intstat &&& 7
  else if off = 0x01C then s.errCode &&& 15
  else if off = 0x020 then s.errCp
  else if off = 0x024 then s.errInfo
  else if off = 0x028 then s.cmdCnt
  else if 0x040 ≤ off ∧ off < 0x080 then descWord s.d ((off - 0x040) / 4)
  else 0

/-- `CTRL.CLRFAULT`: bit 2, in `FAULTED` only, changes `STATE` only (R32, R213). -/
def clearFault (v : Word) (s : State) : State :=
  if v.getLsbD 2 ∧ s.engine = .faulted then { s with engine := .idle } else s

/-- `CTRL.START`: bit 0, in `IDLE` only (R32). The host's memory writes before it are visible to the engine (R75). -/
def startEngine (v : Word) (s : State) : State :=
  if v.getLsbD 0 ∧ s.engine = .idle then { s with engine := .run, stopReq := false, unordered := [] } else s

/-- `CTRL.STOP`: bit 1, in `RUN` only (R32). -/
def requestStop (v : Word) (s : State) : State :=
  if v.getLsbD 1 ∧ s.engine = .run then { s with stopReq := true } else s

/-- A write of `CTRL`, one event in this order: `SRESET` alone if bit 31 is set, else `CLRFAULT`, `START`, `STOP`, each
seeing the state the one before it left (R32). -/
def ctrlWrite (v : Word) (s : State) : State :=
  if v.getLsbD 31 then resetBlock s else requestStop v (startEngine v (clearFault v s))

/-- A write of `CP`: masked to a multiple of 64; ignored while `RUN` (R27). -/
def cpWrite (v : Word) (s : State) : State := if s.engine = .run then s else { s with cp := v &&& 0xFFFFFFC0 }

/-- A write of the window at a word-aligned offset (R30): read-only registers and reserved offsets ignore it (R43). -/
def windowWrite (off : Nat) (v : Word) (s : State) : State :=
  if off = 0x004 then ctrlWrite v s
  else if off = 0x00C then cpWrite v s
  else if off = 0x010 then { s with flags := writeOneClear 1 s.flags v }
  else if off = 0x014 then { s with inten := v &&& 7 }
  else if off = 0x018 then { s with intstat := writeOneClear 7 s.intstat v }
  else s

/-! ### Host accesses -/

/-- The offset of a host address from `MMIO_BASE` (R30). -/
def windowOffset (s : State) (addr : Word) : Nat := (addr - s.mmioBase).toNat

/-- The host address lies in the 4096-byte window (R30). DESIGN CHOICE for an access that runs over its edge
(notes/assumptions/14.md). -/
def inWindow (s : State) (addr : Word) : Bool := decide (windowOffset s addr < 4096)

/-- The word a host write of exactly four aligned bytes carries, if it is one (R44, R63). -/
def alignedWord (s : State) (addr : Word) (bytes : List Byte) : Option Word :=
  match bytes with
  | [b0, b1, b2, b3] => if windowOffset s addr % 4 = 0 then some (wordOfBytes b0 b1 b2 b3) else none
  | _ => none

/-- A host write into the window: an access that is not an aligned word is ignored in full (R44). -/
def windowStore (addr : Word) (bytes : List Byte) (s : State) : State :=
  match alignedWord s addr bytes with
  | some v => windowWrite (windowOffset s addr) v s
  | none => s

/-- A host read of the window: an access that is not an aligned word returns zero in every byte (R44). -/
def windowLoad (s : State) (addr : Word) (n : Nat) : List Byte :=
  if n = 4 ∧ windowOffset s addr % 4 = 0 then bytesOfWord (windowRead s (windowOffset s addr)) else List.replicate n 0

/-- The cells of a host write to memory; addresses are 32 bits. -/
def hostCells (addr : Word) : List Byte → List Host.Cell
  | [] => []
  | b :: rest => (addr.toNat, b) :: hostCells (addr + 1) rest

/-- The addresses of a host read of memory; addresses are 32 bits. -/
def hostAddrs (addr : Word) (n : Nat) : List Nat := (List.range n).map fun i => (addr + BitVec.ofNat 32 i).toNat

/-- A host write to memory. In `RUN` nothing orders it before the engine's next fetch (R75): its addresses are kept. -/
def hostStore (addr : Word) (bytes : List Byte) (s : State) : State :=
  { s with mem := writeCells s.mem (hostCells addr bytes)
           unordered := if s.engine = .run then ((hostCells addr bytes).map (·.1)).union s.unordered else s.unordered }

/-- Append what a host read returned. -/
def logRead (bytes : List Byte) (s : State) : State := { s with readLog := s.readLog ++ [bytes] }

/-- The reset input (R240): assertion resets the block and so does its release; a release of an input that is not
asserted is nothing. Memory is not touched. DESIGN CHOICE (notes/assumptions/13.md). -/
def driveReset (asserted : Bool) (s : State) : State :=
  if asserted || s.resetPin then { resetBlock s with resetPin := asserted } else s

/-- A host access or a change of the reset input, between two steps of the engine (R20, R35, R47). In the window while
the reset input is asserted it is refused: the window's behaviour is then not defined (R240). -/
def hostAccess (e : HostEvent) (s : State) : Host.Outcome State Fault Refusal :=
  match e with
  | .write addr bytes =>
    if inWindow s addr then
      if s.resetPin then .refused .windowInReset else .next (windowStore addr bytes s)
    else .next (hostStore addr bytes s)
  | .read addr n =>
    if inWindow s addr then
      if s.resetPin then .refused .windowInReset else .next (logRead (windowLoad s addr n) s)
    else .next (logRead ((hostAddrs addr n).map (readByte s.mem)) s)
  | .resetPin asserted => .next (driveReset asserted s)

/-- Host accesses one after the other, none of them inside a command. -/
def hostAccesses : List HostEvent → State → Host.Outcome State Fault Refusal
  | [], s => .next s
  | e :: es, s =>
    match hostAccess e s with
    | .next s' => hostAccesses es s'
    | .fault f => .fault f
    | .refused r => .refused r

/-- The event resets the block: `CTRL.SRESET`, or the reset input asserted (R240, R241). -/
def isResetEvent (s : State) (e : HostEvent) : Bool :=
  match e with
  | .write addr bytes =>
    inWindow s addr && !s.resetPin && decide (windowOffset s addr = 0x004) &&
      (match alignedWord s addr bytes with
       | some v => v.getLsbD 31
       | none => false)
  | .read _ _ => false
  | .resetPin asserted => asserted

/-- The memory writes among host events, each as its cells. -/
def memoryWrites (s : State) (es : List HostEvent) : List (List Host.Cell) :=
  es.filterMap fun e =>
    match e with
    | .write addr bytes => if inWindow s addr then none else some (hostCells addr bytes)
    | .read _ _ => none
    | .resetPin _ => none

end Sys2Proof.Machine
end

