-- ==== Sys2Proof/Machine/Sequencer.lean ====
section
/-! DEFINITION. The sequencer: the command step (R185, R186) and what host events that land inside it do (R35, R78,
R241). A step in which no host event lands is fetch, decode, `exec`; the rest of this file is what a host that does not
keep rule R78, or resets the block in mid-command, can see: free values within the extents the spec names. -/

namespace Sys2Proof.Machine

/-! ### Footprints -/

/-- The footprint of a command: the fault its checks report and its extents (R70, R211). -/
def footprint : Instr → Footprint
  | .endCmd => noFootprint
  | .jump target => jumpFootprint target
  | .nop => noFootprint
  | .bsamp et inp outAddr _ _ => bsampFootprint et inp outAddr
  | .affine et inp out _ _ _ _ _ _ => affineFootprint et inp out
  | .croprs et inp out _ _ cropW cropH => croprsFootprint et inp out cropW cropH
  | .conv2d inp filt out => conv2dFootprint inp filt out
  | .addbias img baddr => addbiasFootprint img baddr
  | .relu inp out => reluFootprint inp out
  | .biasrelu inp baddr out => biasreluFootprint inp baddr out
  | .maxpool2 inp out => maxpool2Footprint inp out
  | .softmax saddr n paddr => softmaxFootprint saddr n paddr
  | .histeq inp out => histeqFootprint inp out
  | .otsu inp raddr => otsuFootprint inp raddr

/-- The extents a command in execution has: none when its checks refuse it (R210). -/
def liveFootprint (fp : Footprint) : Footprint := if fp.cause.isSome then noFootprint else fp

/-- The only flag computed from data is `HISTEQ`'s `DEGEN` (R29, R175). -/
def flagFromData : Instr → Bool
  | .endCmd => false
  | .jump _ => false
  | .nop => false
  | .bsamp _ _ _ _ _ => false
  | .affine _ _ _ _ _ _ _ _ _ => false
  | .croprs _ _ _ _ _ _ _ => false
  | .conv2d _ _ _ => false
  | .addbias _ _ => false
  | .relu _ _ => false
  | .biasrelu _ _ _ => false
  | .maxpool2 _ _ => false
  | .softmax _ _ _ => false
  | .histeq _ _ => true
  | .otsu _ _ => false

/-! ### Host events inside a command -/

/-- A host event while a command with these output extents executes: as between commands, but a read of an output byte
returns an unspecified value (R78). -/
def duringAccess (outs : List Extent) (e : HostEvent) (s : State) : Host.Outcome State Fault Refusal :=
  match e with
  | .read addr n =>
    if inWindow s addr then hostAccess (.read addr n) s
    else .next (drawn (logRead ((hostAddrs addr n).map fun a =>
      if inExtents outs a then Config.freeByte s.draws a else readByte s.mem a) s))
  | .write addr bytes => hostAccess (.write addr bytes) s
  | .resetPin asserted => hostAccess (.resetPin asserted) s

/-- The host events that land inside a command, in order. A reset among them abandons the command (answer `true`): its
output extents become unspecified (R241), and the events from the reset on meet a block without a command.
DEDUCED (notes/assumptions/10.md). -/
def duringAccesses (outs : List Extent) : List HostEvent → State → Host.Outcome (State × Bool) Fault Refusal
  | [], s => .next (s, false)
  | e :: es, s =>
    if isResetEvent s e then
      match hostAccesses (e :: es) (havoc outs s) with
      | .next s' => .next (s', true)
      | .fault f => .fault f
      | .refused r => .refused r
    else
      match duringAccess outs e s with
      | .next s' => duringAccesses outs es s'
      | .fault f => .fault f
      | .refused r => .refused r

/-- A byte the host wrote into an output extent of the command holds either value (R78). -/
def settleByte (outs : List Extent) (s : State) (c : Host.Cell) : State :=
  if inExtents outs c.1 then drawn (if freeBit s.draws then { s with mem := writeByte s.mem c.1 c.2 } else s) else s

/-- A host write into an input extent leaves the output extents unspecified (R78), and `DEGEN` where the command
computes it from its input: set or as it was. -/
def settleInputRace (fp : Footprint) (dataFlag : Bool) (before after : State) : State :=
  let s := havoc fp.outs after
  if dataFlag && after.engine = .run then
    drawn { s with flags := if freeBit s.draws then before.flags ||| 1 else before.flags }
  else s

/-- After a command that raced with host writes to memory (R78). `before` is the state it executed from. DEDUCED
(notes/assumptions/11.md). -/
def settleRaces (fp : Footprint) (dataFlag : Bool) (cells : List Host.Cell) (before after : State) : State :=
  match cells with
  | [] => after
  | c :: cs =>
    (c :: cs).foldl (settleByte fp.outs)
      (if (c :: cs).any (fun c => inExtents fp.ins c.1) then settleInputRace fp dataFlag before after else after)

/-- The rest of a command step after its fetch event: the host events that land inside it, then `act` (the command, or
its fault entry), then what their races leave. DESIGN CHOICE (notes/assumptions/5.md). `early` are the bytes the host wrote
in this step before the fetch event: they count as a race with the command too, whose free values cover both readings of
R78's "in execution". DESIGN CHOICE (notes/assumptions/11.md). -/
def commandRest (fp : Footprint) (dataFlag : Bool) (early : List Host.Cell) (during : List HostEvent)
    (act : State → Host.Outcome State Fault Refusal) (s : State) : Host.Outcome State Fault Refusal :=
  match duringAccesses fp.outs during s with
  | .next (s', true) => .next s'
  | .next (s', false) =>
    match act s' with
    | .next s'' => .next (settleRaces fp dataFlag (early ++ (memoryWrites s during).flatten) s' s'')
    | .fault f => .fault f
    | .refused r => .refused r
  | .fault f => .fault f
  | .refused r => .refused r

/-! ### The command step -/

/-- The word `Wk` a fetch reads. It is a free value where the host wrote it in `RUN` before this step, between steps or
inside an earlier command (R78, R245 H3): DESIGN CHOICE (notes/assumptions/22.md). Where the host writes memory while the
words are read, before the fetch event, it is as memory is after some number of those writes, unspecified for each word
(R64, R80): DEDUCED (notes/assumptions/12.md). Otherwise it is what memory holds (R186 step 2). The draws are those of `t`,
the state after these events. -/
def fetchWord (fetching : List HostEvent) (s t : State) (k : Nat) : Word :=
  if wordUnordered s k then freeWord (t.draws + k) (fetchAddr s.cp k)
  else
    match memoryWrites s fetching with
    | [] => readWord s.mem (fetchAddr s.cp k)
    | ws => readWord (writeCells s.mem (ws.take (Config.freeNat (t.draws + k) % (ws.length + 1))).flatten) (fetchAddr s.cp k)

/-- The descriptor a fetch reads, word by word (R64, R186 step 2). -/
def fetchDesc (fetching : List HostEvent) (s t : State) : Desc := descOfFn (fetchWord fetching s t)

/-- The draws a fetch makes: one a word where the host has written the descriptor in `RUN` before it, or memory while it goes
on in `s`. -/
def fetchDraws (fetching : List HostEvent) (s t : State) : State :=
  if !(List.range 16).any (wordUnordered s) && (memoryWrites s fetching).isEmpty then t else { t with draws := t.draws + 16 }

/-- The command step from its fetch event on (R186 steps 2 to 6): `s` is the state in which the step began, `t` the state
after the host events that land before the fetch event. From the fetch event on, the bytes of the command's output extents
are the engine's. A buffer of the command that the host wrote in `RUN` before this step is read as memory holds it: DESIGN
CHOICE (notes/assumptions/23.md); one it writes in this step before the fetch event is a race (notes/assumptions/11.md). -/
def fetchAndRun (fetching executing : List HostEvent) (s t : State) : Host.Outcome State Fault Refusal :=
  if fetchDenied s then
    commandRest noFootprint false [] executing (fun u => .next (takeFault (.busError s.cp) u)) t
  else
    let d := fetchDesc fetching s t
    let t' := latch d (fetchDraws fetching s t)
    match decode d with
    | .error e => commandRest noFootprint false [] executing (fun u => .next (takeFault (causeOfDecode e) u)) t'
    | .ok i =>
      let fp := liveFootprint (footprint i)
      let early := (memoryWrites s fetching).flatten
      commandRest fp (flagFromData i) early executing (exec i) (ordered fp.outs (early.map (·.1)) t')

/-- The command step of a running engine with no stop request (R186 steps 2 to 6). A reset before the fetch event abandons
it: it has then no descriptor and no output, and makes no further access (R241). -/
def commandStep (fetching executing : List HostEvent) (s : State) : Host.Outcome State Fault Refusal :=
  match duringAccesses [] fetching s with
  | .next (t, true) => hostAccesses executing t
  | .next (t, false) => fetchAndRun fetching executing s t
  | .fault f => .fault f
  | .refused r => .refused r

/-- A stop request honoured, unless a reset has dropped it (R186 step 1, R241). -/
def honourPending (s : State) : State :=
  if s.engine = .run ∧ s.stopReq = true ∧ s.resetPin = false then honourStop s else s

/-- The step of a running engine with a stop request (R186 step 1): one event, after the host events of its move, so that
`INTSTAT.STOPPED` ends set over a host clear of it (R37). DESIGN CHOICE (notes/assumptions/5.md). -/
def stopStep (events : List HostEvent) (s : State) : Host.Outcome State Fault Refusal :=
  match hostAccesses events s with
  | .next t => .next (honourPending t)
  | .fault f => .fault f
  | .refused r => .refused r

/-- The engine's turn (R185, R186): it steps only in `RUN` and out of reset; a stop request is honoured first; else it
executes one command. An engine that takes no step leaves the state to the host's events. -/
def engineStep (fetching executing : List HostEvent) (s : State) : Host.Outcome State Fault Refusal :=
  if s.resetPin = true ∨ s.engine ≠ .run then hostAccesses (fetching ++ executing) s
  else if s.stopReq then stopStep (fetching ++ executing) s
  else commandStep fetching executing s

/-- One step of the whole system: the next move of the schedule, the engine's when there is none (R20, R185). -/
def systemStep (s : State) : Host.Outcome State Fault Refusal :=
  match s.schedule with
  | [] => engineStep [] [] s
  | .host e :: rest => hostAccess e { s with schedule := rest }
  | .engine fetching executing :: rest => engineStep fetching executing { s with schedule := rest }

/-! ### Placing an instruction -/

/-- Take out of the platform's denials those that would deny a word of the fetch at `CP`. -/
def allowFetch (s : State) : State :=
  { s with denied := s.denied.filter fun r =>
      !((List.range 16).any fun k => isDenied { s with denied := [r] } ⟨.fetch, 4, fetchAddr s.cp k⟩) }

/-- The 64 bytes of an instruction stored where the next step fetches, and the engine set to take that step: running,
no stop request, out of reset, no other move pending, the fetch answered, no host write left unordered. -/
def placeInstruction (bytes : List Byte) (s : State) : State :=
  let s := allowFetch s
  { s with mem := writeCells s.mem (cellsFrom s.cp.toNat bytes), engine := .run, stopReq := false, resetPin := false
           schedule := [], unordered := [] }

end Sys2Proof.Machine
end

