-- ==== Sys2Proof/Machine/Step.lean ====
section
/-! DEFINITION. One step of the machine, and the placing of an instruction where that step fetches. -/

namespace Sys2Proof.Machine

/-- One step: the next move of the schedule; the engine's command step when none is pending (R20, R185, R186). -/
def step (s : State) : Host.Outcome State Fault Refusal := systemStep s

/-- The instruction of `nbits` bits `w`, stored where `step` fetches its next instruction, with the engine running
(notes/assumptions/3.md: a program is loaded by the host; this stands for that load and its `CTRL.START`). -/
def State.withFetchWord (s : State) (nbits w : Nat) : State := placeInstruction (tableBytes nbits w) s

end Sys2Proof.Machine
end

