-- ==== Sys2Proof/Safety.lean ====
section
/-! DEFINITION. The terms claims are written in: the invariant of the machine, the conditions the spec puts on a command's
buffers, what a completed and a faulted command leave, and the checks of R203 to R208 as tables over the commands. The
tables and conditions are written from the rules themselves, not from the machine's own checks, so that a claim compares
two readings. -/

namespace Sys2Proof.Safety

open Sys2Proof.Machine

/-! ### The invariant -/

/-- Every listed address is an address of the 2^32-byte space (R60). -/
abbrev InSpace (m : Memory) : Prop := ∀ c ∈ m, c.1 < 2 ^ 32

/-- What every state of a run satisfies: memory is canonical and within the address space (R60); `CP` is a multiple of
64 (R25); the reserved bits of `FLAGS`, `INTEN`, `INTSTAT`, `ERRCODE` are zero (R29, R36, R37, R38); `STOPREQ` is set
only in `RUN` (R33); `FAULTED` has a code (R201); a block held in reset is `IDLE`, the model's choice (R240 gives the
registers' values at the release only; notes/assumptions/13.md); `MMIO_BASE` is a multiple of 4 (R30, the spec's U2). -/
abbrev MachineInv (s : State) : Prop :=
  Memory.wf s.mem = true ∧ InSpace s.mem ∧ s.cp.toNat % 64 = 0 ∧ s.flags.toNat < 2 ∧ s.inten.toNat < 8 ∧
    s.intstat.toNat < 8 ∧ s.errCode.toNat ≤ 8 ∧ (s.stopReq = true → s.engine = .run) ∧
      (s.engine = .faulted → s.errCode ≠ 0) ∧ (s.resetPin = true → s.engine = .idle) ∧ s.mmioBase.toNat % 4 = 0

/-- The next move is a turn of the engine in which no host event lands, and these moves follow it (R20, R185). -/
abbrev QuietTurn (s : State) (rest : List Move) : Prop :=
  (s.schedule = [] ∧ rest = []) ∨ s.schedule = .engine [] [] :: rest

/-- Every word of the descriptor at `CP` is answered when it is fetched (R186 step 2). -/
abbrev FetchAnswered (s : State) : Prop := ∀ k < 16, isDenied s ⟨.fetch, 4, s.cp.toNat + 4 * k⟩ = false

/-- The engine is about to execute a command, with no host event inside it: running, out of reset, no stop request, the
fetch answered (R186 steps 1 and 2). -/
abbrev AtCommand (s : State) (rest : List Move) : Prop :=
  s.engine = .run ∧ s.resetPin = false ∧ s.stopReq = false ∧ QuietTurn s rest ∧ FetchAnswered s

/-! ### Conditions on buffers -/

/-- No dimension of the view is zero (R204). -/
abbrev Nonzero (v : View) : Prop := 0 < v.w ∧ 0 < v.h ∧ 0 < v.d

/-- A binary32 buffer begins at a multiple of 4 (R206). -/
abbrev Aligned (et : ElemType) (base : Word) : Prop := et = .f32 → base.toNat % 4 = 0

/-- `n` elements from `base` end at or below 2^32 (R207). -/
abbrev InRange (et : ElemType) (base : Word) (n : Nat) : Prop := base.toNat + esize et * n ≤ 2 ^ 32

/-- Two byte ranges are disjoint (R71). -/
abbrev Apart (a m b n : Nat) : Prop := m = 0 ∨ n = 0 ∨ a + m ≤ b ∨ b + n ≤ a

/-- The platform answers this access to each of `n` elements from `base` (R5). -/
abbrev Answered (s : State) (kind : AccessKind) (et : ElemType) (base : Word) (n : Nat) : Prop :=
  ∀ k < n, isDenied s ⟨kind, esize et, base.toNat + esize et * k⟩ = false

/-- The number of elements of a view (R66). -/
abbrev count (v : View) : Nat := v.w * v.h * v.d

/-- The linear offset of element `(x, y, c)` (R66). -/
abbrev offset (v : View) (x y c : Nat) : Nat := v.d * (v.w * y + x) + c

/-- The binary32 element at linear offset `i` of a buffer (R67, R69). -/
abbrev word (m : Memory) (base : Word) (i : Nat) : Word := readWord m (base.toNat + 4 * i)

/-- The 8-bit element at linear offset `i` of a buffer (R66). -/
abbrev byte (m : Memory) (base : Word) (i : Nat) : Nat := (readByte m (base.toNat + i)).toNat

/-- Element `i` of a buffer holds the binary32 result `f`: converted to a byte, or unchanged (R12). -/
abbrev Holds (et : ElemType) (m : Memory) (base : Word) (i : Nat) (f : Word) : Prop :=
  match et with
  | .u8 => readByte m (base.toNat + i) = f2u8 f
  | .f32 => readWord m (base.toNat + 4 * i) = f

/-! ### What a command leaves -/

/-- `t` is `s` after a command that completed with no flag: `CP` past its descriptor, `CMDCNT` counted, memory as `t`
has it, and every other register and field unchanged (R186 step 6). -/
abbrev Completed (s t : State) : Prop := t = { s with cp := s.cp + 64, cmdCnt := s.cmdCnt + 1, mem := t.mem }

/-- The same for a command that took a degenerate fallback: `FLAGS.DEGEN` is set as well (R29, R186 step 6). -/
abbrev CompletedDegen (s t : State) : Prop :=
  t = { s with cp := s.cp + 64, cmdCnt := s.cmdCnt + 1, flags := s.flags ||| 1, mem := t.mem }

/-- Every byte outside `size` bytes from `base` reads as before. -/
abbrev SameOutside (s t : State) (base : Word) (size : Nat) : Prop :=
  ∀ a, (a < base.toNat ∨ base.toNat + size ≤ a) → readByte t.mem a = readByte s.mem a

/-- `s` after the fault entry of R212 with this code and information, and nothing else changed. -/
abbrev faulted (code info : Word) (s : State) : State :=
  { s with errCode := code, errInfo := info, errCp := s.cp, engine := .faulted, stopReq := false,
           intstat := s.intstat ||| 2 }

/-! ### The checks, as R203 to R208 table them -/

/-- The dimension fields of each command with their word index (R204). -/
def dimFields : Instr → List (Nat × Nat)
  | .endCmd => []
  | .jump _ => []
  | .nop => []
  | .bsamp _ v _ _ _ => [(2, v.w), (2, v.h), (3, v.d)]
  | .affine _ v o _ _ _ _ _ _ => [(2, v.w), (2, v.h), (3, v.d), (5, o.w), (5, o.h), (6, o.d)]
  | .croprs _ v o _ _ cw ch => [(2, v.w), (2, v.h), (3, v.d), (5, o.w), (5, o.h), (6, o.d), (9, cw), (9, ch)]
  | .conv2d v f o =>
      [(2, v.w), (2, v.h), (3, v.d), (5, o.w), (5, o.h), (6, o.d), (8, f.fw), (8, f.fh), (9, f.ci), (9, f.co)]
  | .addbias v _ => [(2, v.w), (2, v.h), (3, v.d)]
  | .relu v o => [(2, v.w), (2, v.h), (3, v.d), (5, o.w), (5, o.h), (6, o.d)]
  | .biasrelu v _ o => [(2, v.w), (2, v.h), (3, v.d), (5, o.w), (5, o.h), (6, o.d)]
  | .maxpool2 v o => [(2, v.w), (2, v.h), (3, v.d), (5, o.w), (5, o.h), (6, o.d)]
  | .softmax _ _ _ => []
  | .histeq v o => [(2, v.w), (2, v.h), (3, v.d), (5, o.w), (5, o.h), (6, o.d)]
  | .otsu v _ => [(2, v.w), (2, v.h), (3, v.d)]

/-- Word `k` holds a zero dimension field (R204). -/
abbrev ZeroDim (i : Instr) (k : Nat) : Prop := (k, 0) ∈ dimFields i

/-- The width relation of a command that has one fails: sub-code 1 (R205). -/
abbrev widthFails : Instr → Prop
  | .relu v o => o.w ≠ v.w
  | .biasrelu v _ o => o.w ≠ v.w
  | .histeq v o => o.w ≠ v.w
  | .maxpool2 v o => o.w ≠ v.w / 2
  | .conv2d v f o => (o.w : Int) ≠ v.w - f.fw + 1
  | _ => False

/-- The height relation fails: sub-code 2 (R205). -/
abbrev heightFails : Instr → Prop
  | .relu v o => o.h ≠ v.h
  | .biasrelu v _ o => o.h ≠ v.h
  | .histeq v o => o.h ≠ v.h
  | .maxpool2 v o => o.h ≠ v.h / 2
  | .conv2d v f o => (o.h : Int) ≠ v.h - f.fh + 1
  | _ => False

/-- The channel relation fails: sub-code 3 (R205). -/
abbrev channelsFail : Instr → Prop
  | .affine _ v o _ _ _ _ _ _ => o.d ≠ v.d
  | .croprs _ v o _ _ _ _ => o.d ≠ v.d
  | .relu v o => o.d ≠ v.d
  | .biasrelu v _ o => o.d ≠ v.d
  | .maxpool2 v o => o.d ≠ v.d
  | .histeq v o => o.d ≠ v.d
  | _ => False

/-- The filter's channel relations fail: sub-codes 4 and 5 (R205). -/
abbrev filterFails (sub : Nat) : Instr → Prop
  | .conv2d v f o => (sub = 4 ∧ f.ci ≠ v.d) ∨ (sub = 5 ∧ f.co ≠ o.d)
  | _ => False

/-- The single-channel relation fails: sub-code 6 (R205). -/
abbrev grayFails : Instr → Prop
  | .histeq v _ => v.d ≠ 1
  | .otsu v _ => v.d ≠ 1
  | _ => False

/-- The shape relation with this sub-code is one of the command's and fails (R205). -/
abbrev ShapeFails (i : Instr) (sub : Nat) : Prop :=
  (sub = 1 ∧ widthFails i) ∨ (sub = 2 ∧ heightFails i) ∨ (sub = 3 ∧ channelsFail i) ∨ filterFails sub i ∨
    (sub = 6 ∧ grayFails i)

/-- The buffers of each command: id (R201), first byte, size in bytes (R70), and the alignment it needs (R206): 4 for
binary32, 1 for 8-bit elements. -/
def buffers : Instr → List (Nat × Word × Nat × Nat)
  | .endCmd => []
  | .jump _ => []
  | .nop => []
  | .bsamp et v o _ _ => [(0, v.addr, esize et * count v, esize et), (1, o, esize et * v.d, esize et)]
  | .affine et v o _ _ _ _ _ _ => [(0, v.addr, esize et * count v, esize et), (1, o.addr, esize et * count o, esize et)]
  | .croprs et v o _ _ _ _ => [(0, v.addr, esize et * count v, esize et), (1, o.addr, esize et * count o, esize et)]
  | .conv2d v f o =>
      [(0, v.addr, 4 * count v, 4), (1, o.addr, 4 * count o, 4), (2, f.addr, 4 * (f.fh * f.fw * f.ci * f.co), 4)]
  | .addbias v b => [(0, v.addr, 4 * count v, 4), (2, b, 4 * v.d, 4)]
  | .relu v o => [(0, v.addr, 4 * count v, 4), (1, o.addr, 4 * count o, 4)]
  | .biasrelu v b o => [(0, v.addr, 4 * count v, 4), (1, o.addr, 4 * count o, 4), (2, b, 4 * v.d, 4)]
  | .maxpool2 v o => [(0, v.addr, 4 * count v, 4), (1, o.addr, 4 * count o, 4)]
  | .softmax sc n p => [(0, sc, 4 * n, 4), (1, p, 4 * n, 4)]
  | .histeq v o => [(0, v.addr, count v, 1), (1, o.addr, count o, 1)]
  | .otsu v r => [(0, v.addr, count v, 1), (1, r, 1, 1)]

/-- Buffer `id` is misaligned, or it is the `JUMP` target, id 3, and no multiple of 64 (R206). -/
abbrev BadAlign (i : Instr) (id : Nat) : Prop :=
  (∃ b ∈ buffers i, b.1 = id ∧ b.2.1.toNat % b.2.2.2 ≠ 0) ∨
    (match i with
     | .jump target => id = 3 ∧ target.toNat % 64 ≠ 0
     | _ => False)

/-- Buffer `id` ends above 2^32 (R207). -/
abbrev BadRange (i : Instr) (id : Nat) : Prop := ∃ b ∈ buffers i, b.1 = id ∧ 2 ^ 32 < b.2.1.toNat + b.2.2.1

/-- The output buffer of a command by id: `ADDBIAS` writes its image (id 0), the others their second buffer (R208). -/
abbrev outputId : Instr → Nat
  | .addbias _ _ => 0
  | _ => 1

/-- The input buffers its output is checked against, by id (R208). -/
abbrev checkedInputs : Instr → List Nat
  | .endCmd => []
  | .jump _ => []
  | .nop => []
  | .conv2d _ _ _ => [0, 2]
  | .addbias _ _ => [2]
  | .biasrelu v _ o => if o.addr = v.addr then [2] else [0, 2]
  | .bsamp _ _ _ _ _ => [0]
  | .affine _ _ _ _ _ _ _ _ _ => [0]
  | .croprs _ _ _ _ _ _ _ => [0]
  | .relu _ _ => [0]
  | .maxpool2 _ _ => [0]
  | .softmax _ _ _ => [0]
  | .histeq _ _ => [0]
  | .otsu _ _ => [0]

/-- The output overlaps the input with this id, in the words of R71, and the pair is checked (R208). -/
abbrev BadOverlap (i : Instr) (id : Nat) : Prop :=
  id ∈ checkedInputs i ∧ ∃ o ∈ buffers i, ∃ b ∈ buffers i, o.1 = outputId i ∧ b.1 = id ∧
    ¬ Apart o.2.1.toNat o.2.2.1 b.2.1.toNat b.2.2.1

/-- No check of the command fails (R211). -/
abbrev ChecksPass (i : Instr) : Prop :=
  (∀ k, ¬ ZeroDim i k) ∧ (∀ sub, ¬ ShapeFails i sub) ∧ (∀ id, ¬ BadAlign i id) ∧ (∀ id, ¬ BadRange i id) ∧
    ∀ id, ¬ BadOverlap i id

/-- The address lies in an output extent of the command (R61, R70). -/
abbrev InOutput (i : Instr) (a : Nat) : Prop :=
  ∃ o ∈ buffers i, o.1 = outputId i ∧ o.2.1.toNat ≤ a ∧ a < o.2.1.toNat + o.2.2.1

/-- The buffers of which a command reads every element, by id (R61): none for the resampler's commands, which read the
neighbours of their samples, nor for `MAXPOOL2`, which leaves an odd last row or column unread (`SampleRead` has theirs). -/
abbrev readInFull : Instr → List Nat
  | .endCmd => []
  | .jump _ => []
  | .nop => []
  | .bsamp _ _ _ _ _ => []
  | .affine _ _ _ _ _ _ _ _ _ => []
  | .croprs _ _ _ _ _ _ _ => []
  | .conv2d _ _ _ => [0, 2]
  | .addbias _ _ => [0, 2]
  | .relu _ _ => [0]
  | .biasrelu _ _ _ => [0, 2]
  | .maxpool2 _ _ => []
  | .softmax _ _ _ => [0]
  | .histeq _ _ => [0]
  | .otsu _ _ => [0]

/-- The read of a neighbour that a sample at `(sx, sy)` takes into its sum (R121, R122): one of the four, in bounds; an
8-bit one only with a weight that is not zero, since it then adds nothing whatever it holds (R72, R123 b). -/
abbrev NeighbourRead (et : ElemType) (v : View) (sx sy : Word) (x : Access) : Prop :=
  isFinite sx = true ∧ isFinite sy = true ∧ ∃ dx < 2, ∃ dy < 2, ∃ c < v.d, ∃ px < v.w, ∃ py < v.h,
    (px : Int) = floorInt sx + (dx : Nat) ∧ (py : Int) = floorInt sy + (dy : Nat) ∧
    (let fx := fsub sx (ffloor sx)
     let fy := fsub sy (ffloor sy)
     let wx := if dx = 0 then fsub 0x3F800000 fx else fx
     let wy := if dy = 0 then fsub 0x3F800000 fy else fy
     et = .u8 → isZero (fmul wx wy) = false) ∧
    x = ⟨.read, esize et, v.addr.toNat + esize et * offset v px py c⟩

/-- One source coordinate of `AFFINE` (R128): `ta`, `tb` are the row of `theta`, `size` is `IN`'s along the axis. -/
def affineAt (ta tb : Word) (off : Int) (size : Nat) (o : View) (ix iy : Nat) : Word :=
  let xn := fdiv (fadd (i2f ix) 0x3F000000) (i2f o.w)
  let yn := fdiv (fadd (i2f iy) 0x3F000000) (i2f o.h)
  fsub (fmul (fadd (fadd (fmul ta xn) (fmul tb yn)) (fdiv (i2f off) (i2f size))) (i2f size)) 0x3F000000

/-- One source coordinate of `CROPRS` (R131): pixel `b` of a canvas of `size` pixels along the axis. -/
def cropAt (origin : Int) (crop size b : Nat) : Word :=
  fsub (fadd (i2f origin) (fdiv (fmul (fadd (i2f b) 0x3F000000) (i2f crop)) (i2f size))) 0x3F000000

/-- A read that a resampler's command takes into one of its samples (R126, R128, R131), or a read of a pooled element of
`MAXPOOL2` (R61). -/
abbrev SampleRead (i : Instr) (x : Access) : Prop :=
  match i with
  | .bsamp et v _ sx sy => NeighbourRead et v sx sy x
  | .affine et v o offX offY t0 t1 t2 t3 =>
      ∃ ix < o.w, ∃ iy < o.h, NeighbourRead et v (affineAt t0 t1 offX v.w o ix iy) (affineAt t2 t3 offY v.h o ix iy) x
  | .croprs et v o left top cw ch =>
      let dsf := max ((cw + o.w - 1) / o.w) ((ch + o.h - 1) / o.h)
      ∃ bx < o.w * dsf, ∃ bY < o.h * dsf,
        NeighbourRead et v (cropAt left cw (o.w * dsf) bx) (cropAt top ch (o.h * dsf) bY) x
  | .maxpool2 v o => ∃ px < 2 * o.w, ∃ py < 2 * o.h, ∃ c < v.d, x = ⟨.read, 4, v.addr.toNat + 4 * offset v px py c⟩
  | _ => False

/-- An access that every execution of the command makes in this model: the write of an element of its output, the read of
an element of a buffer it reads in full, or a sampled or pooled read. The access is as wide as the element (R64). That all
of R61's accesses are made, whether or not the result depends on them (R72), is the model's reading
(notes/assumptions/8.md). -/
abbrev SureAccess (i : Instr) (x : Access) : Prop :=
  (∃ b ∈ buffers i, ((x.kind = .write ∧ b.1 = outputId i) ∨ (x.kind = .read ∧ b.1 ∈ readInFull i)) ∧
    x.n = b.2.2.2 ∧ ∃ k, k * b.2.2.2 < b.2.2.1 ∧ x.addr = b.2.1.toNat + b.2.2.2 * k) ∨ SampleRead i x

/-- A data access a command may make (R61, R64, R72): the write of an element of its output, or the read of an element of
an input buffer, as wide as the element. `ADDBIAS`'s image is both. -/
abbrev DataAccess (i : Instr) (x : Access) : Prop :=
  ∃ b ∈ buffers i, ((x.kind = .write ∧ b.1 = outputId i) ∨ (x.kind = .read ∧ b.1 ≠ 1)) ∧
    x.n = b.2.2.2 ∧ ∃ k, k * b.2.2.2 < b.2.2.1 ∧ x.addr = b.2.1.toNat + b.2.2.2 * k

/-! ### The window -/

/-- The host's aligned word read at this offset of the window returns the word `v` and changes nothing else (R30). -/
abbrev ReadsAs (s : State) (off : Nat) (v : Word) : Prop :=
  hostAccess (.read (s.mmioBase + BitVec.ofNat 32 off) 4) s = .next { s with readLog := s.readLog ++ [bytesOfWord v] }

/-- The host's aligned write of the word `v` at this offset of the window answers this next state (R30). -/
abbrev WritesTo (s : State) (off : Nat) (v : Word) (t : State) : Prop :=
  hostAccess (.write (s.mmioBase + BitVec.ofNat 32 off) (bytesOfWord v)) s = .next t

/-- `s` with every register of the block at its reset value, R48's table. -/
abbrev registersReset (s : State) : State :=
  { s with d := {}, cp := 0, engine := .idle, stopReq := false, flags := 0, inten := 0, intstat := 0, errCode := 0,
           errCp := 0, errInfo := 0, cmdCnt := 0 }

/-- `s` with the registers reset by this event (R240, R241): the host's write of `CTRL.SRESET`, whatever its other bits,
or the assertion of the reset input, whose level the state keeps (the registers at assertion: notes/assumptions/13.md). -/
abbrev ResetsTo (s : State) (e : HostEvent) (t : State) : Prop :=
  (∃ v : Word, v.getLsbD 31 = true ∧ e = .write (s.mmioBase + 0x004) (bytesOfWord v) ∧ t = registersReset s) ∨
  (e = .resetPin true ∧ t = { registersReset s with resetPin := true })

/-- `u` is what a reset inside a step leaves, after the host events `earlier` of that step: `r`, where the registers are
reset, with the moves that follow; memory, the draws and the model's record of unordered writes are said apart; what the host read before is kept (R241). -/
abbrev ResetLeaves (s r : State) (earlier : List HostEvent) (rest : List Move) (u : State) : Prop :=
  u = { r with schedule := rest, mem := u.mem, draws := u.draws, readLog := u.readLog, unordered := u.unordered } ∧
  ((∀ addr n, .read addr n ∉ earlier) → u.readLog = s.readLog)

/-- Memory as the host's writes among these events leave it (R47). -/
abbrev hostWritten (s : State) (es : List HostEvent) : Memory := writeCells s.mem (memoryWrites s es).flatten

/-- No byte of `n` from this host address lies in the window, and the last is below 2^32 (R30, R47). -/
abbrev HostMemory (s : State) (addr : Word) (n : Nat) : Prop :=
  0 < n ∧ addr.toNat + n ≤ 2 ^ 32 ∧ ∀ k < n, 4096 ≤ (addr + BitVec.ofNat 32 k - s.mmioBase).toNat

/-! ### Descriptors -/

/-- `OPC` of each command, R105's table. -/
def opcodeNumber : Instr → Nat
  | .endCmd => 0x01
  | .jump _ => 0x02
  | .nop => 0x03
  | .bsamp _ _ _ _ _ => 0x10
  | .affine _ _ _ _ _ _ _ _ _ => 0x11
  | .croprs _ _ _ _ _ _ _ => 0x12
  | .conv2d _ _ _ => 0x20
  | .addbias _ _ => 0x30
  | .relu _ _ => 0x31
  | .biasrelu _ _ _ => 0x32
  | .maxpool2 _ _ => 0x40
  | .softmax _ _ _ => 0x50
  | .histeq _ _ => 0x60
  | .otsu _ _ => 0x61

/-- The used bits of each word `W0..W15`, by `OPC`: the opcode table's masks (R103, R106). -/
def usedMasks : List (Nat × List Word) :=
  [
    (0x01, [0xFF, 0, 0, 0, 0, 0, 0, 0, 0, 0, 0, 0, 0, 0, 0, 0]),
    (0x02, [0xFF, 0xFFFFFFFF, 0, 0, 0, 0, 0, 0, 0, 0, 0, 0, 0, 0, 0, 0]),
    (0x03, [0xFF, 0, 0, 0, 0, 0, 0, 0, 0, 0, 0, 0, 0, 0, 0, 0]),
    (0x10, [0x1FF, 0xFFFFFFFF, 0xFFFFFFFF, 0xFFFF, 0xFFFFFFFF, 0, 0, 0xFFFFFFFF, 0xFFFFFFFF, 0, 0, 0, 0, 0, 0, 0]),
    (0x11, [0x1FF, 0xFFFFFFFF, 0xFFFFFFFF, 0xFFFF, 0xFFFFFFFF, 0xFFFFFFFF, 0xFFFF, 0xFFFFFFFF, 0xFFFFFFFF, 0xFFFFFFFF, 0xFFFFFFFF, 0xFFFFFFFF, 0xFFFFFFFF, 0, 0, 0]),
    (0x12, [0x1FF, 0xFFFFFFFF, 0xFFFFFFFF, 0xFFFF, 0xFFFFFFFF, 0xFFFFFFFF, 0xFFFF, 0xFFFFFFFF, 0xFFFFFFFF, 0xFFFFFFFF, 0, 0, 0, 0, 0, 0]),
    (0x20, [0xFF, 0xFFFFFFFF, 0xFFFFFFFF, 0xFFFF, 0xFFFFFFFF, 0xFFFFFFFF, 0xFFFF, 0xFFFFFFFF, 0xFFFFFFFF, 0xFFFFFFFF, 0, 0, 0, 0, 0, 0]),
    (0x30, [0xFF, 0xFFFFFFFF, 0xFFFFFFFF, 0xFFFF, 0, 0, 0, 0xFFFFFFFF, 0, 0, 0, 0, 0, 0, 0, 0]),
    (0x31, [0xFF, 0xFFFFFFFF, 0xFFFFFFFF, 0xFFFF, 0xFFFFFFFF, 0xFFFFFFFF, 0xFFFF, 0, 0, 0, 0, 0, 0, 0, 0, 0]),
    (0x32, [0xFF, 0xFFFFFFFF, 0xFFFFFFFF, 0xFFFF, 0xFFFFFFFF, 0xFFFFFFFF, 0xFFFF, 0xFFFFFFFF, 0, 0, 0, 0, 0, 0, 0, 0]),
    (0x40, [0xFF, 0xFFFFFFFF, 0xFFFFFFFF, 0xFFFF, 0xFFFFFFFF, 0xFFFFFFFF, 0xFFFF, 0, 0, 0, 0, 0, 0, 0, 0, 0]),
    (0x50, [0xFF, 0xFFFFFFFF, 0xFFFFFFFF, 0, 0xFFFFFFFF, 0, 0, 0, 0, 0, 0, 0, 0, 0, 0, 0]),
    (0x60, [0xFF, 0xFFFFFFFF, 0xFFFFFFFF, 0xFFFF, 0xFFFFFFFF, 0xFFFFFFFF, 0xFFFF, 0, 0, 0, 0, 0, 0, 0, 0, 0]),
    (0x61, [0xFF, 0xFFFFFFFF, 0xFFFFFFFF, 0xFFFF, 0xFFFFFFFF, 0, 0, 0, 0, 0, 0, 0, 0, 0, 0, 0]) ]

/-- `d` may be what a fetch at `CP` reads (R90, R186 step 2): every word is memory's, but for those with a byte that the
host wrote in `RUN` and nothing orders before the fetch (R75, R78, R245 H3), which may be any. -/
abbrev MayFetch (s : State) (d : Desc) : Prop :=
  ∀ k < 16, (∀ j < 4, s.cp.toNat + 4 * k + j ∉ s.unordered) → descWord d k = readWord s.mem (s.cp.toNat + 4 * k)

/-- `d` is the descriptor memory holds at `CP`, and no byte of it was written by the host in `RUN` without something that
orders the write before the fetch: a start (R75) or an engine write over it (R74). So the fetch reads `d` (R90, R186
step 2). -/
abbrev FetchedAt (s : State) (d : Desc) : Prop :=
  (∀ k < 64, s.cp.toNat + k ∉ s.unordered) ∧ ∀ k < 16, descWord d k = readWord s.mem (s.cp.toNat + 4 * k)

/-- The host's writes that stay unordered when the command `i` executes: those outside what it writes (R74). -/
abbrev StillUnordered (i : Instr) (s : State) (l : List Nat) : Prop :=
  ∀ a, a ∈ l ↔ a ∈ s.unordered ∧ ¬ (ChecksPass i ∧ InOutput i a)

/-- Word `Wk` has a bit set that the row of the opcode table does not use (R107). -/
abbrev ReservedSet (row : Nat × List Word) (d : Desc) (k : Nat) : Prop := descWord d k &&& ~~~row.2.getD k 0 ≠ 0

/-! ### Rounding -/

/-- The infinity with this sign (R10). -/
abbrev signedInf (neg : Bool) : Word := if neg then 0xFF800000 else 0x7F800000

/-- The zero with this sign (R10). -/
abbrev signedZero (neg : Bool) : Word := if neg then 0x80000000 else 0x00000000

/-- `r` is the binary32 nearest to `num / den` units of 2^-149, an exact tie going to the even significand; it is an
infinity exactly from the midpoint above the largest finite value on (R10). -/
def NearestEven (num : Int) (den : Nat) (r : Word) : Prop :=
  isNaN r = false ∧
  (isInf r = true ↔ (2 ^ 25 - 1) * 2 ^ 252 * (den : Int) ≤ |num|) ∧
  (isInf r = true → (isNeg r = true ↔ num < 0)) ∧
  (isFinite r = true → ∀ c, isFinite c = true →
    |signedUnits r * den - num| ≤ |signedUnits c * den - num| ∧
    (signedUnits c ≠ signedUnits r → |signedUnits r * den - num| = |signedUnits c * den - num| → r.toNat % 2 = 0))

/-! ### Otsu's objective (R178), on the pixels of an image -/

/-- How many pixels have a value of at most `t`: `wB` of candidate `t`. -/
abbrev below (px : List Nat) (t : Nat) : Nat := (px.filter fun v => decide (v ≤ t)).length

/-- `sumB` of candidate `t`. -/
abbrev sumBelow (px : List Nat) (t : Nat) : Nat := (px.filter fun v => decide (v ≤ t)).sum

/-- A candidate the scan evaluates: some pixel is at or below it and some above. -/
abbrev Candidate (px : List Nat) (t : Nat) : Prop := 0 < below px t ∧ below px t < px.length

/-- The numerator of a candidate's objective. -/
abbrev objNum (px : List Nat) (t : Nat) : Int := ((sumBelow px t : Int) * px.length - (px.sum : Int) * below px t) ^ 2

/-- The denominator of a candidate's objective. -/
abbrev objDen (px : List Nat) (t : Nat) : Int := (below px t : Int) * (px.length - below px t : Int)

/-- The objective of `t` is at most that of `u`, compared exactly. -/
abbrev ObjLe (px : List Nat) (t u : Nat) : Prop := objNum px t * objDen px u ≤ objNum px u * objDen px t

end Sys2Proof.Safety
end

