-- ==== Sys2Proof/Certificates/Slice0/Obligations.lean ====
section
/-! DEFINITION. The statements about the machine, for the provers. Each says which rule it formalises; the terms are
those of Sys2Proof/Safety.lean. -/

open Sys2Proof Sys2Proof.Machine Sys2Proof.Safety

/-! ### Descriptors -/

/-- Encoding and then decoding gives every well-formed command back (R91 to R107): no operand bit is dropped. -/
def Obligations.DecodeEncodeRoundTrip : Prop :=
  ∀ i : Instr, i.wf = true → decode (encode i) = .ok i

/-- A descriptor that decodes is the one descriptor of its command (R106, R107): no two descriptors are one command, and
every decoded command is well formed. -/
def Obligations.EncodeDecodeRoundTrip : Prop :=
  ∀ (d : Desc) (i : Instr), decode d = .ok i → encode i = d ∧ i.wf = true

/-- Decoding is total over the opcode table (R106, R107): an assigned opcode whose every bit outside the table's masks is
zero decodes to that row's command; an assigned opcode with such a bit set is refused with the lowest word that has one; any other opcode is
refused with `D[0]`, whatever else the descriptor holds. -/
def Obligations.DecodeFollowsOpcodeTable : Prop :=
  (∀ row ∈ usedMasks, ∀ d : Desc, d.w0.toNat % 256 = row.1 → (∀ k < 16, ¬ ReservedSet row d k) →
    ∃ i, decode d = .ok i ∧ opcodeNumber i = row.1) ∧
  (∀ row ∈ usedMasks, ∀ (d : Desc) (k : Nat), d.w0.toNat % 256 = row.1 → k < 16 → ReservedSet row d k →
    (∀ j < k, ¬ ReservedSet row d j) → decode d = .error (.reservedField k)) ∧
  (∀ d : Desc, (∀ row ∈ usedMasks, d.w0.toNat % 256 ≠ row.1) → decode d = .error (.illegalOpcode d.w0))

/-- A descriptor of each of the fourteen commands, written out in the spec, decodes to the command it stands for: R110,
V-BS8, V-AF2, V-CR7, V-F20, V-F38 (the words, whose check fails only in execution) and programs P1 to P4
(30_encoding.md, 95_test_vectors.md). -/
def Obligations.SpecWordsDecode : Prop :=
  decode { w0 := 0x00000001 } = .ok .endCmd ∧
  decode { w0 := 0x00000002, w1 := 0x000002C0 } = .ok (.jump 0x2C0) ∧
  decode { w0 := 0x00000003 } = .ok .nop ∧
  decode { w0 := 0x00000110, w1 := 0x00001000, w2 := 0x00020002, w3 := 0x00000001, w4 := 0x00002000,
           w7 := 0x3E800000, w8 := 0x3F400000 } =
    .ok (.bsamp .f32 ⟨0x1000, 2, 2, 1⟩ 0x2000 0x3E800000 0x3F400000) ∧
  decode { w0 := 0x00000011, w1 := 0x00001000, w2 := 0x00040004, w3 := 0x00000001, w4 := 0x00002000, w5 := 0x00040004,
           w6 := 0x00000001, w7 := 0x00000004, w9 := 0xBF800000, w12 := 0x3F800000 } =
    .ok (.affine .u8 ⟨0x1000, 4, 4, 1⟩ ⟨0x2000, 4, 4, 1⟩ 4 0 0xBF800000 0 0 0x3F800000) ∧
  decode { w0 := 0x00000112, w1 := 0x00001000, w2 := 0x00040004, w3 := 0x00000001, w4 := 0x00002000, w5 := 0x00010001,
           w6 := 0x00000001, w7 := 0xFFFFFFFF, w8 := 0xFFFFFFFF, w9 := 0x00020002 } =
    .ok (.croprs .f32 ⟨0x1000, 4, 4, 1⟩ ⟨0x2000, 1, 1, 1⟩ (-1) (-1) 2 2) ∧
  decode { w0 := 0x00000020, w1 := 0x00001000, w2 := 0x00030003, w3 := 0x00000001, w4 := 0x00003000, w5 := 0x00020002,
           w6 := 0x00000001, w7 := 0x00002000, w8 := 0x00020002, w9 := 0x00010001 } =
    .ok (.conv2d ⟨0x1000, 3, 3, 1⟩ ⟨0x2000, 2, 2, 1, 1⟩ ⟨0x3000, 2, 2, 1⟩) ∧
  decode { w0 := 0x30, w1 := 0x1000, w2 := 0x20002, w3 := 1, w7 := 0x100C } =
    .ok (.addbias ⟨0x1000, 2, 2, 1⟩ 0x100C) ∧
  decode { w0 := 0x00000031, w1 := 0x00001000, w2 := 0x00020002, w3 := 0x00000001, w4 := 0x00001100, w5 := 0x00020003,
           w6 := 0x00000001 } = .ok (.relu ⟨0x1000, 2, 2, 1⟩ ⟨0x1100, 3, 2, 1⟩) ∧
  decode { w0 := 0x00000032, w1 := 0x00003000, w2 := 0x00030003, w3 := 0x00000002, w4 := 0x00003000, w5 := 0x00030003,
           w6 := 0x00000002, w7 := 0x00002100 } = .ok (.biasrelu ⟨0x3000, 3, 3, 2⟩ 0x2100 ⟨0x3000, 3, 3, 2⟩) ∧
  decode { w0 := 0x40, w1 := 0x1000, w2 := 0x30005, w3 := 1, w4 := 0x2000, w5 := 0x20002, w6 := 1 } =
    .ok (.maxpool2 ⟨0x1000, 5, 3, 1⟩ ⟨0x2000, 2, 2, 1⟩) ∧
  decode { w0 := 0x00000050, w1 := 0x00001000, w2 := 0x00000004, w4 := 0x00001100 } = .ok (.softmax 0x1000 4 0x1100) ∧
  decode { w0 := 0x00000060, w1 := 0x00001000, w2 := 0x00040004, w3 := 0x00000001, w4 := 0x00001300, w5 := 0x00040004,
           w6 := 0x00000001 } = .ok (.histeq ⟨0x1000, 4, 4, 1⟩ ⟨0x1300, 4, 4, 1⟩) ∧
  decode { w0 := 0x00000061, w1 := 0x00001000, w2 := 0x00040004, w3 := 0x00000001, w4 := 0x00001200 } =
    .ok (.otsu ⟨0x1000, 4, 4, 1⟩ 0x1200)

/-! ### The command step -/

/-- A step whose fetched descriptor decodes latches it and is the command's meaning, on the state with the moves that
follow (R186 steps 2 to 6), and what the command writes is the engine's for later fetches (R74, R80). Where the host wrote
the descriptor in `RUN` before the step, every word so written may be any (R245 H3, R78; log entry 22), and the step is
that of the descriptor so read. -/
def Obligations.StepRunsDecodedInstruction : Prop :=
  (∀ (s : State) (rest : List Move) (d : Desc) (i : Instr), AtCommand s rest → FetchedAt s d → decode d = .ok i →
    ∃ l, StillUnordered i s l ∧ step s = exec i { s with d := d, schedule := rest, unordered := l }) ∧
  (∀ (s : State) (rest : List Move), AtCommand s rest → ∃ d n, MayFetch s d ∧
    (∀ i, decode d = .ok i → ∃ l, StillUnordered i s l ∧
      step s = exec i { s with d := d, schedule := rest, unordered := l, draws := n }) ∧
    (∀ err, decode d = .error err →
      step s = .next (takeFault (causeOfDecode err) { s with d := d, schedule := rest, draws := n })))

/-- A step whose descriptor has no assigned opcode takes `ILLEGAL_OPCODE`; no other field is looked at; the latches hold
the descriptor (R202, R108, R212). -/
def Obligations.StepFaultsIllegalOpcode : Prop :=
  ∀ (s : State) (rest : List Move) (d : Desc), AtCommand s rest → FetchedAt s d →
    (∀ row ∈ usedMasks, d.w0.toNat % 256 ≠ row.1) → step s = .next (faulted 1 d.w0 { s with d := d, schedule := rest })

/-- A step whose descriptor has an assigned opcode and a reserved bit set takes `RESERVED_FIELD` with the lowest word
that has one (R203, R107, R212). -/
def Obligations.StepFaultsReservedField : Prop :=
  ∀ (s : State) (rest : List Move) (d : Desc), AtCommand s rest → FetchedAt s d →
    ∀ row ∈ usedMasks, d.w0.toNat % 256 = row.1 →
      ∀ k < 16, ReservedSet row d k → (∀ j < k, ¬ ReservedSet row d j) →
        step s = .next (faulted 2 (BitVec.ofNat 32 k) { s with d := d, schedule := rest })

/-- A fetch of which one word is not answered takes `BUS_ERROR` with `CP`; the latches keep the previous descriptor
(R186 step 2, R24, R209). -/
def Obligations.StepFaultsFetchBusError : Prop :=
  ∀ (s : State) (rest : List Move), s.engine = .run → s.resetPin = false → s.stopReq = false → QuietTurn s rest →
    (∃ k < 16, isDenied s ⟨.fetch, 4, s.cp.toNat + 4 * k⟩ = true) →
      step s = .next (faulted 8 s.cp { s with schedule := rest })

/-- A pending stop request is honoured before any fetch: `STATE` `IDLE`, `STOPREQ` 0, `INTSTAT.STOPPED` 1, everything
else unchanged (R186 step 1). -/
def Obligations.StepHonoursStop : Prop :=
  ∀ (s : State) (rest : List Move), s.engine = .run → s.resetPin = false → s.stopReq = true → QuietTurn s rest →
    step s = .next { s with engine := .idle, stopReq := false, intstat := s.intstat ||| 4, schedule := rest }

/-- The engine's own transitions of `STATE` (R33). It takes steps only in `RUN` and out of reset: otherwise its turn changes
nothing (R185, R240). It leaves `RUN` only, to `IDLE` for an honoured stop or an `END`, to `FAULTED` for a fault; and a step
adds at most one of the events `DONE`, `FAULT`, `STOPPED` (R217). -/
def Obligations.EngineTransitions : Prop :=
  (∀ (s : State) (rest : List Move), QuietTurn s rest → (s.engine ≠ .run ∨ s.resetPin = true) →
    step s = .next { s with schedule := rest }) ∧
  (∀ (s t : State) (rest : List Move), QuietTurn s rest → step s = .next t →
    (t.engine = s.engine ∨ s.engine = .run ∧
      (t.engine = .idle ∧ s.stopReq = true ∧ t.intstat = s.intstat ||| 4 ∨
       t.engine = .idle ∧ s.stopReq = false ∧ t.d = { w0 := 1 } ∧ t.intstat = s.intstat ||| 1 ∨
       t.engine = .faulted ∧ t.intstat = s.intstat ||| 2 ∧ t.errCp = s.cp)) ∧
    (t.intstat = s.intstat ∨ t.intstat = s.intstat ||| 1 ∨ t.intstat = s.intstat ||| 2 ∨ t.intstat = s.intstat ||| 4))

/-! ### Faults -/

/-- `DIM_ZERO` (R204): a command with a zero dimension field reports the lowest word that holds one, takes the fault
entry of R212 and changes nothing else. -/
def Obligations.DimZeroReported : Prop :=
  ∀ (i : Instr) (s : State) (k : Nat), ZeroDim i k → (∀ j < k, ¬ ZeroDim i j) →
    exec i s = .next (faulted 3 (BitVec.ofNat 32 k) s)

/-- `SHAPE` (R205): with no zero dimension, a command reports its lowest failing shape relation. -/
def Obligations.ShapeReported : Prop :=
  ∀ (i : Instr) (s : State) (sub : Nat), (∀ k, ¬ ZeroDim i k) → ShapeFails i sub → (∀ j < sub, ¬ ShapeFails i j) →
    exec i s = .next (faulted 4 (BitVec.ofNat 32 sub) s)

/-- `MISALIGNED` (R206): when the earlier checks pass, a command reports its first misaligned binary32 buffer in id order,
or `JUMP` its target. -/
def Obligations.MisalignedReported : Prop :=
  ∀ (i : Instr) (s : State) (id : Nat), (∀ k, ¬ ZeroDim i k) → (∀ sub, ¬ ShapeFails i sub) →
    BadAlign i id → (∀ j < id, ¬ BadAlign i j) → exec i s = .next (faulted 5 (BitVec.ofNat 32 id) s)

/-- `ADDR_RANGE` (R207): when the earlier checks pass, a command reports its first buffer in id order that ends above
2^32. -/
def Obligations.AddrRangeReported : Prop :=
  ∀ (i : Instr) (s : State) (id : Nat), (∀ k, ¬ ZeroDim i k) → (∀ sub, ¬ ShapeFails i sub) →
    (∀ b, ¬ BadAlign i b) → BadRange i id → (∀ j < id, ¬ BadRange i j) →
      exec i s = .next (faulted 6 (BitVec.ofNat 32 id) s)

/-- `OVERLAP` (R208): when the earlier checks pass, a command reports the first checked input in id order that its output
overlaps. -/
def Obligations.OverlapReported : Prop :=
  ∀ (i : Instr) (s : State) (id : Nat), (∀ k, ¬ ZeroDim i k) → (∀ sub, ¬ ShapeFails i sub) →
    (∀ b, ¬ BadAlign i b) → (∀ b, ¬ BadRange i b) → BadOverlap i id → (∀ j < id, ¬ BadOverlap i j) →
      exec i s = .next (faulted 7 (BitVec.ofNat 32 id) s)

/-- A data `BUS_ERROR` (R209, R210): when the checks pass and an access that every run of the command makes is denied, the
command faults with code 8 and the address of a denied read or write of an element of one of its buffers, as wide as the
element (R64); no byte outside its output extents changes, nor any register the fault entry does not write. Which accesses
every run makes is the model's choice where R72 lets one be left out (log entry 8). -/
def Obligations.DataBusErrorReported : Prop :=
  ∀ (i : Instr) (s : State), Memory.wf s.mem = true → ChecksPass i →
    (∃ x : Access, SureAccess i x ∧ isDenied s x = true) →
      ∃ t a, exec i s = .next t ∧
        t = { faulted 8 (BitVec.ofNat 32 a) s with mem := t.mem, draws := t.draws } ∧
        (∃ x : Access, x.addr = a ∧ DataAccess i x ∧ isDenied s x = true) ∧
        ∀ b, ¬ InOutput i b → readByte t.mem b = readByte s.mem b

/-- Every command answers a next state, and it is a completion or a fault (R26, R41, R212): completed, `CMDCNT` counts
it, `CP` is the target of a `JUMP` and else 64 further, and the error registers stay; faulted, `CP`, `CMDCNT` and `FLAGS`
stay and `ERRCP` is `CP`. Latches, `INTEN` and the platform's parameters never change. -/
def Obligations.CommandCompletesOrFaults : Prop :=
  ∀ (i : Instr) (s : State), ∃ t, exec i s = .next t ∧
    t.d = s.d ∧ t.inten = s.inten ∧ t.mmioBase = s.mmioBase ∧ t.denied = s.denied ∧ t.resetPin = s.resetPin ∧
    t.schedule = s.schedule ∧ t.readLog = s.readLog ∧ t.unordered = s.unordered ∧
    (t.cmdCnt = s.cmdCnt + 1 ∧ t.cp = (match i with | .jump target => target | _ => s.cp + 64) ∧
        t.errCode = s.errCode ∧ t.errCp = s.errCp ∧ t.errInfo = s.errInfo ∧
        (t.flags = s.flags ∨ t.flags = s.flags ||| 1) ∧
        (i = .endCmd ∧ t.engine = .idle ∧ t.stopReq = false ∧ t.intstat = s.intstat ||| 1 ∨
         i ≠ .endCmd ∧ t.engine = s.engine ∧ t.stopReq = s.stopReq ∧ t.intstat = s.intstat) ∨
     t.cmdCnt = s.cmdCnt ∧ t.cp = s.cp ∧ t.flags = s.flags ∧ t.engine = .faulted ∧ t.stopReq = false ∧
        t.intstat = s.intstat ||| 2 ∧ t.errCp = s.cp ∧ 3 ≤ t.errCode.toNat ∧ t.errCode.toNat ≤ 8)

/-- A command writes only its output extents (R61, R72), and a running command that takes one of the faults checked before
execution writes nothing (R210). -/
def Obligations.CommandWritesOnlyItsOutput : Prop :=
  ∀ (i : Instr) (s t : State), Memory.wf s.mem = true → exec i s = .next t →
    (∀ a, ¬ InOutput i a → readByte t.mem a = readByte s.mem a) ∧
    (s.engine = .run → t.engine = .faulted → t.errCode.toNat < 8 → t.mem = s.mem)

/-- Stateless across commands (R2, R23): what a command writes depends on memory, the platform and the free values alone,
on no register. -/
def Obligations.CommandsAreStateless : Prop :=
  ∀ (i : Instr) (s s' t t' : State), s.mem = s'.mem → s.denied = s'.denied → s.draws = s'.draws →
    exec i s = .next t → exec i s' = .next t' → t.mem = t'.mem ∧ t.draws = t'.draws

/-! ### Sequencer commands -/

/-- `NOP` (R187) changes `CP` and `CMDCNT` and nothing else. -/
def Obligations.NopCompletes : Prop :=
  ∀ s : State, exec .nop s = .next { s with cp := s.cp + 64, cmdCnt := s.cmdCnt + 1 }

/-- `END` (R188): `CMDCNT` counts it, `CP` moves past it, `STATE` is `IDLE`, `STOPREQ` 0, `INTSTAT.DONE` 1, and nothing
else changes. -/
def Obligations.EndCompletes : Prop :=
  ∀ s : State, exec .endCmd s =
    .next { s with cp := s.cp + 64, cmdCnt := s.cmdCnt + 1, engine := .idle, stopReq := false,
                   intstat := s.intstat ||| 1 }

/-- `JUMP` (R189): a target that is a multiple of 64 becomes `CP`, `CMDCNT` counts the command, nothing else changes; any
other target is `MISALIGNED(3)` with `CP` left at the `JUMP`. -/
def Obligations.JumpGoesToTarget : Prop :=
  ∀ (target : Word) (s : State),
    (target.toNat % 64 = 0 → exec (.jump target) s = .next { s with cp := target, cmdCnt := s.cmdCnt + 1 }) ∧
    (target.toNat % 64 ≠ 0 → exec (.jump target) s = .next (faulted 5 3 s))

/-! ### Resampler -/

/-- The shared primitive is the pseudocode of R121 over what it names. An element is the converted byte, or the binary32,
at the address of R12; the floor of a finite coordinate is the mathematical one, as an integer and as a binary32, a zero
keeping its sign (R10). The sample has four weights from the fractional parts, and the neighbours in bounds are added in the
order `(x0,y0)`, `(x1,y0)`, `(x0,y1)`, `(x1,y1)` from `+0.0`. -/
def Obligations.BilinearFollowsPseudocode : Prop :=
  (∀ (m : Memory) (v : View) (x y c : Nat),
    pix .u8 m v x y c = i2f ((readByte m (v.addr.toNat + offset v x y c)).toNat : Int) ∧
    pix .f32 m v x y c = readWord m (v.addr.toNat + 4 * offset v x y c)) ∧
  (∀ a : Word, isFinite a = true →
    floorInt a * 2 ^ 149 ≤ signedUnits a ∧ signedUnits a < (floorInt a + 1) * 2 ^ 149 ∧
    isFinite (ffloor a) = true ∧ signedUnits (ffloor a) = floorInt a * 2 ^ 149 ∧ (isZero a = true → ffloor a = a)) ∧
  ∀ (et : ElemType) (m : Memory) (v : View) (sx sy : Word) (c : Nat),
    (isFinite sx = false ∨ isFinite sy = false → bilinear et m v sx sy c = 0) ∧
    (isFinite sx = true → isFinite sy = true →
      let x0 := floorInt sx
      let y0 := floorInt sy
      let fx := fsub sx (ffloor sx)
      let fy := fsub sy (ffloor sy)
      let gx := fsub 0x3F800000 fx
      let gy := fsub 0x3F800000 fy
      let inside := fun x y : Int => decide (0 ≤ x ∧ x < v.w ∧ 0 ≤ y ∧ y < v.h)
      let term := fun (wt : Word) (x y : Int) => fmul wt (pix et m v x.toNat y.toNat c)
      let a0 : Word := 0
      let a1 := if inside x0 y0 then fadd a0 (term (fmul gx gy) x0 y0) else a0
      let a2 := if inside (x0 + 1) y0 then fadd a1 (term (fmul fx gy) (x0 + 1) y0) else a1
      let a3 := if inside x0 (y0 + 1) then fadd a2 (term (fmul gx fy) x0 (y0 + 1)) else a2
      let a4 := if inside (x0 + 1) (y0 + 1) then fadd a3 (term (fmul fx fy) (x0 + 1) (y0 + 1)) else a3
      bilinear et m v sx sy c = a4)

/-- The zero-pad policy (R122, R123 a): a coordinate that is not finite, or whose four neighbours all lie outside the
image, samples `+0.0` for every channel, whatever memory holds. -/
def Obligations.ZeroPadOutsideImage : Prop :=
  ∀ (et : ElemType) (m : Memory) (v : View) (sx sy : Word) (c : Nat),
    (isFinite sx = false ∨ isFinite sy = false ∨ floorInt sx < -1 ∨ (v.w : Int) ≤ floorInt sx ∨ floorInt sy < -1 ∨
      (v.h : Int) ≤ floorInt sy) → bilinear et m v sx sy c = 0x00000000

/-- An integer-aligned sample of finite pixels is the pixel (R123 b); a `-0.0` pixel comes back as `+0.0`. -/
def Obligations.IntegerAlignedSampleIsPixel : Prop :=
  ∀ (et : ElemType) (m : Memory) (v : View) (x y c : Nat), x < v.w → y < v.h → v.w ≤ 2 ^ 16 → v.h ≤ 2 ^ 16 →
    (∀ x' y', x' < v.w → y' < v.h → x ≤ x' → x' ≤ x + 1 → y ≤ y' → y' ≤ y + 1 →
      isFinite (pix et m v x' y' c) = true) →
    bilinear et m v (i2f x) (i2f y) c =
      if pix et m v x y c = 0x80000000 then 0 else pix et m v x y c

/-- `BSAMP` (R126): with its checks passing and its accesses answered it completes, and element `c` of the output is the
bilinear sample of channel `c`, for both element types. -/
def Obligations.BsampCompletes : Prop :=
  ∀ (et : ElemType) (inp : View) (outAddr sx sy : Word) (s : State), Memory.wf s.mem = true → Nonzero inp →
    Aligned et inp.addr → Aligned et outAddr → InRange et inp.addr (count inp) → InRange et outAddr inp.d →
    Apart outAddr.toNat (esize et * inp.d) inp.addr.toNat (esize et * count inp) →
    Answered s .read et inp.addr (count inp) → Answered s .write et outAddr inp.d →
    ∃ t, exec (.bsamp et inp outAddr sx sy) s = .next t ∧ Completed s t ∧
      SameOutside s t outAddr (esize et * inp.d) ∧
      ∀ c < inp.d, Holds et t.mem outAddr c (bilinear et s.mem inp sx sy c)

/-- `AFFINE` (R128): it completes, and every element of the output is the bilinear sample at the coordinate of R128's
pseudocode, each operation rounded in its order. -/
def Obligations.AffineCompletes : Prop :=
  ∀ (et : ElemType) (inp out : View) (offX offY : Int) (t0 t1 t2 t3 : Word) (s : State), Memory.wf s.mem = true →
    Nonzero inp → Nonzero out → inp.d = out.d → Aligned et inp.addr → Aligned et out.addr →
    InRange et inp.addr (count inp) → InRange et out.addr (count out) →
    Apart out.addr.toNat (esize et * count out) inp.addr.toNat (esize et * count inp) →
    Answered s .read et inp.addr (count inp) → Answered s .write et out.addr (count out) →
    ∃ t, exec (.affine et inp out offX offY t0 t1 t2 t3) s = .next t ∧ Completed s t ∧
      SameOutside s t out.addr (esize et * count out) ∧
      ∀ ix < out.w, ∀ iy < out.h, ∀ c < out.d,
        let ox := fdiv (i2f offX) (i2f inp.w)
        let oy := fdiv (i2f offY) (i2f inp.h)
        let xn := fdiv (fadd (i2f ix) 0x3F000000) (i2f out.w)
        let yn := fdiv (fadd (i2f iy) 0x3F000000) (i2f out.h)
        let xs := fadd (fadd (fmul t0 xn) (fmul t1 yn)) ox
        let ys := fadd (fadd (fmul t2 xn) (fmul t3 yn)) oy
        let sx := fsub (fmul xs (i2f inp.w)) 0x3F000000
        let sy := fsub (fmul ys (i2f inp.h)) 0x3F000000
        Holds et t.mem out.addr (offset out ix iy c) (bilinear et s.mem inp sx sy c)

/-- `CROPRS` (R131, R132): it completes, and every element of the output is the sum of `dsf*dsf` samples, `j` outer and
`i` inner, divided once by `dsf*dsf`. -/
def Obligations.CroprsCompletes : Prop :=
  ∀ (et : ElemType) (inp out : View) (left top : Int) (cropW cropH : Nat) (s : State), Memory.wf s.mem = true →
    Nonzero inp → Nonzero out → 0 < cropW → 0 < cropH → inp.d = out.d → Aligned et inp.addr → Aligned et out.addr →
    InRange et inp.addr (count inp) → InRange et out.addr (count out) →
    Apart out.addr.toNat (esize et * count out) inp.addr.toNat (esize et * count inp) →
    Answered s .read et inp.addr (count inp) → Answered s .write et out.addr (count out) →
    ∃ t, exec (.croprs et inp out left top cropW cropH) s = .next t ∧ Completed s t ∧
      SameOutside s t out.addr (esize et * count out) ∧
      ∀ ox < out.w, ∀ oy < out.h, ∀ c < out.d,
        let dsf := max ((cropW + out.w - 1) / out.w) ((cropH + out.h - 1) / out.h)
        let at' := fun (origin : Int) (crop size b : Nat) =>
          fsub (fadd (i2f origin) (fdiv (fmul (fadd (i2f b) 0x3F000000) (i2f crop)) (i2f size))) 0x3F000000
        let acc := (List.range dsf).foldl (fun acc j => (List.range dsf).foldl (fun acc i =>
          fadd acc (bilinear et s.mem inp (at' left cropW (out.w * dsf : Nat) (ox * dsf + i))
            (at' top cropH (out.h * dsf : Nat) (oy * dsf + j)) c)) acc) (0 : Word)
        Holds et t.mem out.addr (offset out ox oy c) (fdiv acc (i2f (dsf * dsf : Nat)))

/-! ### Convolution -/

/-- `CONV2D` (R141, R142, R144): it completes, and every output element is the sum over `fy`, then `fx`, then `ci` of
input times filter, unflipped, from `+0.0`, each product and sum rounded. -/
def Obligations.ConvCompletes : Prop :=
  ∀ (inp : View) (f : Filter) (out : View) (s : State), Memory.wf s.mem = true → Nonzero inp → Nonzero out →
    0 < f.fw → 0 < f.fh → 0 < f.ci → 0 < f.co → (out.w : Int) = inp.w - f.fw + 1 → (out.h : Int) = inp.h - f.fh + 1 →
    f.ci = inp.d → f.co = out.d → Aligned .f32 inp.addr → Aligned .f32 out.addr → Aligned .f32 f.addr →
    InRange .f32 inp.addr (count inp) → InRange .f32 out.addr (count out) →
    InRange .f32 f.addr (f.fh * f.fw * f.ci * f.co) →
    Apart out.addr.toNat (4 * count out) inp.addr.toNat (4 * count inp) →
    Apart out.addr.toNat (4 * count out) f.addr.toNat (4 * (f.fh * f.fw * f.ci * f.co)) →
    Answered s .read .f32 inp.addr (count inp) → Answered s .read .f32 f.addr (f.fh * f.fw * f.ci * f.co) →
    Answered s .write .f32 out.addr (count out) →
    ∃ t, exec (.conv2d inp f out) s = .next t ∧ Completed s t ∧ SameOutside s t out.addr (4 * count out) ∧
      ∀ x < out.w, ∀ y < out.h, ∀ co < out.d,
        word t.mem out.addr (offset out x y co) =
          (List.range f.fh).foldl (fun acc fy => (List.range f.fw).foldl (fun acc fx => (List.range f.ci).foldl
            (fun acc ci => fadd acc (fmul (word s.mem inp.addr (offset inp (x + fx) (y + fy) ci))
              (word s.mem f.addr (((fy * f.fw + fx) * f.ci + ci) * f.co + co)))) acc) acc) (0 : Word)

/-! ### Bias and ReLU -/

/-- `ADDBIAS` (R151): it completes, and every element of the image has the bias of its channel added, in place. -/
def Obligations.AddbiasCompletes : Prop :=
  ∀ (img : View) (baddr : Word) (s : State), Memory.wf s.mem = true → Nonzero img → Aligned .f32 img.addr →
    Aligned .f32 baddr → InRange .f32 img.addr (count img) → InRange .f32 baddr img.d →
    Apart img.addr.toNat (4 * count img) baddr.toNat (4 * img.d) → Answered s .read .f32 img.addr (count img) →
    Answered s .read .f32 baddr img.d → Answered s .write .f32 img.addr (count img) →
    ∃ t, exec (.addbias img baddr) s = .next t ∧ Completed s t ∧ SameOutside s t img.addr (4 * count img) ∧
      ∀ x < img.w, ∀ y < img.h, ∀ c < img.d, word t.mem img.addr (offset img x y c) =
        fadd (word s.mem img.addr (offset img x y c)) (word s.mem baddr c)

/-- `RELU` (R150, R153): it completes, and element `i` of the output is element `i` of the input where that is greater
than zero, bit for bit, and else `+0.0`. -/
def Obligations.ReluCompletes : Prop :=
  ∀ (inp out : View) (s : State), Memory.wf s.mem = true → Nonzero inp → out.w = inp.w → out.h = inp.h →
    out.d = inp.d → Aligned .f32 inp.addr → Aligned .f32 out.addr → InRange .f32 inp.addr (count inp) →
    InRange .f32 out.addr (count inp) → Apart out.addr.toNat (4 * count inp) inp.addr.toNat (4 * count inp) →
    Answered s .read .f32 inp.addr (count inp) → Answered s .write .f32 out.addr (count inp) →
    ∃ t, exec (.relu inp out) s = .next t ∧ Completed s t ∧ SameOutside s t out.addr (4 * count inp) ∧
      ∀ i < count inp, word t.mem out.addr i =
        if fgt (word s.mem inp.addr i) 0x00000000 then word s.mem inp.addr i else 0x00000000

/-- `BIASRELU` (R155): it completes, also with `OUT` at `IN`'s own address, and every output element is `Relu1` of the
rounded sum of input and bias. -/
def Obligations.BiasreluCompletes : Prop :=
  ∀ (inp : View) (baddr : Word) (out : View) (s : State), Memory.wf s.mem = true → Nonzero inp → out.w = inp.w →
    out.h = inp.h → out.d = inp.d → Aligned .f32 inp.addr → Aligned .f32 out.addr → Aligned .f32 baddr →
    InRange .f32 inp.addr (count inp) → InRange .f32 out.addr (count inp) → InRange .f32 baddr inp.d →
    (out.addr = inp.addr ∨ Apart out.addr.toNat (4 * count inp) inp.addr.toNat (4 * count inp)) →
    Apart out.addr.toNat (4 * count inp) baddr.toNat (4 * inp.d) → Answered s .read .f32 inp.addr (count inp) →
    Answered s .read .f32 baddr inp.d → Answered s .write .f32 out.addr (count inp) →
    ∃ t, exec (.biasrelu inp baddr out) s = .next t ∧ Completed s t ∧ SameOutside s t out.addr (4 * count inp) ∧
      ∀ x < inp.w, ∀ y < inp.h, ∀ c < inp.d,
        let sum := fadd (word s.mem inp.addr (offset inp x y c)) (word s.mem baddr c)
        word t.mem out.addr (offset inp x y c) = if fgt sum 0x00000000 then sum else 0x00000000

/-- Equivalence (R156): wherever both are legal, `BIASRELU` leaves in its output exactly what `ADDBIAS` and then `RELU` leave
there, and leaves its input alone, where the pair leaves the sums; with `OUT` at `IN`'s own address it leaves `Relu1` of
what `ADDBIAS` leaves. -/
def Obligations.BiasreluEqualsAddbiasThenRelu : Prop :=
  ∀ (inp : View) (baddr : Word) (out : View) (s t t1 : State), Memory.wf s.mem = true →
    exec (.biasrelu inp baddr out) s = .next t → t.cmdCnt = s.cmdCnt + 1 →
    exec (.addbias inp baddr) s = .next t1 → t1.cmdCnt = s.cmdCnt + 1 →
    (∀ t2 : State, exec (.relu inp out) t1 = .next t2 → t2.cmdCnt = t1.cmdCnt + 1 →
      (∀ i < count inp, word t.mem out.addr i = word t2.mem out.addr i) ∧
      (∀ i < count inp, word t.mem inp.addr i = word s.mem inp.addr i) ∧
      (∀ x < inp.w, ∀ y < inp.h, ∀ c < inp.d, word t2.mem inp.addr (offset inp x y c) =
        fadd (word s.mem inp.addr (offset inp x y c)) (word s.mem baddr c))) ∧
    (out.addr = inp.addr → ∀ i < count inp, word t.mem out.addr i = relu1 (word t1.mem inp.addr i))

/-! ### Pooling -/

/-- `MAXPOOL2` (R161): it completes when the elements it reads are answered, and every output element is the maximum of its
2x2 block in the comparison order of R161, so bit for bit one of the four. -/
def Obligations.MaxpoolCompletes : Prop :=
  ∀ (inp out : View) (s : State), Memory.wf s.mem = true → Nonzero inp → Nonzero out → out.w = inp.w / 2 →
    out.h = inp.h / 2 → out.d = inp.d → Aligned .f32 inp.addr → Aligned .f32 out.addr →
    InRange .f32 inp.addr (count inp) → InRange .f32 out.addr (count out) →
    Apart out.addr.toNat (4 * count out) inp.addr.toNat (4 * count inp) →
    (∀ x < 2 * out.w, ∀ y < 2 * out.h, ∀ c < inp.d,
      isDenied s ⟨.read, 4, inp.addr.toNat + 4 * offset inp x y c⟩ = false) →
    Answered s .write .f32 out.addr (count out) →
    ∃ t, exec (.maxpool2 inp out) s = .next t ∧ Completed s t ∧ SameOutside s t out.addr (4 * count out) ∧
      ∀ ox < out.w, ∀ oy < out.h, ∀ c < out.d,
        let p := fun x y => word s.mem inp.addr (offset inp x y c)
        let m0 := p (2 * ox) (2 * oy)
        let m1 := if fgt (p (2 * ox + 1) (2 * oy)) m0 then p (2 * ox + 1) (2 * oy) else m0
        let m2 := if fgt (p (2 * ox) (2 * oy + 1)) m1 then p (2 * ox) (2 * oy + 1) else m1
        let m3 := if fgt (p (2 * ox + 1) (2 * oy + 1)) m2 then p (2 * ox + 1) (2 * oy + 1) else m2
        word t.mem out.addr (offset out ox oy c) = m3

/-! ### Softmax -/

/-- `SOFTMAX` with `N ≥ 1` (R167): it completes, and probability `i` is the exponential of score `i` less the maximum,
divided by the ascending sum of the exponentials; the maximum is the ascending scan's. -/
def Obligations.SoftmaxCompletes : Prop :=
  ∀ (saddr : Word) (n : Nat) (paddr : Word) (s : State), Memory.wf s.mem = true → 0 < n → Aligned .f32 saddr →
    Aligned .f32 paddr → InRange .f32 saddr n → InRange .f32 paddr n →
    Apart paddr.toNat (4 * n) saddr.toNat (4 * n) → Answered s .read .f32 saddr n → Answered s .write .f32 paddr n →
    ∃ t, exec (.softmax saddr n paddr) s = .next t ∧ Completed s t ∧ SameOutside s t paddr (4 * n) ∧
      (let sc := fun i => word s.mem saddr i
       let mx := ((List.range n).drop 1).foldl (fun m i => if fgt (sc i) m then sc i else m) (sc 0)
       let e := fun i => exp32 (fsub (sc i) mx)
       let total := (List.range n).foldl (fun acc i => fadd acc (e i)) (0 : Word)
       ∀ i < n, word t.mem paddr i = fdiv (e i) total)

/-- Finite scores give probabilities in `[+0.0, 1.0]` (R169 f): none is a NaN, none is below zero or above one, whatever
exponential with the five properties the block has. -/
def Obligations.SoftmaxProbabilitiesInUnitInterval : Prop :=
  ∀ (saddr : Word) (n : Nat) (paddr : Word) (s t : State), Memory.wf s.mem = true → 0 < n →
    (∀ i < n, isFinite (word s.mem saddr i) = true) → exec (.softmax saddr n paddr) s = .next t →
    t.cmdCnt = s.cmdCnt + 1 →
    ∀ i < n, isNaN (word t.mem paddr i) = false ∧ fgt 0x00000000 (word t.mem paddr i) = false ∧
      fgt (word t.mem paddr i) 0x3F800000 = false

/-- `SOFTMAX` with `N = 0` (R168): no fault; it reads no score, writes no byte, sets `FLAGS.DEGEN` and completes, whatever
the platform answers and wherever the vectors lie, if their addresses are aligned. -/
def Obligations.SoftmaxEmptyIsDegenerate : Prop :=
  ∀ (saddr paddr : Word) (s : State), Aligned .f32 saddr → Aligned .f32 paddr →
    exec (.softmax saddr 0 paddr) s =
      .next { s with cp := s.cp + 64, cmdCnt := s.cmdCnt + 1, flags := s.flags ||| 1 }

/-- The exponential has the five properties the block promises of `EXP32` (R166 E1 to E5). -/
def Obligations.ExponentialKeepsItsPromises : Prop :=
  exp32 0x00000000 = 0x3F800000 ∧ exp32 0x80000000 = 0x3F800000 ∧ exp32 0xFF800000 = 0x00000000 ∧
  (∀ x : Word, isNaN x = true → exp32 x = 0x7FC00000) ∧
  (∀ x : Word, isNaN x = false → isNaN (exp32 x) = false ∧ fgt 0x00000000 (exp32 x) = false) ∧
  (∀ x : Word, isNaN x = false → fgt x 0x00000000 = false → fgt (exp32 x) 0x3F800000 = false)

/-! ### Histogram units -/

/-- `HISTEQ` on an image with more than one value (R174): it completes with no flag, and every pixel `v` becomes
`round((cdf[v]-cdf_min)*255/(NP-cdf_min))`, exact halves up; `cdf[v]` counts the pixels not above `v`. -/
def Obligations.HisteqCompletes : Prop :=
  ∀ (inp out : View) (s : State) (vmin : Nat), Memory.wf s.mem = true → Nonzero inp → out.w = inp.w → out.h = inp.h →
    out.d = inp.d → inp.d = 1 → InRange .u8 inp.addr (count inp) → InRange .u8 out.addr (count inp) →
    Apart out.addr.toNat (count inp) inp.addr.toNat (count inp) → Answered s .read .u8 inp.addr (count inp) →
    Answered s .write .u8 out.addr (count inp) →
    (∃ i < count inp, byte s.mem inp.addr i = vmin) → (∀ i < count inp, vmin ≤ byte s.mem inp.addr i) →
    (∃ i < count inp, byte s.mem inp.addr i ≠ vmin) →
    ∃ t, exec (.histeq inp out) s = .next t ∧ Completed s t ∧ SameOutside s t out.addr (count inp) ∧
      (let cdf := fun v => ((List.range (count inp)).filter fun i => decide (byte s.mem inp.addr i ≤ v)).length
       let den := count inp - cdf vmin
       ∀ i < count inp, byte t.mem out.addr i =
         (2 * ((cdf (byte s.mem inp.addr i) - cdf vmin) * 255) + den) / (2 * den))

/-- `HISTEQ` on an image whose pixels all have one value (R175): the output is a copy, `FLAGS.DEGEN` is set, no fault. -/
def Obligations.HisteqConstantIsDegenerate : Prop :=
  ∀ (inp out : View) (s : State) (v : Nat), Memory.wf s.mem = true → Nonzero inp → out.w = inp.w → out.h = inp.h →
    out.d = inp.d → inp.d = 1 → InRange .u8 inp.addr (count inp) → InRange .u8 out.addr (count inp) →
    Apart out.addr.toNat (count inp) inp.addr.toNat (count inp) → Answered s .read .u8 inp.addr (count inp) →
    Answered s .write .u8 out.addr (count inp) → (∀ i < count inp, byte s.mem inp.addr i = v) →
    ∃ t, exec (.histeq inp out) s = .next t ∧ CompletedDegen s t ∧ SameOutside s t out.addr (count inp) ∧
      ∀ i < count inp, byte t.mem out.addr i = byte s.mem inp.addr i

/-- `OTSU` (R178, R179, R180): it completes, writing one byte, the level; where some candidate is evaluated the level is a
candidate no other exceeds, and the highest of those with its objective; where none is, it is 0. -/
def Obligations.OtsuCompletes : Prop :=
  ∀ (inp : View) (raddr : Word) (s : State), Memory.wf s.mem = true → Nonzero inp → inp.d = 1 →
    InRange .u8 inp.addr (count inp) → Apart raddr.toNat 1 inp.addr.toNat (count inp) →
    Answered s .read .u8 inp.addr (count inp) → Answered s .write .u8 raddr 1 →
    ∃ t, exec (.otsu inp raddr) s = .next t ∧ Completed s t ∧ SameOutside s t raddr 1 ∧
      (let px := (List.range (count inp)).map fun i => byte s.mem inp.addr i
       let level := byte t.mem raddr 0
       ((∃ u, Candidate px u) →
         Candidate px level ∧ ∀ u, Candidate px u → ObjLe px u level ∧ (ObjLe px level u → u ≤ level)) ∧
       ((∀ u, ¬ Candidate px u) → level = 0))

/-! ### Binary32 -/

/-- Binary32 arithmetic without NaNs (R10). Finite operands: the exact result rounded to nearest, ties to even, once; an
exact zero sum is `-0.0` only for two negative zeros (R152 b), and a product or quotient has the exclusive-or of the signs,
also when it is a zero; a finite value that is not zero over a zero is an infinity of that sign. Infinite operands: what IEEE
754 gives them (its content is log entry 17). -/
def Obligations.ArithmeticRoundsToNearestEven : Prop :=
  ∀ a b : Word,
    (isFinite a = true → isFinite b = true →
      NearestEven (signedUnits a + signedUnits b) 1 (fadd a b) ∧
      NearestEven (signedUnits a - signedUnits b) 1 (fsub a b) ∧
      NearestEven (signedUnits a * signedUnits b) (2 ^ 149) (fmul a b) ∧
      (isZero b = false → NearestEven (signedUnits a * 2 ^ 149 * (signedUnits b).sign) (unitsOf b) (fdiv a b)) ∧
      (signedUnits a + signedUnits b = 0 → fadd a b = signedZero (isNeg a && isNeg b)) ∧
      (signedUnits a - signedUnits b = 0 → fsub a b = signedZero (isNeg a && !isNeg b)) ∧
      isNeg (fmul a b) = (isNeg a != isNeg b) ∧
      (isZero b = false → isNeg (fdiv a b) = (isNeg a != isNeg b)) ∧
      (isZero a = false → isZero b = true → fdiv a b = signedInf (isNeg a != isNeg b))) ∧
    (isInf a = true → isFinite b = true →
      fadd a b = a ∧ fadd b a = a ∧ fsub a b = a ∧ fsub b a = signedInf (!isNeg a) ∧
      fdiv a b = signedInf (isNeg a != isNeg b) ∧ fdiv b a = signedZero (isNeg a != isNeg b) ∧
      (isZero b = false → fmul a b = signedInf (isNeg a != isNeg b) ∧ fmul b a = signedInf (isNeg a != isNeg b))) ∧
    (isInf a = true → isInf b = true →
      fmul a b = signedInf (isNeg a != isNeg b) ∧ (isNeg a = isNeg b → fadd a b = a) ∧
      (isNeg a ≠ isNeg b → fsub a b = a))

/-- `i2f` (R10): the nearest binary32, ties to even, for every integer below 2^63 in magnitude, and exact up to 2^24. -/
def Obligations.IntegerConversionRounds : Prop :=
  ∀ n : Int, |n| < 2 ^ 63 → NearestEven (n * 2 ^ 149) 1 (i2f n) ∧ (|n| ≤ 2 ^ 24 → signedUnits (i2f n) = n * 2 ^ 149)

/-- Any result that is a NaN is the canonical quiet NaN, and the results IEEE 754 makes NaNs are (R10). -/
def Obligations.NaNResultsAreCanonical : Prop :=
  ∀ a b : Word,
    (isNaN (fadd a b) = true → fadd a b = 0x7FC00000) ∧ (isNaN (fsub a b) = true → fsub a b = 0x7FC00000) ∧
    (isNaN (fmul a b) = true → fmul a b = 0x7FC00000) ∧ (isNaN (fdiv a b) = true → fdiv a b = 0x7FC00000) ∧
    (isNaN (fadd a b) = true ↔ isNaN a = true ∨ isNaN b = true ∨
      (isInf a = true ∧ isInf b = true ∧ isNeg a ≠ isNeg b)) ∧
    (isNaN (fsub a b) = true ↔ isNaN a = true ∨ isNaN b = true ∨
      (isInf a = true ∧ isInf b = true ∧ isNeg a = isNeg b)) ∧
    (isNaN (fmul a b) = true ↔ isNaN a = true ∨ isNaN b = true ∨
      (isInf a = true ∧ isZero b = true) ∨ (isZero a = true ∧ isInf b = true)) ∧
    (isNaN (fdiv a b) = true ↔ isNaN a = true ∨ isNaN b = true ∨
      (isInf a = true ∧ isInf b = true) ∨ (isZero a = true ∧ isZero b = true))

/-- `fgt` (R10) is false with a NaN operand and else compares as real numbers; an infinity lies beyond every finite
value, and the two zeros are equal. -/
def Obligations.GreaterThanComparesReals : Prop :=
  ∀ a b : Word,
    (isNaN a = true ∨ isNaN b = true → fgt a b = false) ∧
    (isFinite a = true → isFinite b = true → (fgt a b = true ↔ signedUnits b < signedUnits a)) ∧
    (isInf a = true → isFinite b = true → (fgt a b = true ↔ isNeg a = false)) ∧
    (isFinite a = true → isInf b = true → (fgt a b = true ↔ isNeg b = true)) ∧
    (isInf a = true → isInf b = true → (fgt a b = true ↔ isNeg a = false ∧ isNeg b = true))

/-- `f2u8` (R11): a NaN and every value not above zero give 0, every value from 255 up gives 255, any other the nearest
integer, a tie going to the even one. -/
def Obligations.FloatToByteRounds : Prop :=
  ∀ v : Word,
    (isNaN v = true → f2u8 v = 0) ∧ (fgt v 0 = false → f2u8 v = 0) ∧
    (isNaN v = false → fgt 0x437F0000 v = false → f2u8 v = 255) ∧
    (fgt v 0 = true → fgt 0x437F0000 v = true → ∀ n : Int,
      |((f2u8 v).toNat : Int) * 2 ^ 149 - signedUnits v| ≤ |n * 2 ^ 149 - signedUnits v| ∧
      (n ≠ (f2u8 v).toNat → |((f2u8 v).toNat : Int) * 2 ^ 149 - signedUnits v| = |n * 2 ^ 149 - signedUnits v| →
        (f2u8 v).toNat % 2 = 0))

/-! ### The invariant -/

/-- The invariant holds after reset (R48); its conjunct on a block held in reset is the model's (log entry 13). -/
def Obligations.ResetSatisfiesInvariant : Prop := MachineInv State.reset

/-- Every step, of the engine or of the host, between commands or inside one, keeps the invariant (R25, R29, R33, R36,
R37, R38, R60). Its conjunct that a block held in reset is `IDLE` is the model's choice (log entry 13): R240 gives the
registers' values at the release of the reset input. -/
def Obligations.StepKeepsInvariant : Prop :=
  ∀ s t : State, MachineInv s → step s = .next t → MachineInv t

/-! ### The host's side -/

/-- A write of `CTRL` (R32): `SRESET` alone resets; otherwise `CLRFAULT` leaves `FAULTED`, `START` runs an idle engine and
drops a stop request, `STOP` requests a stop of a running one, each seeing what the one before left; nothing else
changes, the model's record of unordered writes apart (HostMovesReachMemory has it); a read returns 0. -/
def Obligations.CtrlWriteFollowsItsOrder : Prop :=
  ∀ (s : State) (v : Word), s.resetPin = false →
    ReadsAs s 0x004 0 ∧
    (v.getLsbD 31 = true → WritesTo s 0x004 v (registersReset s)) ∧
    (v.getLsbD 31 = false → ∃ l,
      let idle : Bool := decide (s.engine = .idle) || (decide (s.engine = .faulted) && v.getLsbD 2)
      let runs : Bool := decide (s.engine = .run) || (idle && v.getLsbD 0)
      WritesTo s 0x004 v { s with
        engine := if runs then .run else if idle then .idle else .faulted
        stopReq := if runs && v.getLsbD 1 then true else if idle && v.getLsbD 0 then false else s.stopReq
        unordered := l })

/-- After a hardware reset or a soft reset every piece of state has the value of R48's table, the interrupt line is
deasserted and memory is as it was; neither a block held in reset nor one just out of it takes a step (R48, R240, R242). -/
def Obligations.HardwareResetEqualsSoftReset : Prop :=
  ∀ s : State, s.resetPin = false →
    WritesTo s 0x004 0x80000000 (registersReset s) ∧
    (∃ t, hostAccess (.resetPin true) s = .next t ∧ engineStep [] [] t = .next t ∧
      hostAccess (.resetPin false) t = .next (registersReset s)) ∧
    irq (registersReset s) = false ∧ engineStep [] [] (registersReset s) = .next (registersReset s)

/-- `CP` in the window (R27): a read returns it; a write in `IDLE` or `FAULTED` sets it with bits 5:0 zero; a write in
`RUN` is ignored. -/
def Obligations.CpWindowAccess : Prop :=
  ∀ (s : State) (v : Word), s.resetPin = false →
    ReadsAs s 0x00C s.cp ∧
    (s.engine ≠ .run → WritesTo s 0x00C v { s with cp := BitVec.ofNat 32 (v.toNat / 64 * 64) }) ∧
    (s.engine = .run → WritesTo s 0x00C v s)

/-- `FLAGS` and `INTSTAT` are write-one-to-clear, `INTEN` keeps its low three bits (R29, R36, R37): bit `k` after the write
is as before unless a written 1 cleared it, and no other field changes. -/
def Obligations.FlagAndInterruptWrites : Prop :=
  ∀ (s : State) (v : Word), s.resetPin = false →
    (∃ f, WritesTo s 0x010 v { s with flags := f } ∧
      ∀ k < 32, f.getLsbD k = (s.flags.getLsbD k && !(decide (k < 1) && v.getLsbD k))) ∧
    (∃ f, WritesTo s 0x018 v { s with intstat := f } ∧
      ∀ k < 32, f.getLsbD k = (s.intstat.getLsbD k && !(decide (k < 3) && v.getLsbD k))) ∧
    (∃ f, WritesTo s 0x014 v { s with inten := f } ∧
      ∀ k < 32, f.getLsbD k = (decide (k < 3) && v.getLsbD k))

/-- What the host reads at each word of the window (R30, R31, R33, R42, R43): the registers, `STATUS` with `STATE` in bits
1:0 and `STOPREQ` in bit 2, the latches, and 0 at `CTRL` and at every reserved offset; no read changes a register. -/
def Obligations.WindowReadMap : Prop :=
  ∀ s : State, MachineInv s → s.resetPin = false →
    ReadsAs s 0x000 0x42525301 ∧ ReadsAs s 0x004 0 ∧
    ReadsAs s 0x008 (BitVec.ofNat 32 ((match s.engine with | .idle => 0 | .run => 1 | .faulted => 2) +
      (if s.stopReq then 4 else 0))) ∧
    ReadsAs s 0x00C s.cp ∧ ReadsAs s 0x010 s.flags ∧ ReadsAs s 0x014 s.inten ∧ ReadsAs s 0x018 s.intstat ∧
    ReadsAs s 0x01C s.errCode ∧ ReadsAs s 0x020 s.errCp ∧ ReadsAs s 0x024 s.errInfo ∧ ReadsAs s 0x028 s.cmdCnt ∧
    (∀ k < 16, ReadsAs s (0x040 + 4 * k) (descWord s.d k)) ∧
    (∀ off, off % 4 = 0 → (0x02C ≤ off ∧ off < 0x040) ∨ (0x080 ≤ off ∧ off < 0x1000) → ReadsAs s off 0)

/-- An access within the window that is not an aligned word (R44): a write is ignored in full, a read returns zero in every
byte. -/
def Obligations.OddWindowAccesses : Prop :=
  ∀ (s : State) (addr : Word) (bytes : List Byte) (n : Nat), s.resetPin = false →
    (addr - s.mmioBase).toNat < 4096 →
    ((addr - s.mmioBase).toNat + bytes.length ≤ 4096 → bytes.length ≠ 4 ∨ (addr - s.mmioBase).toNat % 4 ≠ 0 →
      hostAccess (.write addr bytes) s = .next s) ∧
    ((addr - s.mmioBase).toNat + n ≤ 4096 → n ≠ 4 ∨ (addr - s.mmioBase).toNat % 4 ≠ 0 →
      hostAccess (.read addr n) s = .next { s with readLog := s.readLog ++ [List.replicate n 0] })

/-- The read-only registers, `CTRL`'s reserved bits aside, and the reserved offsets ignore writes (R30, R43): no host write
within the window at any other offset than `CTRL`, `CP`, `FLAGS`, `INTEN`, `INTSTAT` changes anything, and no host event but a
reset changes a latch or an error register. -/
def Obligations.HostCannotWriteReadOnly : Prop :=
  (∀ (s : State) (addr : Word) (bytes : List Byte), s.resetPin = false → (addr - s.mmioBase).toNat < 4096 →
    (addr - s.mmioBase).toNat + bytes.length ≤ 4096 →
    (addr - s.mmioBase).toNat ∉ [0x004, 0x00C, 0x010, 0x014, 0x018] → hostAccess (.write addr bytes) s = .next s) ∧
  (∀ (s t : State) (e : HostEvent), hostAccess e s = .next t → isResetEvent s e = false → (∀ b, e ≠ .resetPin b) →
    t.d = s.d ∧ t.errCode = s.errCode ∧ t.errCp = s.errCp ∧ t.errInfo = s.errInfo ∧ t.cmdCnt = s.cmdCnt)

/-- The host's moves and memory (R20, R47, R75, R79). A host move is its event alone. A write outside the window stores its
bytes and changes nothing else but the model's record of the writes made in `RUN`, which a start empties, since it orders
them (log entry 22); a read there returns what memory holds and changes nothing else, and inside a command it does so for
bytes the command does not write. While the reset input is asserted the window refuses every access (R240, U10). That
memory answers the host then, and that an access is the window's by its first byte, are the model's (log entries 13, 14). -/
def Obligations.HostMovesReachMemory : Prop :=
  (∀ (s : State) (e : HostEvent) (rest : List Move), s.schedule = .host e :: rest →
    step s = hostAccess e { s with schedule := rest }) ∧
  (∀ (s : State) (addr : Word) (bytes : List Byte), Memory.wf s.mem = true → HostMemory s addr bytes.length →
    ∃ t, hostAccess (.write addr bytes) s = .next t ∧ t = { s with mem := t.mem, unordered := t.unordered } ∧
      (∀ a, a ∈ t.unordered ↔ a ∈ s.unordered ∨ (s.engine = .run ∧ addr.toNat ≤ a ∧ a < addr.toNat + bytes.length)) ∧
      (∀ k < bytes.length, readByte t.mem (addr.toNat + k) = bytes.getD k 0) ∧ SameOutside s t addr bytes.length) ∧
  (∀ (s : State) (addr : Word) (n : Nat), HostMemory s addr n →
    hostAccess (.read addr n) s =
      .next { s with readLog := s.readLog ++ [(List.range n).map fun k => readByte s.mem (addr.toNat + k)] }) ∧
  (∀ (s : State) (d : Desc) (i : Instr) (addr : Word) (n : Nat) (rest : List Move), s.engine = .run →
    s.resetPin = false → s.stopReq = false → FetchAnswered s → FetchedAt s d → decode d = .ok i →
    s.schedule = .engine [] [.read addr n] :: rest → HostMemory s addr n → (∀ k < n, ¬ InOutput i (addr.toNat + k)) →
    ∃ t, step s = .next t ∧
      t.readLog = s.readLog ++ [(List.range n).map fun k => readByte s.mem (addr.toNat + k)]) ∧
  (∀ (s : State) (addr : Word) (bytes : List Byte) (n : Nat), s.resetPin = true → (addr - s.mmioBase).toNat < 4096 →
    hostAccess (.write addr bytes) s = .refused .windowInReset ∧ hostAccess (.read addr n) s = .refused .windowInReset) ∧
  (∀ (s : State) (v : Word), s.resetPin = false → s.engine = .idle → v.getLsbD 31 = false → v.getLsbD 0 = true →
    ∃ t, WritesTo s 0x004 v t ∧ t.engine = .run ∧ t.unordered = [])

/-- The interrupt line (R216): asserted exactly when some cause is pending and enabled. -/
def Obligations.InterruptLine : Prop :=
  ∀ s : State, irq s = true ↔ ∃ k < 3, s.intstat.getLsbD k = true ∧ s.inten.getLsbD k = true

/-! ### Host events inside a command -/

/-- A bit the engine sets in the step in which the host clears it ends set (R29, R37, R217): `INTSTAT.DONE`, `FAULT` and
`STOPPED`, and `FLAGS.DEGEN`, whatever command sets them. A bit that a step would set where the host does nothing is set
where the host writes the register inside that step; the write comes before the engine's event (log entry 5). -/
def Obligations.EngineSetWinsOverHostClear : Prop :=
  ∀ (s t : State) (v : Word) (rest : List Move), s.engine = .run → s.resetPin = false →
    s.schedule = .engine [] [] :: rest → step s = .next t →
    (s.intstat = 0 → ∀ old : Word, ∃ u,
      step { s with intstat := old, schedule := .engine [] [.write (s.mmioBase + 0x018) (bytesOfWord v)] :: rest } = .next u ∧
      u.cmdCnt = t.cmdCnt ∧ ∀ k, t.intstat.getLsbD k = true → u.intstat.getLsbD k = true) ∧
    (s.flags = 0 → ∀ old : Word, ∃ u,
      step { s with flags := old, schedule := .engine [] [.write (s.mmioBase + 0x010) (bytesOfWord v)] :: rest } = .next u ∧
      u.cmdCnt = t.cmdCnt ∧ ∀ k, t.flags.getLsbD k = true → u.flags.getLsbD k = true)

/-- A reset inside a step, soft or hardware, after whatever other host events of that step (R240, R241): the registers
are at their reset values and the host's later events meet that state. After the fetch event no byte but those the host
wrote changes outside the output extents of the command in execution; a step whose fetch is denied or whose descriptor
does not decode has no output, so nothing else changes at all. Before the fetch event there is no command to abandon and
nothing else changes at all: that is log entry 10's, R241 speaks of the command in execution. R240 gives the registers at
the release of the reset input; that its assertion resets them already is the model's (log entry 13). When in a step a
host event lands is log entry 5's. -/
def Obligations.SoftResetAbandonsCommand : Prop :=
  ∀ (s r : State) (earlier more : List HostEvent) (e : HostEvent) (rest : List Move),
    Memory.wf s.mem = true → s.engine = .run → s.resetPin = false → s.stopReq = false → ResetsTo s e r →
    (∀ x ∈ earlier, isResetEvent s x = false) →
    (s.schedule = .engine [] (earlier ++ e :: more) :: rest →
      (FetchAnswered s → ∃ d, MayFetch s d ∧
        (∀ i, decode d = .ok i → ∃ u, ResetLeaves s r earlier rest u ∧
          (∀ a, ¬ InOutput i a → readByte u.mem a = readByte (hostWritten s earlier) a) ∧ step s = hostAccesses more u) ∧
        (∀ err, decode d = .error err →
          ∃ u, ResetLeaves s r earlier rest u ∧ u.mem = hostWritten s earlier ∧ step s = hostAccesses more u)) ∧
      (¬ FetchAnswered s →
        ∃ u, ResetLeaves s r earlier rest u ∧ u.mem = hostWritten s earlier ∧ step s = hostAccesses more u)) ∧
    (∀ executing, s.schedule = .engine (earlier ++ e :: more) executing :: rest →
      ∃ u, ResetLeaves s r earlier rest u ∧ u.mem = hostWritten s earlier ∧ step s = hostAccesses (more ++ executing) u)

/-- A host that writes one byte of memory while a command executes, after its fetch event, or in its step before that event
and outside its descriptor (R78; that the latter counts as a race is log entry 11's): the step still answers a next state;
whatever the race leaves, no byte outside the command's output extents changes but the one written, and if that one lies
outside them it holds the value written. -/
def Obligations.RacingWriteIsConfined : Prop :=
  ∀ (s : State) (d : Desc) (i : Instr) (addr : Word) (b : Byte) (rest : List Move), Memory.wf s.mem = true →
    s.engine = .run → s.resetPin = false → s.stopReq = false →
    (s.schedule = .engine [] [.write addr [b]] :: rest ∨
      s.schedule = .engine [.write addr [b]] [] :: rest ∧ ∀ k < 64, s.cp.toNat + k ≠ addr.toNat) →
    4096 ≤ (addr - s.mmioBase).toNat →
    FetchAnswered s → FetchedAt s d → decode d = .ok i →
    ∃ t, step s = .next t ∧
      (∀ a, ¬ InOutput i a → a ≠ addr.toNat → readByte t.mem a = readByte s.mem a) ∧
      (¬ InOutput i addr.toNat → readByte t.mem addr.toNat = b)
end

