-- ==== Sys2Proof/Laws/Memory.lean ====
section
/-! SUPPORT. What the memory operations do: a write changes one byte and no other, every operation keeps the canonical
form, and two canonical memories that read alike are equal. -/

namespace Sys2Proof.Laws

open Sys2Proof.Machine

/-- The canonical form, unfolded once at a cons cell. -/
theorem wf_cons (a : Nat) (b : Byte) (m : Memory) :
    Memory.wf ((a, b) :: m) = true ↔ b ≠ defaultByte ∧ (∀ p ∈ m, a < p.1) ∧ Memory.wf m = true := by
  induction m generalizing a b with
  | nil => simp [Memory.wf]
  | cons p m ih =>
    obtain ⟨a', b'⟩ := p
    have h := ih a' b'
    simp only [Memory.wf, Bool.and_eq_true, bne_iff_ne, ne_eq, decide_eq_true_eq, List.mem_cons, forall_eq_or_imp]
    constructor
    · rintro ⟨⟨hb, hlt⟩, hw⟩
      have h' := h.mp hw
      exact ⟨hb, ⟨hlt, fun p hp => lt_trans hlt (h'.2.1 p hp)⟩, hw⟩
    · rintro ⟨hb, ⟨hlt, _⟩, hw⟩
      exact ⟨⟨hb, hlt⟩, hw⟩

/-- Below every listed address memory reads as the default. -/
theorem readByte_of_lt (m : Memory) (a : Nat) (h : ∀ p ∈ m, a < p.1) : readByte m a = defaultByte := by
  cases m with
  | nil => rfl
  | cons p m => simp [readByte, h p (by simp)]

/-- Every listed address after a write was listed before or is the address written. -/
theorem mem_writeByte {m : Memory} {a : Nat} {b : Byte} {p : Host.Cell} (h : p ∈ writeByte m a b) :
    p = (a, b) ∨ p ∈ m := by
  induction m with
  | nil =>
    simp only [writeByte] at h
    split at h <;> simp_all
  | cons q m ih =>
    obtain ⟨k, c⟩ := q
    simp only [writeByte] at h
    split_ifs at h with h1 h2 h3 h4
    · exact .inr h
    · simpa using h
    · exact .inr (List.mem_cons_of_mem _ h)
    · rcases List.mem_cons.mp h with h | h
      · exact .inl h
      · exact .inr (List.mem_cons_of_mem _ h)
    · rcases List.mem_cons.mp h with h | h
      · exact .inr (h ▸ List.mem_cons_self)
      · exact (ih h).imp id (List.mem_cons_of_mem _)

/-- A write keeps the canonical form. -/
theorem wf_writeByte {m : Memory} (a : Nat) (b : Byte) (h : Memory.wf m = true) : Memory.wf (writeByte m a b) = true := by
  induction m with
  | nil =>
    simp only [writeByte]
    split <;> simp_all [Memory.wf]
  | cons q m ih =>
    obtain ⟨k, c⟩ := q
    have hc := (wf_cons k c m).mp h
    simp only [writeByte]
    split_ifs with h1 h2 h3 h4
    · exact h
    · refine (wf_cons _ _ _).mpr ⟨h2, ?_, h⟩
      intro p hp
      rcases List.mem_cons.mp hp with rfl | hp
      · exact h1
      · exact lt_trans h1 (hc.2.1 p hp)
    · exact hc.2.2
    · exact (wf_cons _ _ _).mpr ⟨h4, h3 ▸ hc.2.1, hc.2.2⟩
    · refine (wf_cons _ _ _).mpr ⟨hc.1, ?_, ih hc.2.2⟩
      intro p hp
      rcases mem_writeByte hp with rfl | hp
      · have : k < a := by omega
        exact this
      · exact hc.2.1 p hp

/-- A read after a write of the same address gives the byte written. -/
theorem readByte_writeByte_same {m : Memory} (a : Nat) (b : Byte) (h : Memory.wf m = true) :
    readByte (writeByte m a b) a = b := by
  induction m with
  | nil => by_cases hb : b = defaultByte <;> simp [writeByte, readByte, hb]
  | cons q m ih =>
    obtain ⟨k, c⟩ := q
    have hc := (wf_cons k c m).mp h
    simp only [writeByte]
    split_ifs with h1 h2 h3 h4
    · simp [readByte, h1, h2]
    · simp [readByte]
    · subst h3; rw [h4]; exact readByte_of_lt m a hc.2.1
    · simp [readByte]
    · simp [readByte, h1, h3, ih hc.2.2]

/-- A write leaves every other address alone. -/
theorem readByte_writeByte_other {m : Memory} {a a' : Nat} (b : Byte) (h : Memory.wf m = true) (hne : a' ≠ a) :
    readByte (writeByte m a b) a' = readByte m a' := by
  induction m with
  | nil =>
    by_cases hb : b = defaultByte
    · simp [writeByte, hb]
    · simp [writeByte, readByte, hb, hne]
  | cons q m ih =>
    obtain ⟨k, c⟩ := q
    have hc := (wf_cons k c m).mp h
    simp only [writeByte]
    split_ifs with h1 h2 h3 h4
    · rfl
    · by_cases h' : a' < a
      · have : a' < k := by omega
        simp [readByte, h', this]
      · simp [readByte, h', hne]
    · subst h3
      by_cases h' : a' < a
      · simp only [readByte, h', if_true]
        exact readByte_of_lt m a' fun p hp => lt_trans h' (hc.2.1 p hp)
      · simp [readByte, h', hne]
    · subst h3; simp [readByte, hne]
    · by_cases h' : a' < k
      · simp [readByte, h']
      · by_cases h'' : a' = k
        · simp [readByte, h'']
        · simp [readByte, h', h'', ih hc.2.2]

/-- Two canonical memories that read alike at every address are equal. -/
theorem memory_ext {m m' : Memory} (h : Memory.wf m = true) (h' : Memory.wf m' = true)
    (heq : ∀ a, readByte m a = readByte m' a) : m = m' := by
  induction m generalizing m' with
  | nil =>
    cases m' with
    | nil => rfl
    | cons q m' =>
      obtain ⟨k, c⟩ := q
      have := heq k
      simp [readByte] at this
      exact absurd this.symm ((wf_cons k c m').mp h').1
  | cons p m ih =>
    obtain ⟨a, b⟩ := p
    have hm := (wf_cons a b m).mp h
    cases m' with
    | nil =>
      have := heq a
      simp [readByte] at this
      exact absurd this hm.1
    | cons q m' =>
      obtain ⟨k, c⟩ := q
      have hm' := (wf_cons k c m').mp h'
      have hak : a = k := by
        rcases lt_trichotomy a k with hlt | he | hlt
        · have := heq a; simp [readByte, hlt] at this; exact absurd this hm.1
        · exact he
        · have := heq k; simp [readByte, hlt] at this; exact absurd this.symm hm'.1
      subst hak
      have hbc : b = c := by have := heq a; simpa [readByte] using this
      subst hbc
      congr 1
      refine ih hm.2.2 hm'.2.2 fun x => ?_
      by_cases hx : x ≤ a
      · rw [readByte_of_lt m x fun p hp => lt_of_le_of_lt hx (hm.2.1 p hp),
          readByte_of_lt m' x fun p hp => lt_of_le_of_lt hx (hm'.2.1 p hp)]
      · have := heq x
        simpa [readByte, show ¬ x < a by omega, show x ≠ a by omega] using this

/-! ### Many writes -/

@[simp] theorem writeCells_nil (m : Memory) : writeCells m [] = m := rfl

@[simp] theorem writeCells_cons (m : Memory) (c : Host.Cell) (cs : List Host.Cell) :
    writeCells m (c :: cs) = writeCells (writeByte m c.1 c.2) cs := rfl

theorem writeCells_append (m : Memory) (cs ds : List Host.Cell) :
    writeCells m (cs ++ ds) = writeCells (writeCells m cs) ds := by simp [writeCells]

/-- Stores keep the canonical form. -/
theorem wf_writeCells {m : Memory} (cs : List Host.Cell) (h : Memory.wf m = true) : Memory.wf (writeCells m cs) = true := by
  induction cs generalizing m with
  | nil => exact h
  | cons c cs ih => exact ih (wf_writeByte c.1 c.2 h)

/-- Stores leave every address they do not name alone. -/
theorem readByte_writeCells_other {m : Memory} {cs : List Host.Cell} {a : Nat} (h : Memory.wf m = true)
    (ha : ∀ c ∈ cs, c.1 ≠ a) : readByte (writeCells m cs) a = readByte m a := by
  induction cs generalizing m with
  | nil => rfl
  | cons c cs ih =>
    rw [writeCells_cons, ih (wf_writeByte _ _ h) fun d hd => ha d (List.mem_cons_of_mem _ hd)]
    exact readByte_writeByte_other _ h (ha c (by simp)).symm

/-- After stores to distinct addresses each address reads the byte stored to it. -/
theorem readByte_writeCells_mem {m : Memory} {cs : List Host.Cell} {a : Nat} {b : Byte} (h : Memory.wf m = true)
    (hd : (cs.map Prod.fst).Nodup) (hc : (a, b) ∈ cs) : readByte (writeCells m cs) a = b := by
  induction cs generalizing m with
  | nil => cases hc
  | cons c cs ih =>
    have hnd := List.nodup_cons.mp (show (c.1 :: cs.map Prod.fst).Nodup from hd)
    rw [writeCells_cons]
    rcases List.mem_cons.mp hc with rfl | hc
    · rw [readByte_writeCells_other (wf_writeByte _ _ h), readByte_writeByte_same _ _ h]
      intro d hd' he
      exact hnd.1 (List.mem_map.mpr ⟨d, hd', he⟩)
    · exact ih (wf_writeByte _ _ h) hnd.2 hc

/-- An address listed after stores was listed before or is one of theirs. -/
theorem mem_writeCells {m : Memory} {cs : List Host.Cell} {p : Host.Cell} (h : p ∈ writeCells m cs) : p ∈ cs ∨ p ∈ m := by
  induction cs generalizing m with
  | nil => exact .inr h
  | cons c cs ih =>
    rcases ih h with h | h
    · exact .inl (List.mem_cons_of_mem _ h)
    · rcases mem_writeByte h with rfl | h
      · exact .inl (by simp)
      · exact .inr h

/-! ### Words -/

/-- A word is the word of its bytes (R63). -/
theorem wordOfBytes_extract (v : Word) :
    wordOfBytes (v.extractLsb' 0 8) (v.extractLsb' 8 8) (v.extractLsb' 16 8) (v.extractLsb' 24 8) = v := by
  have h : ∀ i < 32, (wordOfBytes (v.extractLsb' 0 8) (v.extractLsb' 8 8) (v.extractLsb' 16 8)
      (v.extractLsb' 24 8)).getLsbD i = v.getLsbD i := by
    intro i hi
    show BitVec.getLsbD (v.extractLsb' 24 8 ++ v.extractLsb' 16 8 ++ v.extractLsb' 8 8 ++ v.extractLsb' 0 8) i = _
    simp only [BitVec.getLsbD_append, BitVec.getLsbD_extractLsb']
    split_ifs with h0 h1 h2
    · simp [h0]
    · simp [h1, show 8 + (i - 8) = i by omega]
    · simp [h2, show 16 + (i - 8 - 8) = i by omega]
    · simp [show i - 8 - 8 - 8 < 8 by omega, show 24 + (i - 8 - 8 - 8) = i by omega]
  exact BitVec.eq_of_getLsbD_eq h

/-- Reading a word depends on its four bytes alone. -/
theorem readWord_congr {m m' : Memory} {a : Nat} (h : ∀ k < 4, readByte m (a + k) = readByte m' (a + k)) :
    readWord m a = readWord m' a := by
  have h0 := h 0 (by omega); have h1 := h 1 (by omega); have h2 := h 2 (by omega); have h3 := h 3 (by omega)
  simp only [Nat.add_zero] at h0
  simp [readWord, h0, h1, h2, h3]

/-- The cells of a word are its four bytes at consecutive addresses. -/
theorem wordCells_eq (a : Nat) (v : Word) :
    wordCells a v = [(a, v.extractLsb' 0 8), (a + 1, v.extractLsb' 8 8), (a + 2, v.extractLsb' 16 8),
      (a + 3, v.extractLsb' 24 8)] := rfl

end Sys2Proof.Laws
end

