-- ==== Sys2Proof/Laws/Cells.lean ====
section
/-! SUPPORT. What storing a buffer does: each element reads back as stored, every byte outside the buffer is unchanged. -/

namespace Sys2Proof.Laws

open Sys2Proof.Machine

theorem bufferCells_succ (et : ElemType) (base : Word) (n : Nat) (f : Nat → Word) :
    bufferCells et base (n + 1) f = bufferCells et base n f ++ elemCells et base n (f n) := by
  simp [bufferCells, List.range_succ]

/-- The cells of a buffer of `n` elements are its bytes, in order. -/
theorem bufferCells_addrs (et : ElemType) (base : Word) (n : Nat) (f : Nat → Word) :
    (bufferCells et base n f).map Prod.fst = (List.range (esize et * n)).map (base.toNat + ·) := by
  induction n with
  | zero => simp [bufferCells]
  | succ n ih =>
    rw [bufferCells_succ, List.map_append, ih]
    cases et with
    | u8 => simp [elemCells, elemAddr, esize, List.range_succ]
    | f32 =>
      simp [elemCells, elemAddr, esize, wordCells_eq, Nat.mul_succ, List.range_succ, Nat.add_assoc]

theorem bufferCells_nodup (et : ElemType) (base : Word) (n : Nat) (f : Nat → Word) :
    ((bufferCells et base n f).map Prod.fst).Nodup := by
  rw [bufferCells_addrs]
  exact List.nodup_range.map fun a b h => Nat.add_left_cancel h

/-- Every byte a buffer's cells store to lies in the buffer's extent. -/
theorem bufferCells_bound {et : ElemType} {base : Word} {n : Nat} {f : Nat → Word} {c : Host.Cell}
    (h : c ∈ bufferCells et base n f) : base.toNat ≤ c.1 ∧ c.1 < base.toNat + esize et * n := by
  have : c.1 ∈ (bufferCells et base n f).map Prod.fst := List.mem_map_of_mem h
  rw [bufferCells_addrs] at this
  obtain ⟨k, hk, he⟩ := List.mem_map.mp this
  have := List.mem_range.mp hk
  omega

theorem elemCells_mem {et : ElemType} {base : Word} {n i : Nat} {f : Nat → Word} {c : Host.Cell} (hi : i < n)
    (h : c ∈ elemCells et base i (f i)) : c ∈ bufferCells et base n f :=
  List.mem_flatMap.mpr ⟨i, List.mem_range.mpr hi, h⟩

/-- Bytes outside a stored buffer are unchanged. -/
theorem readByte_bufferCells_outside {m : Memory} {et : ElemType} {base : Word} {n : Nat} {f : Nat → Word} {a : Nat}
    (hm : Memory.wf m = true) (h : a < base.toNat ∨ base.toNat + esize et * n ≤ a) :
    readByte (writeCells m (bufferCells et base n f)) a = readByte m a := by
  refine readByte_writeCells_other hm fun c hc he => ?_
  have := bufferCells_bound hc
  omega

/-- Element `i` of a stored binary32 buffer reads back as the word stored. -/
theorem readWord_bufferCells {m : Memory} {base : Word} {n i : Nat} {f : Nat → Word} (hm : Memory.wf m = true)
    (hi : i < n) : readWord (writeCells m (bufferCells .f32 base n f)) (base.toNat + 4 * i) = f i := by
  have key : ∀ c ∈ wordCells (base.toNat + 4 * i) (f i),
      readByte (writeCells m (bufferCells .f32 base n f)) c.1 = c.2 := fun c hc =>
    readByte_writeCells_mem hm (bufferCells_nodup _ _ _ _) (elemCells_mem (et := .f32) hi hc)
  rw [wordCells_eq] at key
  simp only [List.mem_cons, List.not_mem_nil, or_false, forall_eq_or_imp, forall_eq] at key
  simp only [readWord, key, wordOfBytes_extract]

/-- Element `i` of a stored 8-bit buffer reads back as the converted value (R12). -/
theorem readByte_bufferCells {m : Memory} {base : Word} {n i : Nat} {f : Nat → Word} (hm : Memory.wf m = true)
    (hi : i < n) : readByte (writeCells m (bufferCells .u8 base n f)) (base.toNat + i) = f2u8 (f i) := by
  refine readByte_writeCells_mem hm (bufferCells_nodup _ _ _ _) (elemCells_mem (et := .u8) hi ?_)
  simp [elemCells, elemAddr, esize]

/-- The linear offset of an element in range is in range (R12). -/
theorem elemIndex_lt {v : View} {x y c : Nat} (hx : x < v.w) (hy : y < v.h) (hc : c < v.d) :
    elemIndex v x y c < viewCount v := by
  have h1 : v.w * y + x < v.w * v.h := by
    calc v.w * y + x < v.w * y + v.w := by omega
      _ = v.w * (y + 1) := by ring
      _ ≤ v.w * v.h := Nat.mul_le_mul_left _ hy
  calc v.d * (v.w * y + x) + c < v.d * (v.w * y + x) + v.d := by omega
    _ = v.d * (v.w * y + x + 1) := by ring
    _ ≤ v.d * (v.w * v.h) := Nat.mul_le_mul_left _ h1
    _ = v.w * v.h * v.d := by ring

/-- The coordinates recovered from a linear offset are the element's (R12). -/
theorem elemIndex_coords {v : View} {x y c : Nat} (hx : x < v.w) (hc : c < v.d) :
    elemIndex v x y c / v.d % v.w = x ∧ elemIndex v x y c / v.d / v.w = y ∧ elemIndex v x y c % v.d = c := by
  have hd : elemIndex v x y c / v.d = v.w * y + x := by
    rw [elemIndex, Nat.mul_add_div (by omega), Nat.div_eq_of_lt hc, Nat.add_zero]
  have hm : elemIndex v x y c % v.d = c := by rw [elemIndex, Nat.mul_add_mod, Nat.mod_eq_of_lt hc]
  refine ⟨?_, ?_, hm⟩
  · rw [hd, Nat.mul_add_mod, Nat.mod_eq_of_lt hx]
  · rw [hd, Nat.mul_add_div (by omega), Nat.div_eq_of_lt hx, Nat.add_zero]

/-- Element `(x, y, c)` of a stored binary32 view reads back as stored. -/
theorem readWord_viewCells {m : Memory} {v : View} {f : Nat → Nat → Nat → Word} {x y c : Nat} (hm : Memory.wf m = true)
    (hx : x < v.w) (hy : y < v.h) (hc : c < v.d) :
    readWord (writeCells m (viewCells .f32 v f)) (v.addr.toNat + 4 * elemIndex v x y c) = f x y c := by
  rw [viewCells, readWord_bufferCells hm (elemIndex_lt hx hy hc)]
  obtain ⟨h1, h2, h3⟩ := elemIndex_coords (v := v) (y := y) hx hc
  rw [h1, h2, h3]

/-- Element `(x, y, c)` of a stored 8-bit view reads back as the converted value. -/
theorem readByte_viewCells {m : Memory} {v : View} {f : Nat → Nat → Nat → Word} {x y c : Nat} (hm : Memory.wf m = true)
    (hx : x < v.w) (hy : y < v.h) (hc : c < v.d) :
    readByte (writeCells m (viewCells .u8 v f)) (v.addr.toNat + elemIndex v x y c) = f2u8 (f x y c) := by
  rw [viewCells, readByte_bufferCells hm (elemIndex_lt hx hy hc)]
  obtain ⟨h1, h2, h3⟩ := elemIndex_coords (v := v) (y := y) hx hc
  rw [h1, h2, h3]

/-- Bytes outside a stored view are unchanged. -/
theorem readByte_viewCells_outside {m : Memory} {et : ElemType} {v : View} {f : Nat → Nat → Nat → Word} {a : Nat}
    (hm : Memory.wf m = true) (h : a < v.addr.toNat ∨ v.addr.toNat + esize et * viewCount v ≤ a) :
    readByte (writeCells m (viewCells et v f)) a = readByte m a := readByte_bufferCells_outside hm h

end Sys2Proof.Laws
end

