-- ==== Sys2Proof/Laws/State.lean ====
section
/-! SUPPORT. The fields of a state after each of the shared updates, so that no proof unfolds a record update. -/

namespace Sys2Proof.Laws

open Sys2Proof.Machine

/-! ### `drawn` -/

@[simp] theorem drawn_d (s : State) : (drawn s).d = s.d := rfl
@[simp] theorem drawn_cp (s : State) : (drawn s).cp = s.cp := rfl
@[simp] theorem drawn_engine (s : State) : (drawn s).engine = s.engine := rfl
@[simp] theorem drawn_stopReq (s : State) : (drawn s).stopReq = s.stopReq := rfl
@[simp] theorem drawn_flags (s : State) : (drawn s).flags = s.flags := rfl
@[simp] theorem drawn_inten (s : State) : (drawn s).inten = s.inten := rfl
@[simp] theorem drawn_intstat (s : State) : (drawn s).intstat = s.intstat := rfl
@[simp] theorem drawn_errCode (s : State) : (drawn s).errCode = s.errCode := rfl
@[simp] theorem drawn_errCp (s : State) : (drawn s).errCp = s.errCp := rfl
@[simp] theorem drawn_errInfo (s : State) : (drawn s).errInfo = s.errInfo := rfl
@[simp] theorem drawn_cmdCnt (s : State) : (drawn s).cmdCnt = s.cmdCnt := rfl
@[simp] theorem drawn_mem (s : State) : (drawn s).mem = s.mem := rfl
@[simp] theorem drawn_mmioBase (s : State) : (drawn s).mmioBase = s.mmioBase := rfl
@[simp] theorem drawn_denied (s : State) : (drawn s).denied = s.denied := rfl
@[simp] theorem drawn_resetPin (s : State) : (drawn s).resetPin = s.resetPin := rfl
@[simp] theorem drawn_schedule (s : State) : (drawn s).schedule = s.schedule := rfl
@[simp] theorem drawn_readLog (s : State) : (drawn s).readLog = s.readLog := rfl
@[simp] theorem drawn_unordered (s : State) : (drawn s).unordered = s.unordered := rfl
@[simp] theorem drawn_draws (s : State) : (drawn s).draws = s.draws + 1 := rfl

/-! ### `latch` -/

@[simp] theorem latch_d (x : Desc) (s : State) : (latch x s).d = x := rfl
@[simp] theorem latch_cp (x : Desc) (s : State) : (latch x s).cp = s.cp := rfl
@[simp] theorem latch_engine (x : Desc) (s : State) : (latch x s).engine = s.engine := rfl
@[simp] theorem latch_stopReq (x : Desc) (s : State) : (latch x s).stopReq = s.stopReq := rfl
@[simp] theorem latch_flags (x : Desc) (s : State) : (latch x s).flags = s.flags := rfl
@[simp] theorem latch_inten (x : Desc) (s : State) : (latch x s).inten = s.inten := rfl
@[simp] theorem latch_intstat (x : Desc) (s : State) : (latch x s).intstat = s.intstat := rfl
@[simp] theorem latch_errCode (x : Desc) (s : State) : (latch x s).errCode = s.errCode := rfl
@[simp] theorem latch_errCp (x : Desc) (s : State) : (latch x s).errCp = s.errCp := rfl
@[simp] theorem latch_errInfo (x : Desc) (s : State) : (latch x s).errInfo = s.errInfo := rfl
@[simp] theorem latch_cmdCnt (x : Desc) (s : State) : (latch x s).cmdCnt = s.cmdCnt := rfl
@[simp] theorem latch_mem (x : Desc) (s : State) : (latch x s).mem = s.mem := rfl
@[simp] theorem latch_mmioBase (x : Desc) (s : State) : (latch x s).mmioBase = s.mmioBase := rfl
@[simp] theorem latch_denied (x : Desc) (s : State) : (latch x s).denied = s.denied := rfl
@[simp] theorem latch_resetPin (x : Desc) (s : State) : (latch x s).resetPin = s.resetPin := rfl
@[simp] theorem latch_schedule (x : Desc) (s : State) : (latch x s).schedule = s.schedule := rfl
@[simp] theorem latch_readLog (x : Desc) (s : State) : (latch x s).readLog = s.readLog := rfl
@[simp] theorem latch_unordered (x : Desc) (s : State) : (latch x s).unordered = s.unordered := rfl
@[simp] theorem latch_draws (x : Desc) (s : State) : (latch x s).draws = s.draws := rfl

/-! ### `complete` -/

@[simp] theorem complete_d (next : Word) (s : State) : (complete next s).d = s.d := rfl
@[simp] theorem complete_cp (next : Word) (s : State) : (complete next s).cp = next := rfl
@[simp] theorem complete_engine (next : Word) (s : State) : (complete next s).engine = s.engine := rfl
@[simp] theorem complete_stopReq (next : Word) (s : State) : (complete next s).stopReq = s.stopReq := rfl
@[simp] theorem complete_flags (next : Word) (s : State) : (complete next s).flags = s.flags := rfl
@[simp] theorem complete_inten (next : Word) (s : State) : (complete next s).inten = s.inten := rfl
@[simp] theorem complete_intstat (next : Word) (s : State) : (complete next s).intstat = s.intstat := rfl
@[simp] theorem complete_errCode (next : Word) (s : State) : (complete next s).errCode = s.errCode := rfl
@[simp] theorem complete_errCp (next : Word) (s : State) : (complete next s).errCp = s.errCp := rfl
@[simp] theorem complete_errInfo (next : Word) (s : State) : (complete next s).errInfo = s.errInfo := rfl
@[simp] theorem complete_cmdCnt (next : Word) (s : State) : (complete next s).cmdCnt = s.cmdCnt + 1 := rfl
@[simp] theorem complete_mem (next : Word) (s : State) : (complete next s).mem = s.mem := rfl
@[simp] theorem complete_mmioBase (next : Word) (s : State) : (complete next s).mmioBase = s.mmioBase := rfl
@[simp] theorem complete_denied (next : Word) (s : State) : (complete next s).denied = s.denied := rfl
@[simp] theorem complete_resetPin (next : Word) (s : State) : (complete next s).resetPin = s.resetPin := rfl
@[simp] theorem complete_schedule (next : Word) (s : State) : (complete next s).schedule = s.schedule := rfl
@[simp] theorem complete_readLog (next : Word) (s : State) : (complete next s).readLog = s.readLog := rfl
@[simp] theorem complete_unordered (next : Word) (s : State) : (complete next s).unordered = s.unordered := rfl
@[simp] theorem complete_draws (next : Word) (s : State) : (complete next s).draws = s.draws := rfl

/-! ### `endRun` -/

@[simp] theorem endRun_d (s : State) : (endRun s).d = s.d := rfl
@[simp] theorem endRun_cp (s : State) : (endRun s).cp = s.cp := rfl
@[simp] theorem endRun_engine (s : State) : (endRun s).engine = .idle := rfl
@[simp] theorem endRun_stopReq (s : State) : (endRun s).stopReq = false := rfl
@[simp] theorem endRun_flags (s : State) : (endRun s).flags = s.flags := rfl
@[simp] theorem endRun_inten (s : State) : (endRun s).inten = s.inten := rfl
@[simp] theorem endRun_intstat (s : State) : (endRun s).intstat = s.intstat ||| 1 := rfl
@[simp] theorem endRun_errCode (s : State) : (endRun s).errCode = s.errCode := rfl
@[simp] theorem endRun_errCp (s : State) : (endRun s).errCp = s.errCp := rfl
@[simp] theorem endRun_errInfo (s : State) : (endRun s).errInfo = s.errInfo := rfl
@[simp] theorem endRun_cmdCnt (s : State) : (endRun s).cmdCnt = s.cmdCnt := rfl
@[simp] theorem endRun_mem (s : State) : (endRun s).mem = s.mem := rfl
@[simp] theorem endRun_mmioBase (s : State) : (endRun s).mmioBase = s.mmioBase := rfl
@[simp] theorem endRun_denied (s : State) : (endRun s).denied = s.denied := rfl
@[simp] theorem endRun_resetPin (s : State) : (endRun s).resetPin = s.resetPin := rfl
@[simp] theorem endRun_schedule (s : State) : (endRun s).schedule = s.schedule := rfl
@[simp] theorem endRun_readLog (s : State) : (endRun s).readLog = s.readLog := rfl
@[simp] theorem endRun_unordered (s : State) : (endRun s).unordered = s.unordered := rfl
@[simp] theorem endRun_draws (s : State) : (endRun s).draws = s.draws := rfl

/-! ### `honourStop` -/

@[simp] theorem honourStop_d (s : State) : (honourStop s).d = s.d := rfl
@[simp] theorem honourStop_cp (s : State) : (honourStop s).cp = s.cp := rfl
@[simp] theorem honourStop_engine (s : State) : (honourStop s).engine = .idle := rfl
@[simp] theorem honourStop_stopReq (s : State) : (honourStop s).stopReq = false := rfl
@[simp] theorem honourStop_flags (s : State) : (honourStop s).flags = s.flags := rfl
@[simp] theorem honourStop_inten (s : State) : (honourStop s).inten = s.inten := rfl
@[simp] theorem honourStop_intstat (s : State) : (honourStop s).intstat = s.intstat ||| 4 := rfl
@[simp] theorem honourStop_errCode (s : State) : (honourStop s).errCode = s.errCode := rfl
@[simp] theorem honourStop_errCp (s : State) : (honourStop s).errCp = s.errCp := rfl
@[simp] theorem honourStop_errInfo (s : State) : (honourStop s).errInfo = s.errInfo := rfl
@[simp] theorem honourStop_cmdCnt (s : State) : (honourStop s).cmdCnt = s.cmdCnt := rfl
@[simp] theorem honourStop_mem (s : State) : (honourStop s).mem = s.mem := rfl
@[simp] theorem honourStop_mmioBase (s : State) : (honourStop s).mmioBase = s.mmioBase := rfl
@[simp] theorem honourStop_denied (s : State) : (honourStop s).denied = s.denied := rfl
@[simp] theorem honourStop_resetPin (s : State) : (honourStop s).resetPin = s.resetPin := rfl
@[simp] theorem honourStop_schedule (s : State) : (honourStop s).schedule = s.schedule := rfl
@[simp] theorem honourStop_readLog (s : State) : (honourStop s).readLog = s.readLog := rfl
@[simp] theorem honourStop_unordered (s : State) : (honourStop s).unordered = s.unordered := rfl
@[simp] theorem honourStop_draws (s : State) : (honourStop s).draws = s.draws := rfl

/-! ### `takeFault` -/

@[simp] theorem takeFault_d (c : Cause) (s : State) : (takeFault c s).d = s.d := rfl
@[simp] theorem takeFault_cp (c : Cause) (s : State) : (takeFault c s).cp = s.cp := rfl
@[simp] theorem takeFault_engine (c : Cause) (s : State) : (takeFault c s).engine = .faulted := rfl
@[simp] theorem takeFault_stopReq (c : Cause) (s : State) : (takeFault c s).stopReq = false := rfl
@[simp] theorem takeFault_flags (c : Cause) (s : State) : (takeFault c s).flags = s.flags := rfl
@[simp] theorem takeFault_inten (c : Cause) (s : State) : (takeFault c s).inten = s.inten := rfl
@[simp] theorem takeFault_intstat (c : Cause) (s : State) : (takeFault c s).intstat = s.intstat ||| 2 := rfl
@[simp] theorem takeFault_errCode (c : Cause) (s : State) : (takeFault c s).errCode = errCodeOf c := rfl
@[simp] theorem takeFault_errCp (c : Cause) (s : State) : (takeFault c s).errCp = s.cp := rfl
@[simp] theorem takeFault_errInfo (c : Cause) (s : State) : (takeFault c s).errInfo = errInfoOf c := rfl
@[simp] theorem takeFault_cmdCnt (c : Cause) (s : State) : (takeFault c s).cmdCnt = s.cmdCnt := rfl
@[simp] theorem takeFault_mem (c : Cause) (s : State) : (takeFault c s).mem = s.mem := rfl
@[simp] theorem takeFault_mmioBase (c : Cause) (s : State) : (takeFault c s).mmioBase = s.mmioBase := rfl
@[simp] theorem takeFault_denied (c : Cause) (s : State) : (takeFault c s).denied = s.denied := rfl
@[simp] theorem takeFault_resetPin (c : Cause) (s : State) : (takeFault c s).resetPin = s.resetPin := rfl
@[simp] theorem takeFault_schedule (c : Cause) (s : State) : (takeFault c s).schedule = s.schedule := rfl
@[simp] theorem takeFault_readLog (c : Cause) (s : State) : (takeFault c s).readLog = s.readLog := rfl
@[simp] theorem takeFault_unordered (c : Cause) (s : State) : (takeFault c s).unordered = s.unordered := rfl
@[simp] theorem takeFault_draws (c : Cause) (s : State) : (takeFault c s).draws = s.draws := rfl

/-! ### `logRead` -/

@[simp] theorem logRead_d (bytes : List Byte) (s : State) : (logRead bytes s).d = s.d := rfl
@[simp] theorem logRead_cp (bytes : List Byte) (s : State) : (logRead bytes s).cp = s.cp := rfl
@[simp] theorem logRead_engine (bytes : List Byte) (s : State) : (logRead bytes s).engine = s.engine := rfl
@[simp] theorem logRead_stopReq (bytes : List Byte) (s : State) : (logRead bytes s).stopReq = s.stopReq := rfl
@[simp] theorem logRead_flags (bytes : List Byte) (s : State) : (logRead bytes s).flags = s.flags := rfl
@[simp] theorem logRead_inten (bytes : List Byte) (s : State) : (logRead bytes s).inten = s.inten := rfl
@[simp] theorem logRead_intstat (bytes : List Byte) (s : State) : (logRead bytes s).intstat = s.intstat := rfl
@[simp] theorem logRead_errCode (bytes : List Byte) (s : State) : (logRead bytes s).errCode = s.errCode := rfl
@[simp] theorem logRead_errCp (bytes : List Byte) (s : State) : (logRead bytes s).errCp = s.errCp := rfl
@[simp] theorem logRead_errInfo (bytes : List Byte) (s : State) : (logRead bytes s).errInfo = s.errInfo := rfl
@[simp] theorem logRead_cmdCnt (bytes : List Byte) (s : State) : (logRead bytes s).cmdCnt = s.cmdCnt := rfl
@[simp] theorem logRead_mem (bytes : List Byte) (s : State) : (logRead bytes s).mem = s.mem := rfl
@[simp] theorem logRead_mmioBase (bytes : List Byte) (s : State) : (logRead bytes s).mmioBase = s.mmioBase := rfl
@[simp] theorem logRead_denied (bytes : List Byte) (s : State) : (logRead bytes s).denied = s.denied := rfl
@[simp] theorem logRead_resetPin (bytes : List Byte) (s : State) : (logRead bytes s).resetPin = s.resetPin := rfl
@[simp] theorem logRead_schedule (bytes : List Byte) (s : State) : (logRead bytes s).schedule = s.schedule := rfl
@[simp] theorem logRead_readLog (bytes : List Byte) (s : State) : (logRead bytes s).readLog = s.readLog ++ [bytes] := rfl
@[simp] theorem logRead_unordered (bytes : List Byte) (s : State) : (logRead bytes s).unordered = s.unordered := rfl
@[simp] theorem logRead_draws (bytes : List Byte) (s : State) : (logRead bytes s).draws = s.draws := rfl

/-! ### `resetBlock` -/

@[simp] theorem resetBlock_d (s : State) : (resetBlock s).d = {} := rfl
@[simp] theorem resetBlock_cp (s : State) : (resetBlock s).cp = 0 := rfl
@[simp] theorem resetBlock_engine (s : State) : (resetBlock s).engine = .idle := rfl
@[simp] theorem resetBlock_stopReq (s : State) : (resetBlock s).stopReq = false := rfl
@[simp] theorem resetBlock_flags (s : State) : (resetBlock s).flags = 0 := rfl
@[simp] theorem resetBlock_inten (s : State) : (resetBlock s).inten = 0 := rfl
@[simp] theorem resetBlock_intstat (s : State) : (resetBlock s).intstat = 0 := rfl
@[simp] theorem resetBlock_errCode (s : State) : (resetBlock s).errCode = 0 := rfl
@[simp] theorem resetBlock_errCp (s : State) : (resetBlock s).errCp = 0 := rfl
@[simp] theorem resetBlock_errInfo (s : State) : (resetBlock s).errInfo = 0 := rfl
@[simp] theorem resetBlock_cmdCnt (s : State) : (resetBlock s).cmdCnt = 0 := rfl
@[simp] theorem resetBlock_mem (s : State) : (resetBlock s).mem = s.mem := rfl
@[simp] theorem resetBlock_mmioBase (s : State) : (resetBlock s).mmioBase = s.mmioBase := rfl
@[simp] theorem resetBlock_denied (s : State) : (resetBlock s).denied = s.denied := rfl
@[simp] theorem resetBlock_resetPin (s : State) : (resetBlock s).resetPin = s.resetPin := rfl
@[simp] theorem resetBlock_schedule (s : State) : (resetBlock s).schedule = s.schedule := rfl
@[simp] theorem resetBlock_readLog (s : State) : (resetBlock s).readLog = s.readLog := rfl
@[simp] theorem resetBlock_unordered (s : State) : (resetBlock s).unordered = s.unordered := rfl
@[simp] theorem resetBlock_draws (s : State) : (resetBlock s).draws = s.draws := rfl

/-! ### `havoc` -/

@[simp] theorem havoc_d (es : List Extent) (s : State) : (havoc es s).d = s.d := rfl
@[simp] theorem havoc_cp (es : List Extent) (s : State) : (havoc es s).cp = s.cp := rfl
@[simp] theorem havoc_engine (es : List Extent) (s : State) : (havoc es s).engine = s.engine := rfl
@[simp] theorem havoc_stopReq (es : List Extent) (s : State) : (havoc es s).stopReq = s.stopReq := rfl
@[simp] theorem havoc_flags (es : List Extent) (s : State) : (havoc es s).flags = s.flags := rfl
@[simp] theorem havoc_inten (es : List Extent) (s : State) : (havoc es s).inten = s.inten := rfl
@[simp] theorem havoc_intstat (es : List Extent) (s : State) : (havoc es s).intstat = s.intstat := rfl
@[simp] theorem havoc_errCode (es : List Extent) (s : State) : (havoc es s).errCode = s.errCode := rfl
@[simp] theorem havoc_errCp (es : List Extent) (s : State) : (havoc es s).errCp = s.errCp := rfl
@[simp] theorem havoc_errInfo (es : List Extent) (s : State) : (havoc es s).errInfo = s.errInfo := rfl
@[simp] theorem havoc_cmdCnt (es : List Extent) (s : State) : (havoc es s).cmdCnt = s.cmdCnt := rfl
@[simp] theorem havoc_mem (es : List Extent) (s : State) : (havoc es s).mem = writeCells s.mem ((es.flatMap extentAddrs).map fun a => (a, Config.freeByte s.draws a)) := rfl
@[simp] theorem havoc_mmioBase (es : List Extent) (s : State) : (havoc es s).mmioBase = s.mmioBase := rfl
@[simp] theorem havoc_denied (es : List Extent) (s : State) : (havoc es s).denied = s.denied := rfl
@[simp] theorem havoc_resetPin (es : List Extent) (s : State) : (havoc es s).resetPin = s.resetPin := rfl
@[simp] theorem havoc_schedule (es : List Extent) (s : State) : (havoc es s).schedule = s.schedule := rfl
@[simp] theorem havoc_readLog (es : List Extent) (s : State) : (havoc es s).readLog = s.readLog := rfl
@[simp] theorem havoc_unordered (es : List Extent) (s : State) : (havoc es s).unordered = s.unordered := rfl
@[simp] theorem havoc_draws (es : List Extent) (s : State) : (havoc es s).draws = s.draws + 1 := rfl

/-! ### `ordered` -/

@[simp] theorem ordered_d (es : List Extent) (racing : List Nat) (s : State) : (ordered es racing s).d = s.d := rfl
@[simp] theorem ordered_cp (es : List Extent) (racing : List Nat) (s : State) : (ordered es racing s).cp = s.cp := rfl
@[simp] theorem ordered_engine (es : List Extent) (racing : List Nat) (s : State) : (ordered es racing s).engine = s.engine := rfl
@[simp] theorem ordered_stopReq (es : List Extent) (racing : List Nat) (s : State) : (ordered es racing s).stopReq = s.stopReq := rfl
@[simp] theorem ordered_flags (es : List Extent) (racing : List Nat) (s : State) : (ordered es racing s).flags = s.flags := rfl
@[simp] theorem ordered_inten (es : List Extent) (racing : List Nat) (s : State) : (ordered es racing s).inten = s.inten := rfl
@[simp] theorem ordered_intstat (es : List Extent) (racing : List Nat) (s : State) : (ordered es racing s).intstat = s.intstat := rfl
@[simp] theorem ordered_errCode (es : List Extent) (racing : List Nat) (s : State) : (ordered es racing s).errCode = s.errCode := rfl
@[simp] theorem ordered_errCp (es : List Extent) (racing : List Nat) (s : State) : (ordered es racing s).errCp = s.errCp := rfl
@[simp] theorem ordered_errInfo (es : List Extent) (racing : List Nat) (s : State) : (ordered es racing s).errInfo = s.errInfo := rfl
@[simp] theorem ordered_cmdCnt (es : List Extent) (racing : List Nat) (s : State) : (ordered es racing s).cmdCnt = s.cmdCnt := rfl
@[simp] theorem ordered_mem (es : List Extent) (racing : List Nat) (s : State) : (ordered es racing s).mem = s.mem := rfl
@[simp] theorem ordered_mmioBase (es : List Extent) (racing : List Nat) (s : State) : (ordered es racing s).mmioBase = s.mmioBase := rfl
@[simp] theorem ordered_denied (es : List Extent) (racing : List Nat) (s : State) : (ordered es racing s).denied = s.denied := rfl
@[simp] theorem ordered_resetPin (es : List Extent) (racing : List Nat) (s : State) : (ordered es racing s).resetPin = s.resetPin := rfl
@[simp] theorem ordered_schedule (es : List Extent) (racing : List Nat) (s : State) : (ordered es racing s).schedule = s.schedule := rfl
@[simp] theorem ordered_readLog (es : List Extent) (racing : List Nat) (s : State) : (ordered es racing s).readLog = s.readLog := rfl
@[simp] theorem ordered_unordered (es : List Extent) (racing : List Nat) (s : State) : (ordered es racing s).unordered = 
    s.unordered.filter fun a => !inExtents es a || racing.contains a := rfl
@[simp] theorem ordered_draws (es : List Extent) (racing : List Nat) (s : State) : (ordered es racing s).draws = s.draws := rfl

/-! ### `hostStore` -/

@[simp] theorem hostStore_d (addr : Word) (bytes : List Byte) (s : State) : (hostStore addr bytes s).d = s.d := rfl
@[simp] theorem hostStore_cp (addr : Word) (bytes : List Byte) (s : State) : (hostStore addr bytes s).cp = s.cp := rfl
@[simp] theorem hostStore_engine (addr : Word) (bytes : List Byte) (s : State) : (hostStore addr bytes s).engine = s.engine := rfl
@[simp] theorem hostStore_stopReq (addr : Word) (bytes : List Byte) (s : State) : (hostStore addr bytes s).stopReq = s.stopReq := rfl
@[simp] theorem hostStore_flags (addr : Word) (bytes : List Byte) (s : State) : (hostStore addr bytes s).flags = s.flags := rfl
@[simp] theorem hostStore_inten (addr : Word) (bytes : List Byte) (s : State) : (hostStore addr bytes s).inten = s.inten := rfl
@[simp] theorem hostStore_intstat (addr : Word) (bytes : List Byte) (s : State) : (hostStore addr bytes s).intstat = s.intstat := rfl
@[simp] theorem hostStore_errCode (addr : Word) (bytes : List Byte) (s : State) : (hostStore addr bytes s).errCode = s.errCode := rfl
@[simp] theorem hostStore_errCp (addr : Word) (bytes : List Byte) (s : State) : (hostStore addr bytes s).errCp = s.errCp := rfl
@[simp] theorem hostStore_errInfo (addr : Word) (bytes : List Byte) (s : State) : (hostStore addr bytes s).errInfo = s.errInfo := rfl
@[simp] theorem hostStore_cmdCnt (addr : Word) (bytes : List Byte) (s : State) : (hostStore addr bytes s).cmdCnt = s.cmdCnt := rfl
@[simp] theorem hostStore_mem (addr : Word) (bytes : List Byte) (s : State) : (hostStore addr bytes s).mem = writeCells s.mem (hostCells addr bytes) := rfl
@[simp] theorem hostStore_mmioBase (addr : Word) (bytes : List Byte) (s : State) : (hostStore addr bytes s).mmioBase = s.mmioBase := rfl
@[simp] theorem hostStore_denied (addr : Word) (bytes : List Byte) (s : State) : (hostStore addr bytes s).denied = s.denied := rfl
@[simp] theorem hostStore_resetPin (addr : Word) (bytes : List Byte) (s : State) : (hostStore addr bytes s).resetPin = s.resetPin := rfl
@[simp] theorem hostStore_schedule (addr : Word) (bytes : List Byte) (s : State) : (hostStore addr bytes s).schedule = s.schedule := rfl
@[simp] theorem hostStore_readLog (addr : Word) (bytes : List Byte) (s : State) : (hostStore addr bytes s).readLog = s.readLog := rfl
@[simp] theorem hostStore_unordered (addr : Word) (bytes : List Byte) (s : State) : (hostStore addr bytes s).unordered = 
    if s.engine = .run then ((hostCells addr bytes).map (·.1)).union s.unordered else s.unordered := rfl
@[simp] theorem hostStore_draws (addr : Word) (bytes : List Byte) (s : State) : (hostStore addr bytes s).draws = s.draws := rfl

/-! ### `setDegen` -/

@[simp] theorem setDegen_d (g : Bool) (s : State) : (setDegen g s).d = s.d := by cases g <;> rfl
@[simp] theorem setDegen_cp (g : Bool) (s : State) : (setDegen g s).cp = s.cp := by cases g <;> rfl
@[simp] theorem setDegen_engine (g : Bool) (s : State) : (setDegen g s).engine = s.engine := by cases g <;> rfl
@[simp] theorem setDegen_stopReq (g : Bool) (s : State) : (setDegen g s).stopReq = s.stopReq := by cases g <;> rfl
@[simp] theorem setDegen_flags (g : Bool) (s : State) : (setDegen g s).flags = if g then s.flags ||| 1 else s.flags := by
  cases g <;> rfl
@[simp] theorem setDegen_inten (g : Bool) (s : State) : (setDegen g s).inten = s.inten := by cases g <;> rfl
@[simp] theorem setDegen_intstat (g : Bool) (s : State) : (setDegen g s).intstat = s.intstat := by cases g <;> rfl
@[simp] theorem setDegen_errCode (g : Bool) (s : State) : (setDegen g s).errCode = s.errCode := by cases g <;> rfl
@[simp] theorem setDegen_errCp (g : Bool) (s : State) : (setDegen g s).errCp = s.errCp := by cases g <;> rfl
@[simp] theorem setDegen_errInfo (g : Bool) (s : State) : (setDegen g s).errInfo = s.errInfo := by cases g <;> rfl
@[simp] theorem setDegen_cmdCnt (g : Bool) (s : State) : (setDegen g s).cmdCnt = s.cmdCnt := by cases g <;> rfl
@[simp] theorem setDegen_mem (g : Bool) (s : State) : (setDegen g s).mem = s.mem := by cases g <;> rfl
@[simp] theorem setDegen_mmioBase (g : Bool) (s : State) : (setDegen g s).mmioBase = s.mmioBase := by cases g <;> rfl
@[simp] theorem setDegen_denied (g : Bool) (s : State) : (setDegen g s).denied = s.denied := by cases g <;> rfl
@[simp] theorem setDegen_resetPin (g : Bool) (s : State) : (setDegen g s).resetPin = s.resetPin := by cases g <;> rfl
@[simp] theorem setDegen_schedule (g : Bool) (s : State) : (setDegen g s).schedule = s.schedule := by cases g <;> rfl
@[simp] theorem setDegen_readLog (g : Bool) (s : State) : (setDegen g s).readLog = s.readLog := by cases g <;> rfl
@[simp] theorem setDegen_unordered (g : Bool) (s : State) : (setDegen g s).unordered = s.unordered := by cases g <;> rfl
@[simp] theorem setDegen_draws (g : Bool) (s : State) : (setDegen g s).draws = s.draws := by cases g <;> rfl

/-! ### `finish` -/

@[simp] theorem finish_d (w : Work) (s : State) : (finish w s).d = s.d := by simp [finish]
@[simp] theorem finish_cp (w : Work) (s : State) : (finish w s).cp = s.cp + 64 := by simp [finish]
@[simp] theorem finish_engine (w : Work) (s : State) : (finish w s).engine = s.engine := by simp [finish]
@[simp] theorem finish_stopReq (w : Work) (s : State) : (finish w s).stopReq = s.stopReq := by simp [finish]
@[simp] theorem finish_flags (w : Work) (s : State) : (finish w s).flags = if w.degen then s.flags ||| 1 else s.flags := by simp [finish]
@[simp] theorem finish_inten (w : Work) (s : State) : (finish w s).inten = s.inten := by simp [finish]
@[simp] theorem finish_intstat (w : Work) (s : State) : (finish w s).intstat = s.intstat := by simp [finish]
@[simp] theorem finish_errCode (w : Work) (s : State) : (finish w s).errCode = s.errCode := by simp [finish]
@[simp] theorem finish_errCp (w : Work) (s : State) : (finish w s).errCp = s.errCp := by simp [finish]
@[simp] theorem finish_errInfo (w : Work) (s : State) : (finish w s).errInfo = s.errInfo := by simp [finish]
@[simp] theorem finish_cmdCnt (w : Work) (s : State) : (finish w s).cmdCnt = s.cmdCnt + 1 := by simp [finish]
@[simp] theorem finish_mem (w : Work) (s : State) : (finish w s).mem = writeCells s.mem w.stores := by simp [finish]
@[simp] theorem finish_mmioBase (w : Work) (s : State) : (finish w s).mmioBase = s.mmioBase := by simp [finish]
@[simp] theorem finish_denied (w : Work) (s : State) : (finish w s).denied = s.denied := by simp [finish]
@[simp] theorem finish_resetPin (w : Work) (s : State) : (finish w s).resetPin = s.resetPin := by simp [finish]
@[simp] theorem finish_schedule (w : Work) (s : State) : (finish w s).schedule = s.schedule := by simp [finish]
@[simp] theorem finish_readLog (w : Work) (s : State) : (finish w s).readLog = s.readLog := by simp [finish]
@[simp] theorem finish_unordered (w : Work) (s : State) : (finish w s).unordered = s.unordered := by simp [finish]
@[simp] theorem finish_draws (w : Work) (s : State) : (finish w s).draws = s.draws := by simp [finish]

/-! ### `busFault` -/

@[simp] theorem busFault_d (es : List Extent) (fs : List Access) (s : State) : (busFault es fs s).d = s.d := rfl
@[simp] theorem busFault_cp (es : List Extent) (fs : List Access) (s : State) : (busFault es fs s).cp = s.cp := rfl
@[simp] theorem busFault_engine (es : List Extent) (fs : List Access) (s : State) : (busFault es fs s).engine = .faulted := rfl
@[simp] theorem busFault_stopReq (es : List Extent) (fs : List Access) (s : State) : (busFault es fs s).stopReq = false := rfl
@[simp] theorem busFault_flags (es : List Extent) (fs : List Access) (s : State) : (busFault es fs s).flags = s.flags := rfl
@[simp] theorem busFault_inten (es : List Extent) (fs : List Access) (s : State) : (busFault es fs s).inten = s.inten := rfl
@[simp] theorem busFault_intstat (es : List Extent) (fs : List Access) (s : State) : (busFault es fs s).intstat = s.intstat ||| 2 := rfl
@[simp] theorem busFault_errCode (es : List Extent) (fs : List Access) (s : State) : (busFault es fs s).errCode = 8 := rfl
@[simp] theorem busFault_errCp (es : List Extent) (fs : List Access) (s : State) : (busFault es fs s).errCp = s.cp := rfl
@[simp] theorem busFault_errInfo (es : List Extent) (fs : List Access) (s : State) : (busFault es fs s).errInfo = BitVec.ofNat 32 (freeMember s.draws ⟨.read, 1, 0⟩ fs).addr := rfl
@[simp] theorem busFault_cmdCnt (es : List Extent) (fs : List Access) (s : State) : (busFault es fs s).cmdCnt = s.cmdCnt := rfl
@[simp] theorem busFault_mem (es : List Extent) (fs : List Access) (s : State) : (busFault es fs s).mem = (havoc es s).mem := rfl
@[simp] theorem busFault_mmioBase (es : List Extent) (fs : List Access) (s : State) : (busFault es fs s).mmioBase = s.mmioBase := rfl
@[simp] theorem busFault_denied (es : List Extent) (fs : List Access) (s : State) : (busFault es fs s).denied = s.denied := rfl
@[simp] theorem busFault_resetPin (es : List Extent) (fs : List Access) (s : State) : (busFault es fs s).resetPin = s.resetPin := rfl
@[simp] theorem busFault_schedule (es : List Extent) (fs : List Access) (s : State) : (busFault es fs s).schedule = s.schedule := rfl
@[simp] theorem busFault_readLog (es : List Extent) (fs : List Access) (s : State) : (busFault es fs s).readLog = s.readLog := rfl
@[simp] theorem busFault_unordered (es : List Extent) (fs : List Access) (s : State) : (busFault es fs s).unordered = s.unordered := rfl
@[simp] theorem busFault_draws (es : List Extent) (fs : List Access) (s : State) : (busFault es fs s).draws = s.draws + 1 := rfl

end Sys2Proof.Laws
end

