-- ==== Sys2Proof/Laws/Course.lean ====
section
/-! SUPPORT. One lemma for each shared operation of a command's course: what unspecified bytes leave alone, when the
checks pass, everything a compute command can do, and when it completes. -/

namespace Sys2Proof.Laws

open Sys2Proof.Machine

/-! ### Unspecified bytes -/

theorem mem_extentAddrs {e : Extent} {a : Nat} : a ∈ extentAddrs e ↔ inExtent e a = true := by
  simp only [extentAddrs, List.mem_map, List.mem_range, inExtent, Bool.and_eq_true, decide_eq_true_eq]
  constructor
  · rintro ⟨k, hk, rfl⟩; omega
  · rintro ⟨h1, h2⟩; exact ⟨a - e.addr, by omega, by omega⟩

/-- Making ranges unspecified keeps the canonical form. -/
theorem wf_havoc (es : List Extent) {s : State} (h : Memory.wf s.mem = true) : Memory.wf (havoc es s).mem = true :=
  wf_writeCells _ h

/-- Making ranges unspecified leaves every byte outside them alone. -/
theorem readByte_havoc {es : List Extent} {s : State} {a : Nat} (h : Memory.wf s.mem = true)
    (ha : inExtents es a = false) : readByte (havoc es s).mem a = readByte s.mem a := by
  refine readByte_writeCells_other h fun c hc he => ?_
  obtain ⟨x, hx, rfl⟩ := List.mem_map.mp hc
  obtain ⟨e, he', hxe⟩ := List.mem_flatMap.mp hx
  rw [mem_extentAddrs] at hxe
  have : inExtents es a = true := List.any_eq_true.mpr ⟨e, he', he ▸ hxe⟩
  simp_all

/-! ### The checks -/

theorem dimCheck_none {dims : List (Nat × Nat)} : dimCheck dims = none ↔ ∀ p ∈ dims, p.2 ≠ 0 := by
  simp [dimCheck]

theorem shapeCheck_none {rels : List (Nat × Bool)} : shapeCheck rels = none ↔ ∀ p ∈ rels, p.2 = true := by
  simp [shapeCheck]

theorem alignCheck_none {bufs : List Buffer} : alignCheck bufs = none ↔ ∀ b ∈ bufs, b.isF32 = true → b.base % 4 = 0 := by
  simp [alignCheck]

theorem rangeCheck_none {bufs : List Buffer} : rangeCheck bufs = none ↔ ∀ b ∈ bufs, b.base + b.size ≤ 2 ^ 32 := by
  simp [rangeCheck]

theorem overlapCheck_none {pairs : List (Buffer × Buffer)} :
    overlapCheck pairs = none ↔ ∀ p ∈ pairs, overlaps (extentOf p.1) (extentOf p.2) = false := by
  simp [overlapCheck]

/-- The checks pass exactly when each of the five kinds does (R211). -/
theorem preflight_none {dims : List (Nat × Nat)} {rels : List (Nat × Bool)} {bufs : List Buffer}
    {pairs : List (Buffer × Buffer)} :
    preflight dims rels bufs pairs = none ↔
      (∀ p ∈ dims, p.2 ≠ 0) ∧ (∀ p ∈ rels, p.2 = true) ∧ (∀ b ∈ bufs, b.isF32 = true → b.base % 4 = 0) ∧
        (∀ b ∈ bufs, b.base + b.size ≤ 2 ^ 32) ∧
          ∀ p ∈ pairs, overlaps (extentOf p.1) (extentOf p.2) = false := by
  rw [← dimCheck_none, ← shapeCheck_none, ← alignCheck_none, ← rangeCheck_none, ← overlapCheck_none, preflight]
  cases dimCheck dims <;> cases shapeCheck rels <;> cases alignCheck bufs <;> cases rangeCheck bufs <;> simp

/-- Ranges that do not overlap, in the words of R71. -/
theorem overlaps_false {e f : Extent} :
    overlaps e f = false ↔ e.size = 0 ∨ f.size = 0 ∨ e.addr + e.size ≤ f.addr ∨ f.addr + f.size ≤ e.addr := by
  simp only [overlaps, Bool.and_eq_false_iff, decide_eq_false_iff_not]
  omega

/-! ### The course of a command -/

/-- Everything `runWork` can do: complete; complete after a free choice; or report a denied access of its own. -/
theorem runWork_cases {outs : List Extent} {w : Work} {s : State} {o : Host.Outcome State Fault Refusal}
    (h : runWork outs w s = o) :
    ((∀ x ∈ w.needs, isDenied s x = false) ∧ (∀ x ∈ w.may, isDenied s x = false) ∧ o = .next (finish w s)) ∨
    ((∀ x ∈ w.needs, isDenied s x = false) ∧ (∃ x ∈ w.may, isDenied s x = true) ∧ o = .next (finish w (drawn s))) ∨
    (∃ fs s', (s' = s ∨ s' = drawn s) ∧ fs ≠ [] ∧ (∀ x ∈ fs, x ∈ w.needs ++ w.may ∧ isDenied s x = true) ∧
      o = .next (busFault outs fs s')) := by
  subst h
  rw [runWork]
  have nonempty : ∀ {l : List Access}, l.any (isDenied s) = true → l.filter (isDenied s) ≠ [] := by
    intro l hl he
    obtain ⟨x, hx, hd⟩ := List.any_eq_true.mp hl
    have : x ∈ l.filter (isDenied s) := List.mem_filter.mpr ⟨hx, hd⟩
    rw [he] at this
    cases this
  split_ifs with h1 h2 h3
  · refine .inr (.inr ⟨_, s, .inl rfl, ?_, fun x hx => List.mem_filter.mp hx, rfl⟩)
    exact nonempty (by rw [List.any_append, h1, Bool.true_or])
  · exact .inr (.inr ⟨_, drawn s, .inr rfl, nonempty h2, fun x hx =>
      ⟨List.mem_append_right _ (List.mem_filter.mp hx).1, (List.mem_filter.mp hx).2⟩, rfl⟩)
  · refine .inr (.inl ⟨?_, List.any_eq_true.mp h2, rfl⟩)
    simpa using h1
  · refine .inl ⟨?_, ?_, rfl⟩
    · simpa using h1
    · simpa using h2

/-- Everything a compute command can do: the fault of a failed check, or what its work can do. -/
theorem runUnit_cases {fp : Footprint} {work : Memory → Work} {s : State} {o : Host.Outcome State Fault Refusal}
    (h : runUnit fp work s = o) :
    (∃ c, fp.cause = some c ∧ o = .next (takeFault c s)) ∨ (fp.cause = none ∧ runWork fp.outs (work s.mem) s = o) := by
  subst h
  rw [runUnit]
  cases fp.cause with
  | some c => exact .inl ⟨c, rfl, rfl⟩
  | none => exact .inr ⟨rfl, rfl⟩

/-- A compute command whose checks pass and whose accesses are all answered completes. -/
theorem runUnit_completes {fp : Footprint} {work : Memory → Work} {s : State} (hc : fp.cause = none)
    (hn : ∀ x ∈ (work s.mem).needs, isDenied s x = false) (hm : ∀ x ∈ (work s.mem).may, isDenied s x = false) :
    runUnit fp work s = .next (finish (work s.mem) s) := by
  have h1 : (work s.mem).needs.any (isDenied s) = false := by simpa using hn
  have h2 : (work s.mem).may.any (isDenied s) = false := by simpa using hm
  simp [runUnit, hc, runWork, h1, h2]

/-- A compute command whose checks fail takes the fault and does nothing else. -/
theorem runUnit_faults {fp : Footprint} {work : Memory → Work} {s : State} {c : Cause} (hc : fp.cause = some c) :
    runUnit fp work s = .next (takeFault c s) := by simp [runUnit, hc]

/-- A completed command that took no fallback changes `CP`, `CMDCNT` and memory, and nothing else. -/
theorem finish_plain {w : Work} {s : State} (h : w.degen = false) :
    finish w s = { s with cp := s.cp + 64, cmdCnt := s.cmdCnt + 1, mem := writeCells s.mem w.stores } := by
  simp [finish, h, setDegen, complete]

/-- A completed command that took a fallback also sets `DEGEN`. -/
theorem finish_degen {w : Work} {s : State} (h : w.degen = true) :
    finish w s = { s with cp := s.cp + 64, cmdCnt := s.cmdCnt + 1, mem := writeCells s.mem w.stores,
                          flags := s.flags ||| 1 } := by
  simp [finish, h, setDegen, complete]

/-- Membership in the accesses to a buffer. -/
theorem mem_bufferAccesses {kind : AccessKind} {et : ElemType} {base : Word} {n : Nat} {x : Access} :
    x ∈ bufferAccesses kind et base n ↔ ∃ i < n, x = ⟨kind, esize et, elemAddr et base i⟩ := by
  simp only [bufferAccesses, List.mem_map, List.mem_range]
  exact ⟨fun ⟨i, hi, h⟩ => ⟨i, hi, h.symm⟩, fun ⟨i, hi, h⟩ => ⟨i, hi, h.symm⟩⟩

end Sys2Proof.Laws
end

