-- ==== Sys2Proof/Laws/Step.lean ====
section
/-! SUPPORT. What a step is: the descriptor it fetches, that every command answers a next state, and the command step
with no host event inside it. -/

namespace Sys2Proof.Laws

open Sys2Proof.Machine

/-- Two descriptors with the same sixteen words are equal (R90). -/
theorem desc_ext {d e : Desc} (h : ∀ k < 16, descWord d k = descWord e k) : d = e := by
  have h0 := h 0; have h1 := h 1; have h2 := h 2; have h3 := h 3
  have h4 := h 4; have h5 := h 5; have h6 := h 6; have h7 := h 7
  have h8 := h 8; have h9 := h 9; have h10 := h 10; have h11 := h 11
  have h12 := h 12; have h13 := h 13; have h14 := h 14; have h15 := h 15
  cases d; cases e; simp_all [descWord]

/-- Word `k` of the descriptor built from a function is the function's value (R90). -/
theorem descWord_descOfFn (f : Nat → Word) : ∀ k < 16, descWord (descOfFn f) k = f k := by
  intro k hk; interval_cases k <;> rfl

/-- Word `k` of the descriptor memory holds at an address is the word at four times `k` from there (R90). -/
theorem descWord_descAt (m : Memory) (cp : Word) {k : Nat} (hk : k < 16) :
    descWord (descAt m cp) k = readWord m (cp.toNat + 4 * k) := descWord_descOfFn _ k hk

/-- A fetch whose sixteen words are answered is not denied (R186 step 2). -/
theorem fetchDenied_eq_false {s : State} (h : ∀ k < 16, isDenied s ⟨.fetch, 4, s.cp.toNat + 4 * k⟩ = false) :
    fetchDenied s = false := by
  simp only [fetchDenied, List.any_eq_false, List.mem_range]
  intro k hk; simp [fetchAddr, h k hk]

/-- A compute command always answers a next state. -/
theorem runUnit_next (fp : Footprint) (work : Memory → Work) (s : State) : ∃ t, runUnit fp work s = .next t := by
  rcases runUnit_cases (rfl : runUnit fp work s = _) with ⟨c, _, h⟩ | ⟨_, h⟩
  · exact ⟨_, h⟩
  · rcases runWork_cases h with ⟨_, _, h⟩ | ⟨_, _, h⟩ | ⟨_, _, _, _, _, h⟩ <;> exact ⟨_, h⟩

/-- Every command answers a next state: no meaning stops (R201, R212). -/
theorem exec_next (i : Instr) (s : State) : ∃ t, exec i s = .next t := by
  cases i with
  | endCmd => exact ⟨_, rfl⟩
  | nop => exact ⟨_, rfl⟩
  | jump t => simp only [exec, execJump]; split <;> exact ⟨_, rfl⟩
  | bsamp => exact runUnit_next _ _ _
  | affine => exact runUnit_next _ _ _
  | croprs => exact runUnit_next _ _ _
  | conv2d => exact runUnit_next _ _ _
  | addbias => exact runUnit_next _ _ _
  | relu => exact runUnit_next _ _ _
  | biasrelu => exact runUnit_next _ _ _
  | maxpool2 => exact runUnit_next _ _ _
  | softmax => exact runUnit_next _ _ _
  | histeq => exact runUnit_next _ _ _
  | otsu => exact runUnit_next _ _ _

/-- With no host event inside it, the rest of a command step is the command. -/
theorem commandRest_nil {fp : Footprint} {f : Bool} {act : State → Host.Outcome State Fault Refusal} {s t : State}
    (h : act s = .next t) : commandRest fp f [] [] act s = act s := by
  simp [commandRest, duringAccesses, h, memoryWrites, settleRaces]

/-- A word of the fetch is memory's, or a free value where a byte of it is unordered, when no host write lands before the
fetch event (R186 step 2, R245 H3). -/
theorem fetchWord_nil (s t : State) (k : Nat) : fetchWord [] s t k =
    if wordUnordered s k then freeWord (t.draws + k) (fetchAddr s.cp k) else readWord s.mem (fetchAddr s.cp k) := by
  simp [fetchWord, memoryWrites]

/-- With nothing unordered in it and no host write before its event, a fetch reads what memory holds (R186 step 2). -/
theorem fetchDesc_nil {s t : State} (h : ∀ k < 16, wordUnordered s k = false) : fetchDesc [] s t = descAt s.mem s.cp := by
  refine desc_ext fun k hk => ?_
  rw [fetchDesc, descAt, descWord_descOfFn _ _ hk, descWord_descOfFn _ _ hk, fetchWord_nil, h k hk]
  rfl

/-- Such a fetch draws no free value. -/
theorem fetchDraws_nil {s t : State} (h : ∀ k < 16, wordUnordered s k = false) : fetchDraws [] s t = t := by
  have : (List.range 16).any (wordUnordered s) = false := by
    simp only [List.any_eq_false, List.mem_range]; intro k hk; simp [h k hk]
  simp [fetchDraws, this, memoryWrites]

/-- A command step with no host event inside it: fetch, latch, decode, and the command or its fault (R186). -/
theorem commandStep_nil {s : State} (h : fetchDenied s = false) : commandStep [] [] s =
      match decode (fetchDesc [] s s) with
      | .error e => .next (takeFault (causeOfDecode e) (latch (fetchDesc [] s s) (fetchDraws [] s s)))
      | .ok i => exec i (ordered (liveFootprint (footprint i)).outs [] (latch (fetchDesc [] s s) (fetchDraws [] s s))) := by
  simp only [commandStep, duringAccesses, fetchAndRun, h]
  cases hdec : decode (fetchDesc [] s s) with
  | error e => simp [commandRest_nil (act := fun t => .next (takeFault (causeOfDecode e) t)) rfl]
  | ok i =>
    obtain ⟨t, ht⟩ := exec_next i (ordered (liveFootprint (footprint i)).outs [] (latch (fetchDesc [] s s) (fetchDraws [] s s)))
    have hm : (memoryWrites s []).flatten = [] := rfl
    simp [hm, commandRest_nil ht]

/-- The engine's turn at a command with no host event inside it. -/
theorem engineStep_command {s : State} (h1 : s.engine = .run) (h2 : s.resetPin = false) (h3 : s.stopReq = false)
    (h4 : fetchDenied s = false) : engineStep [] [] s =
      match decode (fetchDesc [] s s) with
      | .error e => .next (takeFault (causeOfDecode e) (latch (fetchDesc [] s s) (fetchDraws [] s s)))
      | .ok i => exec i (ordered (liveFootprint (footprint i)).outs [] (latch (fetchDesc [] s s) (fetchDraws [] s s))) := by
  rw [← commandStep_nil h4]
  simp [engineStep, h1, h2, h3]

end Sys2Proof.Laws
end

