-- ==== Sys2Proof/Laws/Host.lean ====
section
/-! SUPPORT. What a host event can do, at the window and to memory, and what the rest of a command step and the engine's
turn can do with host events inside them: one lemma for each operation. -/

namespace Sys2Proof.Laws

open Sys2Proof.Machine

/-- The offset of an address counted from `MMIO_BASE` (R30). -/
theorem windowOffset_base (s : State) {k : Nat} (hk : k < 4096) : windowOffset s (s.mmioBase + BitVec.ofNat 32 k) = k := by
  simp [windowOffset, BitVec.toNat_ofNat, show k % 4294967296 = k by omega, add_sub_cancel_left]

/-- An aligned word written to the window reaches its register (R30, R44). -/
theorem hostAccess_writeWord {s : State} {k : Nat} (v : Word) (hk : k < 4096) (h4 : k % 4 = 0) (hr : s.resetPin = false) :
    hostAccess (.write (s.mmioBase + BitVec.ofNat 32 k) (bytesOfWord v)) s = .next (windowWrite k v s) := by
  simp [hostAccess, inWindow, windowOffset_base s hk, hk, hr, windowStore, alignedWord, bytesOfWord, h4, wordOfBytes_extract]

/-- An aligned word read from the window is its register's value, and changes nothing else (R30, R42). -/
theorem hostAccess_readWord {s : State} {k : Nat} (hk : k < 4096) (h4 : k % 4 = 0) (hr : s.resetPin = false) :
    hostAccess (.read (s.mmioBase + BitVec.ofNat 32 k) 4) s =
      .next { s with readLog := s.readLog ++ [bytesOfWord (windowRead s k)] } := by
  simp [hostAccess, inWindow, windowOffset_base s hk, hk, hr, windowLoad, h4, logRead]

/-- The bytes of a host write go to 32-bit addresses. -/
theorem hostCells_lt (a : Word) (bs : List Byte) : ∀ c ∈ hostCells a bs, c.1 < 2 ^ 32 := by
  induction bs generalizing a with
  | nil => simp [hostCells]
  | cons b bs ih =>
    intro c hc
    rcases List.mem_cons.mp hc with rfl | hc
    · exact a.isLt
    · exact ih _ c hc

/-- Everything a host event can do: write a register, or nothing in the window; write memory; log what it read; drive the
reset input; or be refused, in the window of a block held in reset (R30, R44, R47, R240). -/
theorem hostAccess_cases {e : HostEvent} {s : State} {o : Host.Outcome State Fault Refusal} (h : hostAccess e s = o) :
    (∃ off v, off < 4096 ∧ s.resetPin = false ∧ o = .next (windowWrite off v s)) ∨ o = .next s ∨
    (∃ addr bytes, e = .write addr bytes ∧ o = .next (hostStore addr bytes s)) ∨
    (∃ addr n bytes, e = .read addr n ∧ o = .next (logRead bytes s)) ∨
    (∃ b, e = .resetPin b ∧ o = .next (driveReset b s)) ∨ (s.resetPin = true ∧ o = .refused .windowInReset) := by
  subst h
  cases e with
  | write addr bytes =>
    rw [hostAccess]
    split_ifs with hw hr
    · exact .inr (.inr (.inr (.inr (.inr ⟨hr, rfl⟩))))
    · rw [windowStore]
      split
      · exact .inl ⟨_, _, of_decide_eq_true hw, by simpa using hr, rfl⟩
      · exact .inr (.inl rfl)
    · exact .inr (.inr (.inl ⟨_, _, rfl, rfl⟩))
  | read addr n =>
    rw [hostAccess]
    split_ifs with hw hr
    · exact .inr (.inr (.inr (.inr (.inr ⟨hr, rfl⟩))))
    · exact .inr (.inr (.inr (.inl ⟨_, _, _, rfl, rfl⟩)))
    · exact .inr (.inr (.inr (.inl ⟨_, _, _, rfl, rfl⟩)))
  | resetPin b => exact .inr (.inr (.inr (.inr (.inl ⟨b, rfl, rfl⟩))))

/-- A host event that is no reset, inside a command: as between commands, but a read of an output byte is free (R78). -/
theorem duringAccess_cases {outs : List Extent} {e : HostEvent} {s : State} {o : Host.Outcome State Fault Refusal}
    (h : duringAccess outs e s = o) :
    o = hostAccess e s ∨ ∃ addr n bytes, e = .read addr n ∧ o = .next (drawn (logRead bytes s)) := by
  subst h
  cases e with
  | write addr bytes => exact .inl rfl
  | read addr n =>
    rw [duringAccess]
    split_ifs
    · exact .inl rfl
    · exact .inr ⟨_, _, _, rfl, rfl⟩
  | resetPin b => exact .inl rfl

/-- Everything the rest of a command step can do when it answers a next state: a reset among the host events abandons the
command (R241), or the command happens after them and its races settle (R78). -/
theorem commandRest_cases {fp : Footprint} {dataFlag : Bool} {early : List Host.Cell} {during : List HostEvent}
    {act : State → Host.Outcome State Fault Refusal} {s t : State} (h : commandRest fp dataFlag early during act s = .next t) :
    duringAccesses fp.outs during s = .next (t, true) ∨
    ∃ s' s'', duringAccesses fp.outs during s = .next (s', false) ∧ act s' = .next s'' ∧
      t = settleRaces fp dataFlag (early ++ (memoryWrites s during).flatten) s' s'' := by
  rw [commandRest] at h
  cases hd : duringAccesses fp.outs during s with
  | fault f => cases f
  | refused r => rw [hd] at h; cases h
  | next p =>
    obtain ⟨s', abandoned⟩ := p
    rw [hd] at h
    cases abandoned with
    | true =>
      injection h with h
      exact .inl (by rw [h])
    | false =>
      cases ha : act s' with
      | fault f => cases f
      | refused r => simp only [ha] at h; cases h
      | next s'' =>
        simp only [ha] at h
        injection h with h
        exact .inr ⟨s', s'', rfl, ha, h.symm⟩

/-- Everything a command step can do when it answers a next state: a reset before the fetch event ends it with the host's
events (R241); the fetch is denied; or the descriptor read is latched and is a fault of decoding or a command (R186). -/
theorem commandStep_cases {fetching executing : List HostEvent} {s t : State}
    (h : commandStep fetching executing s = .next t) :
    (∃ u, duringAccesses [] fetching s = .next (u, true) ∧ hostAccesses executing u = .next t) ∨
    ∃ u, duringAccesses [] fetching s = .next (u, false) ∧
      ((fetchDenied s = true ∧
          commandRest noFootprint false [] executing (fun v => .next (takeFault (.busError s.cp) v)) u = .next t) ∨
       (fetchDenied s = false ∧ ∃ e, decode (fetchDesc fetching s u) = .error e ∧
          commandRest noFootprint false [] executing (fun v => .next (takeFault (causeOfDecode e) v))
            (latch (fetchDesc fetching s u) (fetchDraws fetching s u)) = .next t) ∨
       (fetchDenied s = false ∧ ∃ i, decode (fetchDesc fetching s u) = .ok i ∧
          commandRest (liveFootprint (footprint i)) (flagFromData i) (memoryWrites s fetching).flatten executing (exec i)
            (ordered (liveFootprint (footprint i)).outs ((memoryWrites s fetching).flatten.map (·.1))
              (latch (fetchDesc fetching s u) (fetchDraws fetching s u))) = .next t)) := by
  rw [commandStep] at h
  cases hd : duringAccesses [] fetching s with
  | fault f => cases f
  | refused r => rw [hd] at h; cases h
  | next p =>
    obtain ⟨u, abandoned⟩ := p
    rw [hd] at h
    cases abandoned with
    | true => exact .inl ⟨u, rfl, h⟩
    | false =>
      refine .inr ⟨u, rfl, ?_⟩
      simp only [fetchAndRun] at h
      split_ifs at h with hf
      · exact .inl ⟨hf, h⟩
      · have hf' : fetchDenied s = false := by simpa using hf
        cases hdec : decode (fetchDesc fetching s u) with
        | error e => rw [hdec] at h; exact .inr (.inl ⟨hf', e, rfl, h⟩)
        | ok i => rw [hdec] at h; exact .inr (.inr ⟨hf', i, rfl, h⟩)

/-- A stop step that answers a next state: the host's events, then the honoured stop unless a reset dropped it (R186 step 1). -/
theorem stopStep_cases {events : List HostEvent} {s t : State} (h : stopStep events s = .next t) :
    ∃ u, hostAccesses events s = .next u ∧
      ((u.engine = .run ∧ u.stopReq = true ∧ u.resetPin = false ∧ t = honourStop u) ∨
       (¬ (u.engine = .run ∧ u.stopReq = true ∧ u.resetPin = false) ∧ t = u)) := by
  rw [stopStep] at h
  cases hu : hostAccesses events s with
  | fault f => cases f
  | refused r => rw [hu] at h; cases h
  | next u =>
    rw [hu] at h
    injection h with h
    refine ⟨u, rfl, ?_⟩
    rw [honourPending] at h
    split_ifs at h with hc
    · exact .inl ⟨hc.1, hc.2.1, hc.2.2, h.symm⟩
    · exact .inr ⟨hc, h.symm⟩

/-- Everything the engine's turn can do: leave the state to the host's events, honour a stop, or take a command step
(R185, R186). -/
theorem engineStep_cases {fetching executing : List HostEvent} {s : State} {o : Host.Outcome State Fault Refusal}
    (h : engineStep fetching executing s = o) :
    ((s.resetPin = true ∨ s.engine ≠ .run) ∧ o = hostAccesses (fetching ++ executing) s) ∨
    (s.resetPin = false ∧ s.engine = .run ∧ s.stopReq = true ∧ o = stopStep (fetching ++ executing) s) ∨
    (s.resetPin = false ∧ s.engine = .run ∧ s.stopReq = false ∧ o = commandStep fetching executing s) := by
  subst h
  rw [engineStep]
  split_ifs with h1 h2
  · exact .inl ⟨h1, rfl⟩
  · push Not at h1
    exact .inr (.inl ⟨by simpa using h1.1, h1.2, h2, rfl⟩)
  · push Not at h1
    exact .inr (.inr ⟨by simpa using h1.1, h1.2, by simpa using h2, rfl⟩)

end Sys2Proof.Laws
end

