-- ==== Sys2Proof/Laws/PerInstr.lean ====
section
/-! SUPPORT. One lemma per command: the header word its encoding carries selects the command's own row of the opcode table
(R91, R105, R106), and has no bit above its format's header fields. -/

namespace Sys2Proof.Laws.EncodeSelectsRow

/-- A header selects its row (R105, R106). -/
theorem of_header (op : Op) (et : ElemType) : opOf ((headerOf op et).toNat % 2 ^ 8) = some op := by
  cases op <;> cases et <;> decide

/-- A header has no reserved bit: bit 8 is used in the formats that carry `ET`, and zero in the others (R91). -/
theorem header_fits (op : Op) (et : ElemType) (h : usedBits op 0 = 9 ∨ et = .u8) :
    (headerOf op et).toNat / 2 ^ usedBits op 0 = 0 := by
  revert h
  cases op <;> cases et <;> decide

/-- The encoded header selects the command's row, and its reserved bits are zero. -/
def Statement (i : Instr) : Prop :=
  opOf ((encode i).w0.toNat % 2 ^ 8) = some (rowOf i) ∧ reservedSet (rowOf i) (encode i) 0 = false

theorem endCmd : Statement .endCmd :=
  ⟨of_header .endCmd .u8, decide_eq_false (not_not_intro (header_fits .endCmd .u8 (.inr rfl)))⟩

theorem jump (t : Word) : Statement (.jump t) :=
  ⟨of_header .jump .u8, decide_eq_false (not_not_intro (header_fits .jump .u8 (.inr rfl)))⟩

theorem nop : Statement .nop :=
  ⟨of_header .nop .u8, decide_eq_false (not_not_intro (header_fits .nop .u8 (.inr rfl)))⟩

theorem bsamp (et : ElemType) (i : View) (o sx sy : Word) : Statement (.bsamp et i o sx sy) :=
  ⟨of_header .bsamp et, decide_eq_false (not_not_intro (header_fits .bsamp et (.inl rfl)))⟩

theorem affine (et : ElemType) (i o : View) (x y : Int) (t0 t1 t2 t3 : Word) : Statement (.affine et i o x y t0 t1 t2 t3) :=
  ⟨of_header .affine et, decide_eq_false (not_not_intro (header_fits .affine et (.inl rfl)))⟩

theorem croprs (et : ElemType) (i o : View) (l t : Int) (w h : Nat) : Statement (.croprs et i o l t w h) :=
  ⟨of_header .croprs et, decide_eq_false (not_not_intro (header_fits .croprs et (.inl rfl)))⟩

theorem conv2d (i : View) (f : Filter) (o : View) : Statement (.conv2d i f o) :=
  ⟨of_header .conv2d .u8, decide_eq_false (not_not_intro (header_fits .conv2d .u8 (.inr rfl)))⟩

theorem addbias (i : View) (b : Word) : Statement (.addbias i b) :=
  ⟨of_header .addbias .u8, decide_eq_false (not_not_intro (header_fits .addbias .u8 (.inr rfl)))⟩

theorem relu (i o : View) : Statement (.relu i o) :=
  ⟨of_header .relu .u8, decide_eq_false (not_not_intro (header_fits .relu .u8 (.inr rfl)))⟩

theorem biasrelu (i : View) (b : Word) (o : View) : Statement (.biasrelu i b o) :=
  ⟨of_header .biasrelu .u8, decide_eq_false (not_not_intro (header_fits .biasrelu .u8 (.inr rfl)))⟩

theorem maxpool2 (i o : View) : Statement (.maxpool2 i o) :=
  ⟨of_header .maxpool2 .u8, decide_eq_false (not_not_intro (header_fits .maxpool2 .u8 (.inr rfl)))⟩

theorem softmax (a : Word) (n : Nat) (p : Word) : Statement (.softmax a n p) :=
  ⟨of_header .softmax .u8, decide_eq_false (not_not_intro (header_fits .softmax .u8 (.inr rfl)))⟩

theorem histeq (i o : View) : Statement (.histeq i o) :=
  ⟨of_header .histeq .u8, decide_eq_false (not_not_intro (header_fits .histeq .u8 (.inr rfl)))⟩

theorem otsu (i : View) (r : Word) : Statement (.otsu i r) :=
  ⟨of_header .otsu .u8, decide_eq_false (not_not_intro (header_fits .otsu .u8 (.inr rfl)))⟩

end Sys2Proof.Laws.EncodeSelectsRow
end

