-- ==== Sys2Proof/Laws/Samples.lean ====
section
/-! SUPPORT. Where the reads of a bilinear sample lie, and that reading an element of a pooled block stays in the view. -/

namespace Sys2Proof.Laws

open Sys2Proof.Machine

/-- A neighbour in bounds is a pixel of the view (R121). -/
theorem inBounds_toNat {v : View} {x y : Int} (h : inBounds v x y = true) : x.toNat < v.w ∧ y.toNat < v.h := by
  simp only [inBounds, Bool.and_eq_true, decide_eq_true_eq] at h
  omega

/-- An access to an element in range is an access to the view. -/
theorem elem_mem_viewAccesses {kind : AccessKind} {et : ElemType} {v : View} {x y c : Nat} (hx : x < v.w) (hy : y < v.h)
    (hc : c < v.d) : ⟨kind, esize et, elemAddr et v.addr (elemIndex v x y c)⟩ ∈ viewAccesses kind et v :=
  mem_bufferAccesses.mpr ⟨_, elemIndex_lt hx hy hc, rfl⟩

/-- A bilinear sample reads only elements of its view (R61, R122). -/
theorem pointAccesses_subset {et : ElemType} {v : View} {sx sy : Word} {points : List (Word × Int × Int)}
    (hp : ∀ p ∈ points, p ∈ samplePoints v sx sy) {x : Access} (h : x ∈ pointAccesses et v points) :
    x ∈ viewAccesses .read et v := by
  obtain ⟨p, hq, hx⟩ := List.mem_flatMap.mp h
  obtain ⟨c, hc, rfl⟩ := List.mem_map.mp hx
  obtain ⟨h1, h2⟩ := inBounds_toNat (List.mem_filter.mp (hp p hq)).2
  exact elem_mem_viewAccesses h1 h2 (List.mem_range.mp hc)

theorem sampleAccesses_subset {et : ElemType} {v : View} {sx sy : Word} {x : Access}
    (h : x ∈ sampleAccesses et v sx sy) : x ∈ viewAccesses .read et v := pointAccesses_subset (fun _ hp => hp) h

theorem neededAccesses_subset {et : ElemType} {v : View} {sx sy : Word} {x : Access}
    (h : x ∈ neededAccesses et v sx sy) : x ∈ viewAccesses .read et v :=
  pointAccesses_subset (fun _ hp => (List.mem_filter.mp hp).1) h

/-- The samples of a warp read only elements of its input view (R61). -/
theorem warpAccesses_subset {et : ElemType} {inp out : View} {samples : Nat → Nat → List (Word × Word)} {x : Access}
    (h : x ∈ warpAccesses et inp out samples) : x ∈ viewAccesses .read et inp := by
  simp only [warpAccesses, List.mem_flatMap] at h
  obtain ⟨_, _, _, _, p, _, hx⟩ := h
  exact neededAccesses_subset hx

/-- Pooling reads only elements of its input view (R61). -/
theorem poolReads_subset {inp out : View} (hw : out.w = inp.w / 2) (hh : out.h = inp.h / 2) {x : Access}
    (h : x ∈ poolReads inp out) : x ∈ viewAccesses .read .f32 inp := by
  simp only [poolReads, List.mem_flatMap, List.mem_map, List.mem_range] at h
  obtain ⟨y, hy, x', hx', c, hc, rfl⟩ := h
  exact elem_mem_viewAccesses (et := .f32) (by omega) (by omega) hc

end Sys2Proof.Laws
end

