-- ==== Sys2Proof/Laws/Work.lean ====
section
/-! SUPPORT. The work of each compute command, part by part: the accesses its result needs, those it may make, the bytes it
stores, its degenerate flag; and its footprint: the checks it makes and its extents. A proof cites these and unfolds
no work and no footprint. -/

namespace Sys2Proof.Laws

open Sys2Proof.Machine

@[simp] theorem bsampWork_needs (et : ElemType) (inp : View) (outAddr sx sy : Word) (m : Memory) :
    (bsampWork et inp outAddr sx sy m).needs =
      neededAccesses et inp sx sy ++ bufferAccesses .write et outAddr inp.d := rfl

@[simp] theorem bsampWork_may (et : ElemType) (inp : View) (outAddr sx sy : Word) (m : Memory) :
    (bsampWork et inp outAddr sx sy m).may =
      sampleAccesses et inp sx sy := rfl

@[simp] theorem bsampWork_stores (et : ElemType) (inp : View) (outAddr sx sy : Word) (m : Memory) :
    (bsampWork et inp outAddr sx sy m).stores =
      bufferCells et outAddr inp.d fun c => bilinear et m inp sx sy c := rfl

@[simp] theorem bsampWork_degen (et : ElemType) (inp : View) (outAddr sx sy : Word) (m : Memory) :
    (bsampWork et inp outAddr sx sy m).degen =
      false := rfl

@[simp] theorem affineWork_needs (et : ElemType) (inp out : View) (offX offY : Int) (t0 t1 t2 t3 : Word) (m : Memory) :
    (affineWork et inp out offX offY t0 t1 t2 t3 m).needs =
      warpAccesses et inp out (fun ix iy => [affineCoord inp out offX offY t0 t1 t2 t3 ix iy]) ++ viewAccesses .write et out := rfl

@[simp] theorem affineWork_may (et : ElemType) (inp out : View) (offX offY : Int) (t0 t1 t2 t3 : Word) (m : Memory) :
    (affineWork et inp out offX offY t0 t1 t2 t3 m).may =
      viewAccesses .read et inp := rfl

@[simp] theorem affineWork_stores (et : ElemType) (inp out : View) (offX offY : Int) (t0 t1 t2 t3 : Word) (m : Memory) :
    (affineWork et inp out offX offY t0 t1 t2 t3 m).stores =
      viewCells et out fun ix iy c => bilinear et m inp (affineCoord inp out offX offY t0 t1 t2 t3 ix iy).1
        (affineCoord inp out offX offY t0 t1 t2 t3 ix iy).2 c := rfl

@[simp] theorem affineWork_degen (et : ElemType) (inp out : View) (offX offY : Int) (t0 t1 t2 t3 : Word) (m : Memory) :
    (affineWork et inp out offX offY t0 t1 t2 t3 m).degen =
      false := rfl

@[simp] theorem croprsWork_needs (et : ElemType) (inp out : View) (left top : Int) (cropW cropH : Nat) (m : Memory) :
    (croprsWork et inp out left top cropW cropH m).needs =
      warpAccesses et inp out (cropSamples out left top cropW cropH) ++ viewAccesses .write et out := rfl

@[simp] theorem croprsWork_may (et : ElemType) (inp out : View) (left top : Int) (cropW cropH : Nat) (m : Memory) :
    (croprsWork et inp out left top cropW cropH m).may =
      viewAccesses .read et inp := rfl

@[simp] theorem croprsWork_stores (et : ElemType) (inp out : View) (left top : Int) (cropW cropH : Nat) (m : Memory) :
    (croprsWork et inp out left top cropW cropH m).stores =
      viewCells et out fun ox oy c => cropValue et m inp out left top cropW cropH ox oy c := rfl

@[simp] theorem croprsWork_degen (et : ElemType) (inp out : View) (left top : Int) (cropW cropH : Nat) (m : Memory) :
    (croprsWork et inp out left top cropW cropH m).degen =
      false := rfl

@[simp] theorem conv2dWork_needs (inp : View) (filt : Filter) (out : View) (m : Memory) :
    (conv2dWork inp filt out m).needs =
      viewAccesses .read .f32 inp ++ bufferAccesses .read .f32 filt.addr (filterCount filt) ++ viewAccesses .write .f32 out := rfl

@[simp] theorem conv2dWork_may (inp : View) (filt : Filter) (out : View) (m : Memory) :
    (conv2dWork inp filt out m).may =
      [] := rfl

@[simp] theorem conv2dWork_stores (inp : View) (filt : Filter) (out : View) (m : Memory) :
    (conv2dWork inp filt out m).stores =
      viewCells .f32 out fun x y co => convValue m inp filt x y co := rfl

@[simp] theorem conv2dWork_degen (inp : View) (filt : Filter) (out : View) (m : Memory) :
    (conv2dWork inp filt out m).degen =
      false := rfl

@[simp] theorem addbiasWork_needs (img : View) (baddr : Word) (m : Memory) :
    (addbiasWork img baddr m).needs =
      viewAccesses .read .f32 img ++ bufferAccesses .read .f32 baddr img.d ++ viewAccesses .write .f32 img := rfl

@[simp] theorem addbiasWork_may (img : View) (baddr : Word) (m : Memory) :
    (addbiasWork img baddr m).may =
      [] := rfl

@[simp] theorem addbiasWork_stores (img : View) (baddr : Word) (m : Memory) :
    (addbiasWork img baddr m).stores =
      viewCells .f32 img fun x y c => biasedPix m img baddr x y c := rfl

@[simp] theorem addbiasWork_degen (img : View) (baddr : Word) (m : Memory) :
    (addbiasWork img baddr m).degen =
      false := rfl

@[simp] theorem reluWork_needs (inp out : View) (m : Memory) :
    (reluWork inp out m).needs =
      viewAccesses .read .f32 inp ++ viewAccesses .write .f32 out := rfl

@[simp] theorem reluWork_may (inp out : View) (m : Memory) :
    (reluWork inp out m).may =
      [] := rfl

@[simp] theorem reluWork_stores (inp out : View) (m : Memory) :
    (reluWork inp out m).stores =
      bufferCells .f32 out.addr (viewCount inp) fun i => relu1 (loadElem .f32 m inp.addr i) := rfl

@[simp] theorem reluWork_degen (inp out : View) (m : Memory) :
    (reluWork inp out m).degen =
      false := rfl

@[simp] theorem biasreluWork_needs (inp : View) (baddr : Word) (out : View) (m : Memory) :
    (biasreluWork inp baddr out m).needs =
      viewAccesses .read .f32 inp ++ bufferAccesses .read .f32 baddr inp.d ++ viewAccesses .write .f32 out := rfl

@[simp] theorem biasreluWork_may (inp : View) (baddr : Word) (out : View) (m : Memory) :
    (biasreluWork inp baddr out m).may =
      [] := rfl

@[simp] theorem biasreluWork_stores (inp : View) (baddr : Word) (out : View) (m : Memory) :
    (biasreluWork inp baddr out m).stores =
      viewCells .f32 out fun x y c => relu1 (biasedPix m inp baddr x y c) := rfl

@[simp] theorem biasreluWork_degen (inp : View) (baddr : Word) (out : View) (m : Memory) :
    (biasreluWork inp baddr out m).degen =
      false := rfl

@[simp] theorem maxpool2Work_needs (inp out : View) (m : Memory) :
    (maxpool2Work inp out m).needs =
      poolReads inp out ++ viewAccesses .write .f32 out := rfl

@[simp] theorem maxpool2Work_may (inp out : View) (m : Memory) :
    (maxpool2Work inp out m).may =
      [] := rfl

@[simp] theorem maxpool2Work_stores (inp out : View) (m : Memory) :
    (maxpool2Work inp out m).stores =
      viewCells .f32 out fun ox oy c => poolValue m inp ox oy c := rfl

@[simp] theorem maxpool2Work_degen (inp out : View) (m : Memory) :
    (maxpool2Work inp out m).degen =
      false := rfl

@[simp] theorem softmaxWork_needs (saddr : Word) (n : Nat) (paddr : Word) (m : Memory) :
    (softmaxWork saddr n paddr m).needs =
      bufferAccesses .read .f32 saddr n ++ bufferAccesses .write .f32 paddr n := rfl

@[simp] theorem softmaxWork_may (saddr : Word) (n : Nat) (paddr : Word) (m : Memory) :
    (softmaxWork saddr n paddr m).may =
      [] := rfl

@[simp] theorem softmaxWork_stores (saddr : Word) (n : Nat) (paddr : Word) (m : Memory) :
    (softmaxWork saddr n paddr m).stores =
      bufferCells .f32 paddr n fun i => softmaxProb m saddr n i := rfl

@[simp] theorem softmaxWork_degen (saddr : Word) (n : Nat) (paddr : Word) (m : Memory) :
    (softmaxWork saddr n paddr m).degen =
      (n == 0) := rfl

@[simp] theorem histeqWork_needs (inp out : View) (m : Memory) :
    (histeqWork inp out m).needs =
      viewAccesses .read .u8 inp ++ viewAccesses .write .u8 out := rfl

@[simp] theorem histeqWork_may (inp out : View) (m : Memory) :
    (histeqWork inp out m).may =
      [] := rfl

@[simp] theorem histeqWork_stores (inp out : View) (m : Memory) :
    (histeqWork inp out m).stores =
      (List.range (inp.w * inp.h)).map fun i => (elemAddr .u8 out.addr i,
        BitVec.ofNat 8 (equalized (grayPixels m inp) (readByte m (elemAddr .u8 inp.addr i)).toNat)) := rfl

@[simp] theorem histeqWork_degen (inp out : View) (m : Memory) :
    (histeqWork inp out m).degen =
      isConstant (grayPixels m inp) := rfl

@[simp] theorem otsuWork_needs (inp : View) (raddr : Word) (m : Memory) :
    (otsuWork inp raddr m).needs =
      viewAccesses .read .u8 inp ++ bufferAccesses .write .u8 raddr 1 := rfl

@[simp] theorem otsuWork_may (inp : View) (raddr : Word) (m : Memory) :
    (otsuWork inp raddr m).may =
      [] := rfl

@[simp] theorem otsuWork_stores (inp : View) (raddr : Word) (m : Memory) :
    (otsuWork inp raddr m).stores =
      [(raddr.toNat, BitVec.ofNat 8 (otsuLevel (grayPixels m inp)))] := rfl

@[simp] theorem otsuWork_degen (inp : View) (raddr : Word) (m : Memory) :
    (otsuWork inp raddr m).degen =
      false := rfl

theorem bsampFootprint_cause (et : ElemType) (inp : View) (outAddr : Word) :
    (bsampFootprint et inp outAddr).cause =
      preflight (viewDims 2 inp) []
        [viewBuffer 0 et inp, vectorBuffer 1 et outAddr inp.d]
        [(vectorBuffer 1 et outAddr inp.d, viewBuffer 0 et inp)] := rfl

@[simp] theorem bsampFootprint_ins (et : ElemType) (inp : View) (outAddr : Word) :
    (bsampFootprint et inp outAddr).ins = [extentOf (viewBuffer 0 et inp)] := rfl

@[simp] theorem bsampFootprint_outs (et : ElemType) (inp : View) (outAddr : Word) :
    (bsampFootprint et inp outAddr).outs = [extentOf (vectorBuffer 1 et outAddr inp.d)] := rfl

theorem affineFootprint_cause (et : ElemType) (inp out : View) :
    (affineFootprint et inp out).cause =
      preflight (viewDims 2 inp ++ viewDims 5 out ++ []) [(3, inp.d == out.d)]
        [viewBuffer 0 et inp, viewBuffer 1 et out]
        [(viewBuffer 1 et out, viewBuffer 0 et inp)] := rfl

@[simp] theorem affineFootprint_ins (et : ElemType) (inp out : View) :
    (affineFootprint et inp out).ins = [extentOf (viewBuffer 0 et inp)] := rfl

@[simp] theorem affineFootprint_outs (et : ElemType) (inp out : View) :
    (affineFootprint et inp out).outs = [extentOf (viewBuffer 1 et out)] := rfl

theorem croprsFootprint_cause (et : ElemType) (inp out : View) (cropW cropH : Nat) :
    (croprsFootprint et inp out cropW cropH).cause =
      preflight (viewDims 2 inp ++ viewDims 5 out ++ [(9, cropW), (9, cropH)]) [(3, inp.d == out.d)]
        [viewBuffer 0 et inp, viewBuffer 1 et out]
        [(viewBuffer 1 et out, viewBuffer 0 et inp)] := rfl

@[simp] theorem croprsFootprint_ins (et : ElemType) (inp out : View) (cropW cropH : Nat) :
    (croprsFootprint et inp out cropW cropH).ins = [extentOf (viewBuffer 0 et inp)] := rfl

@[simp] theorem croprsFootprint_outs (et : ElemType) (inp out : View) (cropW cropH : Nat) :
    (croprsFootprint et inp out cropW cropH).outs = [extentOf (viewBuffer 1 et out)] := rfl

theorem conv2dFootprint_cause (inp : View) (filt : Filter) (out : View) :
    (conv2dFootprint inp filt out).cause =
      preflight (viewDims 2 inp ++ viewDims 5 out ++ [(8, filt.fw), (8, filt.fh), (9, filt.ci), (9, filt.co)]) [(1, decide ((out.w : Int) = inp.w - filt.fw + 1)), (2, decide ((out.h : Int) = inp.h - filt.fh + 1)),
          (4, filt.ci == inp.d), (5, filt.co == out.d)]
        [viewBuffer 0 .f32 inp, viewBuffer 1 .f32 out, filterBuffer 2 filt]
        [(viewBuffer 1 .f32 out, viewBuffer 0 .f32 inp), (viewBuffer 1 .f32 out, filterBuffer 2 filt)] := rfl

@[simp] theorem conv2dFootprint_ins (inp : View) (filt : Filter) (out : View) :
    (conv2dFootprint inp filt out).ins = [extentOf (viewBuffer 0 .f32 inp), extentOf (filterBuffer 2 filt)] := rfl

@[simp] theorem conv2dFootprint_outs (inp : View) (filt : Filter) (out : View) :
    (conv2dFootprint inp filt out).outs = [extentOf (viewBuffer 1 .f32 out)] := rfl

theorem addbiasFootprint_cause (img : View) (baddr : Word) :
    (addbiasFootprint img baddr).cause =
      preflight (viewDims 2 img) []
        [viewBuffer 0 .f32 img, vectorBuffer 2 .f32 baddr img.d]
        [(viewBuffer 0 .f32 img, vectorBuffer 2 .f32 baddr img.d)] := rfl

@[simp] theorem addbiasFootprint_ins (img : View) (baddr : Word) :
    (addbiasFootprint img baddr).ins = [extentOf (viewBuffer 0 .f32 img), extentOf (vectorBuffer 2 .f32 baddr img.d)] := rfl

@[simp] theorem addbiasFootprint_outs (img : View) (baddr : Word) :
    (addbiasFootprint img baddr).outs = [extentOf (viewBuffer 0 .f32 img)] := rfl

theorem reluFootprint_cause (inp out : View) :
    (reluFootprint inp out).cause =
      preflight (viewDims 2 inp ++ viewDims 5 out) (sameShape inp out)
        [viewBuffer 0 .f32 inp, viewBuffer 1 .f32 out]
        [(viewBuffer 1 .f32 out, viewBuffer 0 .f32 inp)] := rfl

@[simp] theorem reluFootprint_ins (inp out : View) :
    (reluFootprint inp out).ins = [extentOf (viewBuffer 0 .f32 inp)] := rfl

@[simp] theorem reluFootprint_outs (inp out : View) :
    (reluFootprint inp out).outs = [extentOf (viewBuffer 1 .f32 out)] := rfl

theorem biasreluFootprint_cause (inp : View) (baddr : Word) (out : View) :
    (biasreluFootprint inp baddr out).cause =
      preflight (viewDims 2 inp ++ viewDims 5 out) (sameShape inp out)
        [viewBuffer 0 .f32 inp, viewBuffer 1 .f32 out, vectorBuffer 2 .f32 baddr inp.d]
        ((if out.addr = inp.addr then [] else [(viewBuffer 1 .f32 out, viewBuffer 0 .f32 inp)]) ++
          [(viewBuffer 1 .f32 out, vectorBuffer 2 .f32 baddr inp.d)]) := rfl

@[simp] theorem biasreluFootprint_ins (inp : View) (baddr : Word) (out : View) :
    (biasreluFootprint inp baddr out).ins = [extentOf (viewBuffer 0 .f32 inp), extentOf (vectorBuffer 2 .f32 baddr inp.d)] := rfl

@[simp] theorem biasreluFootprint_outs (inp : View) (baddr : Word) (out : View) :
    (biasreluFootprint inp baddr out).outs = [extentOf (viewBuffer 1 .f32 out)] := rfl

theorem maxpool2Footprint_cause (inp out : View) :
    (maxpool2Footprint inp out).cause =
      preflight (viewDims 2 inp ++ viewDims 5 out) [(1, out.w == inp.w / 2), (2, out.h == inp.h / 2), (3, out.d == inp.d)]
        [viewBuffer 0 .f32 inp, viewBuffer 1 .f32 out]
        [(viewBuffer 1 .f32 out, viewBuffer 0 .f32 inp)] := rfl

@[simp] theorem maxpool2Footprint_ins (inp out : View) :
    (maxpool2Footprint inp out).ins = [extentOf (viewBuffer 0 .f32 inp)] := rfl

@[simp] theorem maxpool2Footprint_outs (inp out : View) :
    (maxpool2Footprint inp out).outs = [extentOf (viewBuffer 1 .f32 out)] := rfl

theorem softmaxFootprint_cause (saddr : Word) (n : Nat) (paddr : Word) :
    (softmaxFootprint saddr n paddr).cause =
      preflight [] []
        [vectorBuffer 0 .f32 saddr n, vectorBuffer 1 .f32 paddr n]
        [(vectorBuffer 1 .f32 paddr n, vectorBuffer 0 .f32 saddr n)] := rfl

@[simp] theorem softmaxFootprint_ins (saddr : Word) (n : Nat) (paddr : Word) :
    (softmaxFootprint saddr n paddr).ins = [extentOf (vectorBuffer 0 .f32 saddr n)] := rfl

@[simp] theorem softmaxFootprint_outs (saddr : Word) (n : Nat) (paddr : Word) :
    (softmaxFootprint saddr n paddr).outs = [extentOf (vectorBuffer 1 .f32 paddr n)] := rfl

theorem histeqFootprint_cause (inp out : View) :
    (histeqFootprint inp out).cause =
      preflight (viewDims 2 inp ++ viewDims 5 out) [(1, out.w == inp.w), (2, out.h == inp.h), (3, out.d == inp.d), (6, inp.d == 1)]
        [viewBuffer 0 .u8 inp, viewBuffer 1 .u8 out]
        [(viewBuffer 1 .u8 out, viewBuffer 0 .u8 inp)] := rfl

@[simp] theorem histeqFootprint_ins (inp out : View) :
    (histeqFootprint inp out).ins = [extentOf (viewBuffer 0 .u8 inp)] := rfl

@[simp] theorem histeqFootprint_outs (inp out : View) :
    (histeqFootprint inp out).outs = [extentOf (viewBuffer 1 .u8 out)] := rfl

theorem otsuFootprint_cause (inp : View) (raddr : Word) :
    (otsuFootprint inp raddr).cause =
      preflight (viewDims 2 inp) [(6, inp.d == 1)]
        [viewBuffer 0 .u8 inp, vectorBuffer 1 .u8 raddr 1]
        [(vectorBuffer 1 .u8 raddr 1, viewBuffer 0 .u8 inp)] := rfl

@[simp] theorem otsuFootprint_ins (inp : View) (raddr : Word) :
    (otsuFootprint inp raddr).ins = [extentOf (viewBuffer 0 .u8 inp)] := rfl

@[simp] theorem otsuFootprint_outs (inp : View) (raddr : Word) :
    (otsuFootprint inp raddr).outs = [extentOf (vectorBuffer 1 .u8 raddr 1)] := rfl

end Sys2Proof.Laws
end

