-- ==== Sys2Proof/Tests/Slice0.lean ====
section
/-! SUPPORT. Tests: the well-formedness checks, a descriptor of every command from the spec's encodings, one or two steps of
every command from the spec's vectors (95_test_vectors.md), and for every statement a case that meets its hypotheses. -/

namespace Sys2Proof.Tests

set_option Elab.async false

open Sys2Proof.Machine Sys2Proof.Safety

/-! ### Helpers -/

/-- Memory that holds these words at these addresses. -/
def words (ws : List (Nat × Word)) : Memory := writeCells [] (ws.flatMap fun p => wordCells p.1 p.2)

/-- Memory that holds consecutive words from an address. -/
def wordsFrom (a : Nat) (ws : List Word) : List (Nat × Word) := (List.range ws.length).map fun k => (a + 4 * k, ws.getD k 0)

/-- Memory that holds consecutive bytes from an address. -/
def bytesAt (a : Nat) (bs : List Byte) : Memory := writeCells [] (cellsFrom a bs)

/-- A running engine at `0x100` with this memory. -/
def running (m : Memory) : State := { State.reset with engine := .run, cp := 0x100, mem := m }

/-- A running engine with empty memory. -/
def quiet : State := running []

/-- A running engine about to fetch this descriptor at `0x100`. -/
def atDesc (d : Desc) : State := running (writeCells [] (cellsFrom 0x100 (bytesOfDesc d)))

/-- The next state of an outcome, if it is one. -/
def next? : Host.Outcome State Fault Refusal → Option State
  | .next t => some t
  | .fault _ => none
  | .refused _ => none

/-- What a check of the next state says; `false` where there is none. -/
def after (o : Host.Outcome State Fault Refusal) (f : State → Bool) : Bool := (next? o).any f

/-- The consecutive words memory holds from an address. -/
def dump (t : State) (a n : Nat) : List Word := (List.range n).map fun k => readWord t.mem (a + 4 * k)

/-- The consecutive bytes memory holds from an address. -/
def dumpBytes (t : State) (a n : Nat) : List Nat := (List.range n).map fun k => (readByte t.mem (a + k)).toNat

/-! ### Well-formedness: each check refuses a term (R5, R92, R97, R99, R101, R104) -/

theorem test_wf_width : Instr.wf (.relu ⟨0, 65536, 1, 1⟩ ⟨0, 1, 1, 1⟩) = false := by decide
theorem test_wf_height : Instr.wf (.otsu ⟨0, 1, 65536, 1⟩ 0) = false := by decide
theorem test_wf_depth : Instr.wf (.bsamp .u8 ⟨0, 1, 1, 65536⟩ 0 0 0) = false := by decide
theorem test_wf_out : Instr.wf (.maxpool2 ⟨0, 1, 1, 1⟩ ⟨0, 1, 65536, 1⟩) = false := by decide
theorem test_wf_filter : Instr.wf (.conv2d ⟨0, 1, 1, 1⟩ ⟨0, 1, 1, 1, 65536⟩ ⟨0, 1, 1, 1⟩) = false := by decide
theorem test_wf_offset_high : Instr.wf (.affine .u8 ⟨0, 1, 1, 1⟩ ⟨0, 1, 1, 1⟩ (2 ^ 31) 0 0 0 0 0) = false := by decide
theorem test_wf_offset_low : Instr.wf (.croprs .u8 ⟨0, 1, 1, 1⟩ ⟨0, 1, 1, 1⟩ 0 (-2 ^ 31 - 1) 1 1) = false := by decide
theorem test_wf_crop : Instr.wf (.croprs .u8 ⟨0, 1, 1, 1⟩ ⟨0, 1, 1, 1⟩ 0 0 1 65536) = false := by decide
theorem test_wf_count : Instr.wf (.softmax 0 (2 ^ 32) 0) = false := by decide

/-! ### Decoding: descriptors written out in the spec, one for every command -/

/-- P1, 0x1C0. -/
theorem test_decode_end : decode { w0 := 0x00000001 } = .ok .endCmd := by decide +kernel
/-- P2, 0x240. -/
theorem test_decode_jump : decode { w0 := 0x00000002, w1 := 0x000002C0 } = .ok (.jump 0x2C0) := by decide +kernel
/-- P3, 0x8000. -/
theorem test_decode_nop : decode { w0 := 0x00000003 } = .ok .nop := by decide +kernel
/-- V-BS8. -/
theorem test_decode_bsamp :
    decode { w0 := 0x00000110, w1 := 0x00001000, w2 := 0x00020002, w3 := 0x00000001, w4 := 0x00002000,
             w7 := 0x3E800000, w8 := 0x3F400000 } =
      .ok (.bsamp .f32 ⟨0x1000, 2, 2, 1⟩ 0x2000 0x3E800000 0x3F400000) := by decide +kernel
/-- V-AF7. -/
theorem test_decode_affine :
    decode { w0 := 0x00000011, w1 := 0x00001000, w2 := 0x00020002, w3 := 0x00000003, w4 := 0x00002000,
             w5 := 0x00020002, w6 := 0x00000003, w7 := 0x00000001, w9 := 0x3F800000, w12 := 0x3F800000 } =
      .ok (.affine .u8 ⟨0x1000, 2, 2, 3⟩ ⟨0x2000, 2, 2, 3⟩ 1 0 0x3F800000 0 0 0x3F800000) := by decide +kernel
/-- V-CR7: the origin is negative. -/
theorem test_decode_croprs :
    decode { w0 := 0x00000112, w1 := 0x00001000, w2 := 0x00040004, w3 := 0x00000001, w4 := 0x00002000,
             w5 := 0x00010001, w6 := 0x00000001, w7 := 0xFFFFFFFF, w8 := 0xFFFFFFFF, w9 := 0x00020002 } =
      .ok (.croprs .f32 ⟨0x1000, 4, 4, 1⟩ ⟨0x2000, 1, 1, 1⟩ (-1) (-1) 2 2) := by decide +kernel
/-- P1, 0x100: `CO` is the high half of `W9`. -/
theorem test_decode_conv2d :
    decode { w0 := 0x00000020, w1 := 0x00001000, w2 := 0x00040004, w3 := 0x00000001, w4 := 0x00003000,
             w5 := 0x00030003, w6 := 0x00000002, w7 := 0x00002000, w8 := 0x00020002, w9 := 0x00020001 } =
      .ok (.conv2d ⟨0x1000, 4, 4, 1⟩ ⟨0x2000, 2, 2, 1, 2⟩ ⟨0x3000, 3, 3, 2⟩) := by decide +kernel
/-- V-F38: the words, whose check fails only in execution. -/
theorem test_decode_addbias :
    decode { w0 := 0x30, w1 := 0x1000, w2 := 0x20002, w3 := 1, w7 := 0x100C } =
      .ok (.addbias ⟨0x1000, 2, 2, 1⟩ 0x100C) := by decide +kernel
/-- P3, 0x8040: `OUT.W` is 3 and `OUT.H` is 2. -/
theorem test_decode_relu :
    decode { w0 := 0x00000031, w1 := 0x00001000, w2 := 0x00020002, w3 := 0x00000001, w4 := 0x00001100,
             w5 := 0x00020003, w6 := 0x00000001 } = .ok (.relu ⟨0x1000, 2, 2, 1⟩ ⟨0x1100, 3, 2, 1⟩) := by decide +kernel
/-- P1, 0x140. -/
theorem test_decode_biasrelu :
    decode { w0 := 0x00000032, w1 := 0x00003000, w2 := 0x00030003, w3 := 0x00000002, w4 := 0x00003000,
             w5 := 0x00030003, w6 := 0x00000002, w7 := 0x00002100 } =
      .ok (.biasrelu ⟨0x3000, 3, 3, 2⟩ 0x2100 ⟨0x3000, 3, 3, 2⟩) := by decide +kernel
/-- V-F20: a 5 by 3 input. -/
theorem test_decode_maxpool2 :
    decode { w0 := 0x40, w1 := 0x1000, w2 := 0x30005, w3 := 1, w4 := 0x2000, w5 := 0x20002, w6 := 1 } =
      .ok (.maxpool2 ⟨0x1000, 5, 3, 1⟩ ⟨0x2000, 2, 2, 1⟩) := by decide +kernel
/-- P4, 0x400. -/
theorem test_decode_softmax :
    decode { w0 := 0x00000050, w1 := 0x00001000, w2 := 0x00000004, w4 := 0x00001100 } =
      .ok (.softmax 0x1000 4 0x1100) := by decide +kernel
/-- P2, 0x300. -/
theorem test_decode_histeq :
    decode { w0 := 0x00000060, w1 := 0x00001000, w2 := 0x00040004, w3 := 0x00000001, w4 := 0x00001300,
             w5 := 0x00040004, w6 := 0x00000001 } = .ok (.histeq ⟨0x1000, 4, 4, 1⟩ ⟨0x1300, 4, 4, 1⟩) := by decide +kernel
/-- P2, 0x2C0. -/
theorem test_decode_otsu :
    decode { w0 := 0x00000061, w1 := 0x00001000, w2 := 0x00040004, w3 := 0x00000001, w4 := 0x00001200 } =
      .ok (.otsu ⟨0x1000, 4, 4, 1⟩ 0x1200) := by decide +kernel
/-- V-F1, V-F6, V-F7: refused by name. -/
theorem test_decode_refused :
    decode {} = .error (.illegalOpcode 0) ∧
    decode { w0 := 0x131, w1 := 0x1000, w2 := 0x20002, w3 := 1, w4 := 0x2000, w5 := 0x20002, w6 := 1 } =
      .error (.reservedField 0) ∧
    decode { w0 := 0x30, w1 := 0x1000, w2 := 0x20002, w3 := 1, w5 := 1, w7 := 0x2000 } = .error (.reservedField 5) := by
  decide +kernel
/-- R110: the first eight bytes of the descriptor in memory. -/
theorem test_encode_bytes :
    (bytesOfDesc (encode (.conv2d ⟨0x1000, 3, 3, 1⟩ ⟨0x2000, 2, 2, 1, 1⟩ ⟨0x3000, 2, 2, 1⟩))).take 8 =
      [0x20, 0, 0, 0, 0, 0x10, 0, 0] := by decide +kernel

/-! ### Binary32 (V-PR3 to V-PR13) -/

theorem test_i2f : i2f 16777217 = 0x4B800000 ∧ i2f 16777219 = 0x4B800002 ∧ i2f (-1) = 0xBF800000 ∧
    i2f 65535 = 0x477FFF00 := by decide +kernel
theorem test_fdiv : fdiv 0x3F800000 0 = 0x7F800000 ∧ fdiv 0xBF800000 0 = 0xFF800000 ∧ fdiv 0 0 = 0x7FC00000 := by
  decide +kernel
theorem test_f2u8 : f2u8 0x40600000 = 4 ∧ f2u8 0x40200000 = 2 ∧ f2u8 0x437E8000 = 254 ∧ f2u8 0x437E8001 = 255 ∧
    f2u8 0x3EFFFFFF = 0 ∧ f2u8 0xFF800000 = 0 ∧ f2u8 0x7F800000 = 255 := by decide +kernel

/-! ### One step of each command -/

/-- V-SQ2: `CP` wraps at the top of the address space. -/
theorem test_nop_wraps :
    after (exec .nop { State.reset with engine := .run, cp := 0xFFFFFFC0 })
      (fun t => t.cp == 0 && t.cmdCnt == 1 && t.engine == .run) = true := by decide +kernel
/-- R188's example. -/
theorem test_end : after (exec .endCmd { State.reset with engine := .run, cp := 0x1C0, stopReq := true })
    (fun t => t.cp == 0x200 && t.engine == .idle && t.intstat == 1 && t.stopReq == false) = true := by decide +kernel
/-- V-SQ3, V-F29. -/
theorem test_jump : after (exec (.jump 0x4000) { State.reset with engine := .run, cp := 0x1040 }) (fun t => t.cp == 0x4000) = true ∧
    after (exec (.jump 0x2020) (running [])) (fun t => t.errCode == 5 && t.errInfo == 3 && t.cp == 0x100) = true := by
  decide +kernel
/-- The 2 by 2 image of V-BS1 to V-BS10. -/
def grid : State := running (words (wordsFrom 0x1000 [0x41200000, 0x41A00000, 0x41F00000, 0x42200000]))
/-- V-BS8, V-BS3. -/
theorem test_bsamp_f32 :
    after (exec (.bsamp .f32 ⟨0x1000, 2, 2, 1⟩ 0x2000 0x3E800000 0x3F400000) grid) (fun t => dump t 0x2000 1 == [0x41DC0000]) = true ∧
    after (exec (.bsamp .f32 ⟨0x1000, 2, 2, 1⟩ 0x2000 0xBF000000 0) grid) (fun t => dump t 0x2000 1 == [0x40A00000]) = true := by
  decide +kernel
/-- V-BS11: three channels of 8 bits. -/
theorem test_bsamp_u8 :
    after (exec (.bsamp .u8 ⟨0x1000, 2, 1, 3⟩ 0x2000 0x3E800000 0) (running (bytesAt 0x1000 [10, 20, 30, 50, 60, 70])))
      (fun t => dumpBytes t 0x2000 4 == [20, 30, 40, 0]) = true := by decide +kernel
/-- V-AF7. -/
theorem test_affine :
    after (exec (.affine .u8 ⟨0x1000, 2, 2, 3⟩ ⟨0x2000, 2, 2, 3⟩ 1 0 0x3F800000 0 0 0x3F800000)
        (running (bytesAt 0x1000 [1, 2, 3, 4, 5, 6, 7, 8, 9, 10, 11, 12])))
      (fun t => dumpBytes t 0x2000 12 == [4, 5, 6, 0, 0, 0, 10, 11, 12, 0, 0, 0]) = true := by decide +kernel
/-- The bytes 1 to 16. -/
def ramp : State := running (bytesAt 0x1000 [1, 2, 3, 4, 5, 6, 7, 8, 9, 10, 11, 12, 13, 14, 15, 16])
/-- V-CR2: the first samples lie outside the image. -/
theorem test_croprs_u8 :
    after (exec (.croprs .u8 ⟨0x1000, 4, 4, 1⟩ ⟨0x2000, 2, 2, 1⟩ 0 0 3 3) ramp)
      (fun t => dumpBytes t 0x2000 4 == [2, 4, 8, 10]) = true := by decide +kernel
/-- V-CR7, the first pixel alone: a crop partly outside the image. -/
theorem test_croprs_f32 :
    after (exec (.croprs .f32 ⟨0x1000, 4, 4, 1⟩ ⟨0x2000, 1, 1, 1⟩ (-1) (-1) 2 2) (running (words [(0x1000, 0x3F800000)])))
      (fun t => dump t 0x2000 1 == [0x3E800000]) = true := by decide +kernel
/-- V-CV2: filter index order. -/
theorem test_conv2d :
    after (exec (.conv2d ⟨0x1000, 2, 2, 2⟩ ⟨0x2000, 1, 1, 2, 2⟩ ⟨0x3000, 2, 2, 2⟩)
        (running (words (wordsFrom 0x1000 [0x3F800000, 0x40000000, 0x40400000, 0x40800000, 0x40A00000, 0x40C00000,
          0x40E00000, 0x41000000] ++ wordsFrom 0x2000 [0x3F800000, 0x41200000, 0x42C80000, 0x447A0000]))))
      (fun t => dump t 0x3000 3 == [0x43490000, 0x44FB4000, 0x43C98000]) = true := by decide +kernel
/-- V-CV4, V-CV5: accumulation order. -/
theorem test_conv2d_order :
    after (exec (.conv2d ⟨0x1000, 3, 1, 1⟩ ⟨0x2000, 1, 3, 1, 1⟩ ⟨0x3000, 1, 1, 1⟩)
        (running (words (wordsFrom 0x1000 [0x4B800000, 0x3F800000, 0x3F800000] ++
          wordsFrom 0x2000 [0x3F800000, 0x3F800000, 0x3F800000])))) (fun t => dump t 0x3000 1 == [0x4B800000]) = true ∧
    after (exec (.conv2d ⟨0x1000, 3, 1, 1⟩ ⟨0x2000, 1, 3, 1, 1⟩ ⟨0x3000, 1, 1, 1⟩)
        (running (words (wordsFrom 0x1000 [0x3F800000, 0x3F800000, 0x4B800000] ++
          wordsFrom 0x2000 [0x3F800000, 0x3F800000, 0x3F800000])))) (fun t => dump t 0x3000 1 == [0x4B800001]) = true := by
  decide +kernel
/-- V-BR1. -/
theorem test_addbias :
    after (exec (.addbias ⟨0x1000, 2, 1, 2⟩ 0x2000)
        (running (words (wordsFrom 0x1000 [0x3F800000, 0x40000000, 0x40400000, 0x40800000] ++
          wordsFrom 0x2000 [0x41200000, 0xC0000000]))))
      (fun t => dump t 0x1000 4 == [0x41300000, 0, 0x41500000, 0x40000000]) = true := by decide +kernel
/-- V-BR3: NaN, the infinities and a subnormal. -/
theorem test_relu :
    after (exec (.relu ⟨0x1000, 2, 2, 1⟩ ⟨0x2000, 2, 2, 1⟩)
        (running (words (wordsFrom 0x1000 [0x7FC00001, 0x7F800000, 0xFF800000, 0x00000001]))))
      (fun t => dump t 0x2000 4 == [0, 0x7F800000, 0, 1]) = true := by decide +kernel
/-- V-BR5: in place. -/
theorem test_biasrelu :
    after (exec (.biasrelu ⟨0x1000, 2, 1, 2⟩ 0x2000 ⟨0x1000, 2, 1, 2⟩)
        (running (words (wordsFrom 0x1000 [0x3F800000, 0x40000000, 0x40400000, 0xC0800000] ++
          wordsFrom 0x2000 [0xC0000000, 0x3F800000]))))
      (fun t => dump t 0x1000 4 == [0, 0x40400000, 0x3F800000, 0]) = true := by decide +kernel
/-- V-MP3, V-MP4, V-MP5: a NaN first, a NaN later, signed zeros. -/
theorem test_maxpool2 :
    after (exec (.maxpool2 ⟨0x1000, 6, 2, 1⟩ ⟨0x2000, 3, 1, 1⟩)
        (running (words (wordsFrom 0x1000 [0x7FC00001, 0x3F800000, 0x3F800000, 0x7FC00000, 0x80000000, 0,
          0x40000000, 0x40400000, 0x40000000, 0x40400000, 0x80000000, 0]))))
      (fun t => dump t 0x2000 3 == [0x7FC00001, 0x40400000, 0x80000000]) = true := by decide +kernel
/-- V-SM6, and V-F30: the alignment is checked even for `N = 0`. -/
theorem test_softmax_empty :
    after (exec (.softmax 0x1000 0 0x1000) (running [])) (fun t => t.flags == 1 && t.cmdCnt == 1) = true ∧
    after (exec (.softmax 0x1002 0 0x2000) (running [])) (fun t => t.errCode == 5 && t.errInfo == 0) = true := by
  decide +kernel
/-- V-SM8 reads the exponential only at a zero and a NaN. The open exponential keeps the kernel from computing the rest, so
the maximum is tested (V-SM11): an infinity below, then two equal scores. -/
theorem test_softmax_max : softmaxMax (words (wordsFrom 0x1000 [0xFF800000, 0x40A00000, 0x40A00000])) 0x1000 3 = 0x40A00000 := by
  decide +kernel
/-- V-HE3 (halves up), V-HE4 (constant image). -/
theorem test_histeq :
    after (exec (.histeq ⟨0x1000, 2, 2, 1⟩ ⟨0x2000, 2, 2, 1⟩) (running (bytesAt 0x1000 [5, 5, 7, 9])))
      (fun t => dumpBytes t 0x2000 4 == [0, 0, 128, 255] && t.flags == 0) = true ∧
    after (exec (.histeq ⟨0x1000, 3, 2, 1⟩ ⟨0x2000, 3, 2, 1⟩) (running (bytesAt 0x1000 [77, 77, 77, 77, 77, 77])))
      (fun t => dumpBytes t 0x2000 6 == [77, 77, 77, 77, 77, 77] && t.flags == 1) = true := by decide +kernel
/-- V-OT1, V-OT2: ties go to the highest level. -/
theorem test_otsu :
    after (exec (.otsu ⟨0x1000, 2, 5, 1⟩ 0x2000) (running (bytesAt 0x1000 [10, 10, 10, 10, 10, 20, 20, 20, 20, 20])))
      (fun t => dumpBytes t 0x2000 1 == [19]) = true ∧
    after (exec (.otsu ⟨0x1000, 2, 2, 1⟩ 0x2000) (running (bytesAt 0x1000 [0, 0, 255, 255])))
      (fun t => dumpBytes t 0x2000 1 == [254]) = true := by decide +kernel

/-! ### The sequencer and the host's side -/

/-- V-F44, V-F13b, V-F19: the first failure in R211's order. -/
theorem test_priority :
    after (step (atDesc { w0 := 0x31, w1 := 0x1000, w2 := 0x20000, w3 := 0x10001, w4 := 0x2000, w5 := 0x20002, w6 := 1 }))
      (fun t => t.errCode == 2 && t.errInfo == 3 && t.errCp == 0x100 && t.engine == .faulted) = true ∧
    after (step (atDesc { w0 := 0x40, w1 := 0x1000, w2 := 0x20001, w3 := 1, w4 := 0x2000, w5 := 0x10001, w6 := 1 }))
      (fun t => t.errCode == 4 && t.errInfo == 1) = true := by decide +kernel
/-- V-SQ6: started with a stop already requested. -/
theorem test_start_stop :
    after (hostAccess (.write 0xFFFFF004 (bytesOfWord 3)) State.reset)
      (fun t => t.engine == .run && t.stopReq && after (step t)
        (fun u => u.engine == .idle && !u.stopReq && u.intstat == 4 && u.cmdCnt == 0)) = true := by decide +kernel
/-- V-SQ4, V-SQ5. -/
theorem test_cp_write :
    after (hostAccess (.write 0xFFFFF00C (bytesOfWord 0x12345678)) State.reset) (fun t => t.cp == 0x12345640) = true ∧
    after (hostAccess (.write 0xFFFFF00C (bytesOfWord 0x12345678)) (running [])) (fun t => t.cp == 0x100) = true := by
  decide +kernel
/-- A stop request that lands inside a command is dropped by an `END` (R188), and kept by a `NOP` until the next step. -/
theorem test_stop_inside :
    after (step { atDesc { w0 := 1 } with schedule := [.engine [] [.write 0xFFFFF004 (bytesOfWord 2)]] })
      (fun t => t.engine == .idle && !t.stopReq && t.intstat == 1) = true ∧
    after (step { atDesc { w0 := 3 } with schedule := [.engine [] [.write 0xFFFFF004 (bytesOfWord 2)]] })
      (fun t => t.engine == .run && t.stopReq && t.cmdCnt == 1) = true := by decide +kernel
/-- R29, R37, R217: the engine's set and the host's clear of a bit in one step leave it set: `DONE`, `STOPPED`, `DEGEN`. -/
theorem test_set_wins :
    after (step { atDesc { w0 := 1 } with schedule := [.engine [] [.write 0xFFFFF018 (bytesOfWord 7)]], intstat := 7 })
      (fun t => t.intstat == 1) = true ∧
    after (step { quiet with schedule := [.engine [] [.write 0xFFFFF018 (bytesOfWord 7)]], stopReq := true })
      (fun t => t.intstat == 4 && t.engine == .idle) = true ∧
    after (step { atDesc { w0 := 0x50, w1 := 4, w4 := 0xFFFFFFFC } with
      schedule := [.engine [] [.write 0xFFFFF010 (bytesOfWord 1)]], flags := 1 }) (fun t => t.flags == 1 && t.cmdCnt == 1) = true := by
  decide +kernel
/-- R241: a reset before the fetch event, then a host write: no latch is loaded, no command runs, the write lands. -/
theorem test_reset_fetching :
    after (step { atDesc { w0 := 1 } with schedule := [.engine [.write 0xFFFFF004 (bytesOfWord 0x80000000)] [.write 0x2000 [7]]] })
      (fun t => t.engine == .idle && t.d == {} && t.cmdCnt == 0 && dumpBytes t 0x2000 1 == [7]) = true := by decide +kernel
/-- R80, U9: a host write after the fetch event does not reach the descriptor: the `NOP` read runs, not the `END` written. -/
theorem test_write_after_fetch :
    after (step { atDesc { w0 := 3 } with schedule := [.engine [] [.write 0x100 [1]]] })
      (fun t => t.d == { w0 := 3 } && t.engine == .run && dumpBytes t 0x100 1 == [1]) = true := by decide +kernel
/-- R75, R78: a host write in `RUN` is kept as unordered, one in `IDLE` is not, and a start orders all of them. -/
theorem test_unordered :
    after (hostAccess (.write 0x100 [1, 2]) quiet) (fun t => t.unordered == [0x100, 0x101]) = true ∧
    after (hostAccess (.write 0x100 [1, 2]) State.reset) (fun t => t.unordered == []) = true ∧
    after (hostAccess (.write 0xFFFFF004 (bytesOfWord 1)) { State.reset with unordered := [0x100] })
      (fun t => t.unordered == [] && t.engine == .run) = true := by decide +kernel
/-- R74, R80: what a command writes is ordered before the next fetch; a host write elsewhere stays unordered. -/
theorem test_engine_write_orders :
    after (step { atDesc { w0 := 0x61, w1 := 0x1000, w2 := 0x10001, w3 := 1, w4 := 0x2000 } with unordered := [0x2000, 0x3000] })
      (fun t => t.unordered == [0x3000] && t.cmdCnt == 1) = true := by decide +kernel
/-- A step runs an instruction placed for it (the host's table word). -/
theorem test_placed : after (step (State.reset.withFetchWord 512 0x3)) (fun t => t.cp == 0x40 && t.cmdCnt == 1) = true := by
  decide +kernel

/-! ### Witnesses: for every statement with hypotheses, a case that meets all of them, clause by clause -/

/-- What `after` shows is a next state. -/
theorem next_of_after {o : Host.Outcome State Fault Refusal} {f : State → Bool} (h : after o f = true) :
    ∃ t, o = .next t ∧ f t = true := by
  cases o with
  | next t => exact ⟨t, rfl, by simpa [after, next?] using h⟩
  | fault r => cases h
  | refused r => cases h

/-- The bounded forms of the checks, which `decide` settles. -/
theorem no_zero_dim {i : Instr} (h : ∀ p ∈ dimFields i, p.2 ≠ 0) : ∀ k, ¬ ZeroDim i k := fun k hk => h (k, 0) hk rfl
theorem no_bad_align {i : Instr} (h : ∀ b ∈ buffers i, b.2.1.toNat % b.2.2.2 = 0) (h3 : ¬ BadAlign i 3) :
    ∀ id, ¬ BadAlign i id := by
  rintro id (⟨b, hb, -, hm⟩ | hj)
  · exact hm (h b hb)
  · cases i <;> simp_all
theorem no_bad_range {i : Instr} (h : ∀ b ∈ buffers i, b.2.1.toNat + b.2.2.1 ≤ 2 ^ 32) : ∀ id, ¬ BadRange i id := by
  rintro id ⟨b, hb, -, hr⟩
  exact absurd (h b hb) (Nat.not_le.mpr hr)
theorem no_bad_overlap {i : Instr} (h : ∀ id ∈ checkedInputs i, ¬ BadOverlap i id) : ∀ id, ¬ BadOverlap i id :=
  fun id hid => h id hid.1 hid

/-- A 2 by 2 binary32 image that ends at 2^32, and one that ends where it begins. -/
def top4 : View := ⟨0xFFFFFFF0, 2, 2, 1⟩
def below4 : View := ⟨0xFFFFFFE0, 2, 2, 1⟩

/-- Every dimension, offset and count at its greatest, and the offsets at their least. -/
theorem witness_decode_encode :
    Instr.wf (.croprs .f32 ⟨0xFFFFFFFF, 65535, 65535, 65535⟩ ⟨0, 65535, 65535, 65535⟩ (-2 ^ 31) (2 ^ 31 - 1) 65535 65535) = true ∧
    Instr.wf (.conv2d ⟨1, 65535, 1, 2⟩ ⟨2, 65535, 1, 65535, 7⟩ ⟨3, 1, 65535, 1⟩) = true ∧
    Instr.wf (.softmax 0 (2 ^ 32 - 1) 0) = true ∧ Instr.wf (.jump 0xFFFFFFFF) = true := by decide

theorem witness_encode_decode : decode { w0 := 2, w1 := 0xFFFFFFFF } = .ok (.jump 0xFFFFFFFF) ∧
    decode { w0 := 0x50, w2 := 0xFFFFFFFF } = .ok (.softmax 0 (2 ^ 32 - 1) 0) := by decide +kernel

/-- Clause 1: every used bit of `CROPRS` set. Clause 2: the lowest word and the highest. Clause 3: both ends of `OPC`. -/
theorem witness_decode_table :
    (∃ row ∈ usedMasks, ∃ d : Desc, d.w0.toNat % 256 = row.1 ∧ d.w9 = 0xFFFFFFFF ∧ ∀ k < 16, ¬ ReservedSet row d k) ∧
    (∃ row ∈ usedMasks, ∃ d : Desc, d.w0.toNat % 256 = row.1 ∧ ReservedSet row d 0 ∧ ∀ j < 0, ¬ ReservedSet row d j) ∧
    (∃ row ∈ usedMasks, ∃ d : Desc, d.w0.toNat % 256 = row.1 ∧ ReservedSet row d 15 ∧ ∀ j < 15, ¬ ReservedSet row d j) ∧
    (∀ row ∈ usedMasks, (0 : Word).toNat % 256 ≠ row.1) ∧ (∀ row ∈ usedMasks, (0xFFFFFFFF : Word).toNat % 256 ≠ row.1) := by
  refine ⟨⟨usedMasks.getD 5 (0, []), by decide,
      ⟨0x112, 0xFFFFFFFF, 0xFFFFFFFF, 0xFFFF, 0xFFFFFFFF, 0xFFFFFFFF, 0xFFFF, 0xFFFFFFFF, 0xFFFFFFFF, 0xFFFFFFFF,
        0, 0, 0, 0, 0, 0⟩, by decide +kernel⟩,
    ⟨usedMasks.getD 0 (0, []), by decide, { w0 := 0x101 }, by decide +kernel⟩,
    ⟨usedMasks.getD 1 (0, []), by decide, { w0 := 2, w1 := 0xFFFFFFFF, w15 := 0x80000000 }, by decide +kernel⟩,
    by decide, by decide⟩

/-- Also with the descriptor in the last 64 bytes of the address space, and with moves to come. -/
theorem witness_step_runs :
    (AtCommand (atDesc (encode (.jump 0x40))) [] ∧ FetchedAt (atDesc (encode (.jump 0x40))) (encode (.jump 0x40)) ∧
      decode (encode (.jump 0x40)) = .ok (.jump 0x40)) ∧
    (let s := { running (writeCells [] (cellsFrom 0xFFFFFFC0 (bytesOfDesc { w0 := 3 }))) with cp := 0xFFFFFFC0 }
     AtCommand s [] ∧ FetchedAt s { w0 := 3 } ∧ decode { w0 := 3 } = .ok .nop) ∧
    (let s := { atDesc { w0 := 3 } with schedule := [.engine [] [], .host (.read 0 1)] }
     AtCommand s [.host (.read 0 1)] ∧ FetchedAt s { w0 := 3 } ∧ decode { w0 := 3 } = .ok .nop) := by decide +kernel

/-- A descriptor whose last byte the host wrote in `RUN`, which may decode or not. -/
theorem witness_step_unordered :
    (let s := { atDesc { w0 := 3 } with unordered := [0x13F] }
     AtCommand s [] ∧ ¬ FetchedAt s { w0 := 3 } ∧ MayFetch s { w0 := 3 } ∧ decode { w0 := 3 } = .ok .nop ∧
     MayFetch s { w0 := 3, w15 := 1 } ∧ decode { w0 := 3, w15 := 1 } = .error (.reservedField 15)) := by decide +kernel

theorem witness_illegal_opcode :
    AtCommand (atDesc { w0 := 0xFFFFFF00, w15 := 1 }) [] ∧ FetchedAt (atDesc { w0 := 0xFFFFFF00, w15 := 1 }) { w0 := 0xFFFFFF00, w15 := 1 } ∧
    ∀ row ∈ usedMasks, (0xFFFFFF00 : Word).toNat % 256 ≠ row.1 := by decide +kernel

theorem witness_reserved_field :
    (let d : Desc := { w0 := 0x103 }
     AtCommand (atDesc d) [] ∧ FetchedAt (atDesc d) d ∧ ReservedSet (usedMasks.getD 2 (0, [])) d 0) ∧
    (let d : Desc := { w0 := 0x61, w5 := 1, w15 := 1 }
     AtCommand (atDesc d) [] ∧ FetchedAt (atDesc d) d ∧ usedMasks.getD 13 (0, []) ∈ usedMasks ∧
       d.w0.toNat % 256 = (usedMasks.getD 13 (0, [])).1 ∧ ReservedSet (usedMasks.getD 13 (0, [])) d 5 ∧
       ∀ j < 5, ¬ ReservedSet (usedMasks.getD 13 (0, [])) d j) := by decide +kernel

/-- Only the last word of the descriptor is denied. -/
theorem witness_fetch_error :
    (let s := { quiet with denied := [⟨.fetch, 4, 0x13C, 0x13C⟩] }
     s.engine = .run ∧ s.resetPin = false ∧ s.stopReq = false ∧ QuietTurn s [] ∧
       ∃ k < 16, isDenied s ⟨.fetch, 4, s.cp.toNat + 4 * k⟩ = true) := by decide

theorem witness_stop : (let s := { quiet with stopReq := true }
    s.engine = .run ∧ s.resetPin = false ∧ s.stopReq = true ∧ QuietTurn s []) := by decide

theorem witness_halted : (QuietTurn State.reset [] ∧ State.reset.engine ≠ .run) ∧
    (let s := { quiet with resetPin := true, schedule := [.engine [] [], .engine [] []] }
     QuietTurn s [.engine [] []] ∧ s.resetPin = true) := by decide

/-- Each transition: none, an honoured stop, an `END`, a fault. -/
theorem witness_transitions :
    (∃ t, step State.reset = .next t ∧ t.engine = .idle) ∧
    (∃ t, step { quiet with stopReq := true } = .next t ∧ t.engine = .idle ∧ t.intstat = 4) ∧
    (∃ t, step (atDesc { w0 := 1 }) = .next t ∧ t.engine = .idle ∧ t.d = { w0 := 1 } ∧ t.intstat = 1) ∧
    (∃ t, step quiet = .next t ∧ t.engine = .faulted ∧ t.errCp = 0x100) := by
  refine ⟨?_, ?_, ?_, ?_⟩
  · simpa using next_of_after (o := step State.reset) (f := fun t => decide (t.engine = .idle)) (by decide +kernel)
  · simpa using next_of_after (o := step { quiet with stopReq := true })
      (f := fun t => decide (t.engine = .idle ∧ t.intstat = 4)) (by decide +kernel)
  · simpa using next_of_after (o := step (atDesc { w0 := 1 }))
      (f := fun t => decide (t.engine = .idle ∧ t.d = { w0 := 1 } ∧ t.intstat = 1)) (by decide +kernel)
  · simpa using next_of_after (o := step quiet) (f := fun t => decide (t.engine = .faulted ∧ t.errCp = 0x100))
      (by decide +kernel)

/-- The lowest word, and the highest. -/
theorem witness_dim_zero :
    (ZeroDim (.otsu ⟨0, 0, 1, 1⟩ 0) 2 ∧ ∀ j < 2, ¬ ZeroDim (.otsu ⟨0, 0, 1, 1⟩ 0) j) ∧
    (ZeroDim (.croprs .u8 ⟨0, 1, 1, 1⟩ ⟨1, 1, 1, 1⟩ 0 0 1 0) 9 ∧
      ∀ j < 9, ¬ ZeroDim (.croprs .u8 ⟨0, 1, 1, 1⟩ ⟨1, 1, 1, 1⟩ 0 0 1 0) j) := by decide

/-- The first sub-code and the last. -/
theorem witness_shape :
    ((∀ k, ¬ ZeroDim (.relu ⟨0, 1, 1, 1⟩ ⟨4, 2, 1, 1⟩) k) ∧ ShapeFails (.relu ⟨0, 1, 1, 1⟩ ⟨4, 2, 1, 1⟩) 1 ∧
      ∀ j < 1, ¬ ShapeFails (.relu ⟨0, 1, 1, 1⟩ ⟨4, 2, 1, 1⟩) j) ∧
    ((∀ k, ¬ ZeroDim (.otsu ⟨0, 1, 1, 2⟩ 9) k) ∧ ShapeFails (.otsu ⟨0, 1, 1, 2⟩ 9) 6 ∧
      ∀ j < 6, ¬ ShapeFails (.otsu ⟨0, 1, 1, 2⟩ 9) j) := by
  refine ⟨⟨no_zero_dim (by decide), by decide, by decide⟩, ⟨no_zero_dim (by decide), by decide, by decide⟩⟩

/-- The first buffer, the last, and a `JUMP`. -/
theorem witness_misaligned :
    ((∀ k, ¬ ZeroDim (.softmax 3 0 0) k) ∧ (∀ sub, ¬ ShapeFails (.softmax 3 0 0) sub) ∧ BadAlign (.softmax 3 0 0) 0 ∧
      ∀ j < 0, ¬ BadAlign (.softmax 3 0 0) j) ∧
    ((∀ k, ¬ ZeroDim (.addbias ⟨0, 1, 1, 1⟩ 5) k) ∧ (∀ sub, ¬ ShapeFails (.addbias ⟨0, 1, 1, 1⟩ 5) sub) ∧
      BadAlign (.addbias ⟨0, 1, 1, 1⟩ 5) 2 ∧ ∀ j < 2, ¬ BadAlign (.addbias ⟨0, 1, 1, 1⟩ 5) j) ∧
    ((∀ k, ¬ ZeroDim (.jump 32) k) ∧ (∀ sub, ¬ ShapeFails (.jump 32) sub) ∧ BadAlign (.jump 32) 3 ∧
      ∀ j < 3, ¬ BadAlign (.jump 32) j) := by
  refine ⟨⟨no_zero_dim (by decide), by simp, by decide, by decide⟩, ⟨no_zero_dim (by decide), by simp, by decide, by decide⟩,
    ⟨no_zero_dim (by decide), by simp, by decide, by decide⟩⟩

/-- One byte too far. -/
theorem witness_addr_range :
    (∀ k, ¬ ZeroDim (.histeq ⟨0xFFFFFFFF, 2, 1, 1⟩ ⟨0, 2, 1, 1⟩) k) ∧
    (∀ sub, ¬ ShapeFails (.histeq ⟨0xFFFFFFFF, 2, 1, 1⟩ ⟨0, 2, 1, 1⟩) sub) ∧
    (∀ b, ¬ BadAlign (.histeq ⟨0xFFFFFFFF, 2, 1, 1⟩ ⟨0, 2, 1, 1⟩) b) ∧
    BadRange (.histeq ⟨0xFFFFFFFF, 2, 1, 1⟩ ⟨0, 2, 1, 1⟩) 0 ∧
    ∀ j < 0, ¬ BadRange (.histeq ⟨0xFFFFFFFF, 2, 1, 1⟩ ⟨0, 2, 1, 1⟩) j :=
  ⟨no_zero_dim (by decide), by simp, no_bad_align (by decide) (by decide), by decide, by decide⟩

/-- The last byte of the input is the first of the output; and a `BIASRELU` in place whose bias lies in its output. -/
theorem witness_overlap :
    ((∀ k, ¬ ZeroDim (.histeq ⟨0, 2, 1, 1⟩ ⟨1, 2, 1, 1⟩) k) ∧ (∀ sub, ¬ ShapeFails (.histeq ⟨0, 2, 1, 1⟩ ⟨1, 2, 1, 1⟩) sub) ∧
      (∀ b, ¬ BadAlign (.histeq ⟨0, 2, 1, 1⟩ ⟨1, 2, 1, 1⟩) b) ∧ (∀ b, ¬ BadRange (.histeq ⟨0, 2, 1, 1⟩ ⟨1, 2, 1, 1⟩) b) ∧
      BadOverlap (.histeq ⟨0, 2, 1, 1⟩ ⟨1, 2, 1, 1⟩) 0 ∧ ∀ j < 0, ¬ BadOverlap (.histeq ⟨0, 2, 1, 1⟩ ⟨1, 2, 1, 1⟩) j) ∧
    ((∀ k, ¬ ZeroDim (.biasrelu top4 0xFFFFFFFC top4) k) ∧ (∀ sub, ¬ ShapeFails (.biasrelu top4 0xFFFFFFFC top4) sub) ∧
      (∀ b, ¬ BadAlign (.biasrelu top4 0xFFFFFFFC top4) b) ∧ (∀ b, ¬ BadRange (.biasrelu top4 0xFFFFFFFC top4) b) ∧
      BadOverlap (.biasrelu top4 0xFFFFFFFC top4) 2 ∧ ∀ j < 2, ¬ BadOverlap (.biasrelu top4 0xFFFFFFFC top4) j) := by
  refine ⟨⟨no_zero_dim (by decide), by simp, no_bad_align (by decide) (by decide), no_bad_range (by decide), by decide,
    by decide⟩, ⟨no_zero_dim (by decide), by simp, no_bad_align (by decide) (by decide), no_bad_range (by decide), by decide,
    by decide⟩⟩

/-- No check of this command fails: two buffers that touch, one at the top of the address space. -/
theorem checks_pass_relu : ChecksPass (.relu top4 below4) :=
  ⟨no_zero_dim (by decide), by simp [top4, below4], no_bad_align (by decide) (by decide), no_bad_range (by decide),
    no_bad_overlap (by decide)⟩

/-- The checks pass of a command whose output ends where its input begins, for each command that samples or pools. -/
theorem checks_pass_samples :
    ChecksPass (.bsamp .f32 top4 0xFFFFFFEC 0xBF000000 0) ∧
    ChecksPass (.affine .u8 ⟨0xFFFFFFFE, 2, 1, 1⟩ ⟨0xFFFFFFFC, 2, 1, 1⟩ 0 0 0x3F800000 0 0 0x3F800000) ∧
    ChecksPass (.croprs .f32 top4 below4 0 0 2 2) ∧ ChecksPass (.maxpool2 top4 ⟨0xFFFFFFEC, 1, 1, 1⟩) := by
  refine ⟨⟨no_zero_dim (by decide), by simp, no_bad_align (by decide) (by decide), no_bad_range (by decide),
      no_bad_overlap (by decide)⟩,
    ⟨no_zero_dim (by decide), by simp, no_bad_align (by decide) (by decide), no_bad_range (by decide),
      no_bad_overlap (by decide)⟩,
    ⟨no_zero_dim (by decide), by simp [top4, below4], no_bad_align (by decide) (by decide), no_bad_range (by decide),
      no_bad_overlap (by decide)⟩,
    ⟨no_zero_dim (by decide), by simp [top4], no_bad_align (by decide) (by decide), no_bad_range (by decide),
      no_bad_overlap (by decide)⟩⟩

/-- A denied read of the last input element; a denied write of the first output element; the read of a neighbour of a
sample half outside, of an 8-bit neighbour, of the last element a crop samples, and of a pooled element. -/
theorem witness_data_bus_error :
    Memory.wf quiet.mem = true ∧ ChecksPass (.relu top4 below4) ∧
    (∃ x : Access, SureAccess (.relu top4 below4) x ∧
      isDenied { quiet with denied := [⟨.read, 4, 0xFFFFFFFC, 0xFFFFFFFC⟩] } x = true) ∧
    (∃ x : Access, SureAccess (.relu top4 below4) x ∧
      isDenied { quiet with denied := [⟨.write, 4, 0xFFFFFFE0, 0xFFFFFFE0⟩] } x = true) ∧
    SureAccess (.bsamp .f32 top4 0xFFFFFFEC 0xBF000000 0) ⟨.read, 4, 0xFFFFFFF0⟩ ∧
    SureAccess (.affine .u8 ⟨0xFFFFFFFE, 2, 1, 1⟩ ⟨0xFFFFFFFC, 2, 1, 1⟩ 0 0 0x3F800000 0 0 0x3F800000)
      ⟨.read, 1, 0xFFFFFFFF⟩ ∧
    SureAccess (.croprs .f32 top4 below4 0 0 2 2) ⟨.read, 4, 0xFFFFFFFC⟩ ∧
    SureAccess (.maxpool2 top4 ⟨0xFFFFFFEC, 1, 1, 1⟩) ⟨.read, 4, 0xFFFFFFFC⟩ := by
  refine ⟨by decide, checks_pass_relu, ⟨⟨.read, 4, 0xFFFFFFFC⟩, .inl ?_, by decide⟩,
    ⟨⟨.write, 4, 0xFFFFFFE0⟩, .inl ?_, by decide⟩, .inr ?_, .inr ?_, .inr ?_, .inr ?_⟩
  · exact ⟨(0, 0xFFFFFFF0, 16, 4), by decide, .inr (by decide), rfl, 3, by decide⟩
  · exact ⟨(1, 0xFFFFFFE0, 16, 4), by decide, .inl (by decide), rfl, 0, by decide⟩
  · simp only [SampleRead]; decide +kernel
  · simp only [SampleRead]; decide +kernel
  · simp only [SampleRead]; decide +kernel
  · simp only [SampleRead]; decide +kernel

/-- A command that completes, and one that a running engine faults on before execution. -/
theorem witness_writes_only :
    (∃ t, Memory.wf quiet.mem = true ∧ exec (.relu top4 below4) quiet = .next t ∧ t.cmdCnt = 1) ∧
    (∃ t, Memory.wf quiet.mem = true ∧ exec (.relu top4 top4) quiet = .next t ∧ quiet.engine = .run ∧ t.engine = .faulted ∧
      t.errCode.toNat < 8) := by
  refine ⟨?_, ?_⟩
  · obtain ⟨t, h, h'⟩ := next_of_after (o := exec (.relu top4 below4) quiet) (f := fun t => decide (t.cmdCnt = 1))
      (by decide +kernel)
    exact ⟨t, by decide, h, by simpa using h'⟩
  · obtain ⟨t, h, h'⟩ := next_of_after (o := exec (.relu top4 top4) quiet)
      (f := fun t => decide (t.engine = .faulted ∧ t.errCode.toNat < 8)) (by decide +kernel)
    exact ⟨t, by decide, h, rfl, by simpa using h'⟩

/-- Two states that differ in their registers. -/
theorem witness_stateless : (let s' := { quiet with cp := 0x4000, flags := 1, cmdCnt := 7, d := { w5 := 5 } }
    quiet.mem = s'.mem ∧ quiet.denied = s'.denied ∧ quiet.draws = s'.draws ∧
      (∃ t, exec (.relu top4 below4) quiet = .next t ∧ t.cmdCnt = 1) ∧
      (∃ t, exec (.relu top4 below4) s' = .next t ∧ t.cmdCnt = 8)) := by
  refine ⟨rfl, rfl, rfl, ?_, ?_⟩
  · simpa using next_of_after (o := exec (.relu top4 below4) quiet) (f := fun t => decide (t.cmdCnt = 1)) (by decide +kernel)
  · simpa using next_of_after (o := exec (.relu top4 below4) { quiet with cp := 0x4000, flags := 1, cmdCnt := 7, d := { w5 := 5 } })
      (f := fun t => decide (t.cmdCnt = 8)) (by decide +kernel)

/-- Both clauses: the highest multiple of 64, and one less. -/
theorem witness_jump : (0xFFFFFFC0 : Word).toNat % 64 = 0 ∧ (0xFFFFFFBF : Word).toNat % 64 ≠ 0 := by decide

theorem witness_bilinear : isZero 0x80000000 = true ∧ isFinite 0x80000000 = true ∧ isFinite 0x7F800000 = false ∧ isFinite 0x7F7FFFFF = true ∧ isFinite 0xFF7FFFFF = true := by
  decide +kernel

/-- Each way out of a 2 by 2 image, at its boundary: the coordinate just below -1.0, and 2.0. -/
theorem witness_zero_pad : isFinite 0x7F800000 = false ∧ floorInt 0xBF800001 < -1 ∧ ((2 : Nat) : Int) ≤ floorInt 0x40000000 := by
  decide +kernel

/-- The last pixel of the largest image, in empty memory, and a pixel of a 2 by 2 image. -/
theorem witness_integer_sample :
    (65535 < 2 ^ 16 ∧ ∀ x' y' : Nat, isFinite (pix .f32 [] ⟨0, 2 ^ 16, 2 ^ 16, 1⟩ x' y' 0) = true) ∧
    (∀ x' < 2, ∀ y' < 2, isFinite (pix .f32 grid.mem ⟨0x1000, 2, 2, 1⟩ x' y' 0) = true) := by
  refine ⟨⟨by decide, fun x' y' => ?_⟩, by decide +kernel⟩
  have h : pix .f32 [] ⟨0, 2 ^ 16, 2 ^ 16, 1⟩ x' y' 0 = 0 := by
    simp [pix, loadElem, readWord, readByte, defaultByte, wordOfBytes]
  rw [h]; decide +kernel

/-! Buffers that touch, one ending at 2^32, for both element types. -/

theorem witness_bsamp :
    (Memory.wf quiet.mem = true ∧ Nonzero top4 ∧ Aligned .f32 top4.addr ∧ Aligned .f32 0xFFFFFFEC ∧
      InRange .f32 top4.addr (count top4) ∧ InRange .f32 0xFFFFFFEC top4.d ∧
      Apart (0xFFFFFFEC : Word).toNat (esize .f32 * top4.d) top4.addr.toNat (esize .f32 * count top4) ∧
      Answered quiet .read .f32 top4.addr (count top4) ∧ Answered quiet .write .f32 0xFFFFFFEC top4.d) ∧
    (let v : View := ⟨0xFFFFFFFF, 1, 1, 1⟩
     Nonzero v ∧ Aligned .u8 v.addr ∧ Aligned .u8 0xFFFFFFFE ∧ InRange .u8 v.addr (count v) ∧ InRange .u8 0xFFFFFFFE v.d ∧
      Apart (0xFFFFFFFE : Word).toNat (esize .u8 * v.d) v.addr.toNat (esize .u8 * count v) ∧
      Answered quiet .read .u8 v.addr (count v) ∧ Answered quiet .write .u8 0xFFFFFFFE v.d) := by decide

theorem witness_affine :
    (Memory.wf quiet.mem = true ∧ Nonzero top4 ∧ Nonzero below4 ∧ top4.d = below4.d ∧ Aligned .f32 top4.addr ∧
      Aligned .f32 below4.addr ∧ InRange .f32 top4.addr (count top4) ∧ InRange .f32 below4.addr (count below4) ∧
      Apart below4.addr.toNat (esize .f32 * count below4) top4.addr.toNat (esize .f32 * count top4) ∧
      Answered quiet .read .f32 top4.addr (count top4) ∧ Answered quiet .write .f32 below4.addr (count below4)) ∧
    (let v : View := ⟨0xFFFFFFFD, 3, 1, 1⟩
     let o : View := ⟨0xFFFFFFFB, 1, 2, 1⟩
     Nonzero v ∧ Nonzero o ∧ v.d = o.d ∧ Aligned .u8 v.addr ∧ Aligned .u8 o.addr ∧ InRange .u8 v.addr (count v) ∧
      InRange .u8 o.addr (count o) ∧ Apart o.addr.toNat (esize .u8 * count o) v.addr.toNat (esize .u8 * count v) ∧
      Answered quiet .read .u8 v.addr (count v) ∧ Answered quiet .write .u8 o.addr (count o)) := by decide

theorem witness_croprs :
    Memory.wf quiet.mem = true ∧ Nonzero top4 ∧ Nonzero below4 ∧ 0 < 1 ∧ 0 < 65535 ∧ top4.d = below4.d ∧ Aligned .f32 top4.addr ∧
      Aligned .f32 below4.addr ∧ InRange .f32 top4.addr (count top4) ∧ InRange .f32 below4.addr (count below4) ∧
      Apart below4.addr.toNat (esize .f32 * count below4) top4.addr.toNat (esize .f32 * count top4) ∧
      Answered quiet .read .f32 top4.addr (count top4) ∧ Answered quiet .write .f32 below4.addr (count below4) := by decide

theorem witness_conv :
    (let f : Filter := ⟨0xFFFFFFDC, 2, 2, 1, 1⟩
     let o : View := ⟨0xFFFFFFEC, 1, 1, 1⟩
     Memory.wf quiet.mem = true ∧ Nonzero top4 ∧ Nonzero o ∧ 0 < f.fw ∧ 0 < f.fh ∧ 0 < f.ci ∧ 0 < f.co ∧
      (o.w : Int) = top4.w - f.fw + 1 ∧ (o.h : Int) = top4.h - f.fh + 1 ∧ f.ci = top4.d ∧ f.co = o.d ∧ Aligned .f32 top4.addr ∧
      Aligned .f32 o.addr ∧ Aligned .f32 f.addr ∧ InRange .f32 top4.addr (count top4) ∧ InRange .f32 o.addr (count o) ∧
      InRange .f32 f.addr (f.fh * f.fw * f.ci * f.co) ∧
      Apart o.addr.toNat (4 * count o) top4.addr.toNat (4 * count top4) ∧
      Apart o.addr.toNat (4 * count o) f.addr.toNat (4 * (f.fh * f.fw * f.ci * f.co)) ∧
      Answered quiet .read .f32 top4.addr (count top4) ∧ Answered quiet .read .f32 f.addr (f.fh * f.fw * f.ci * f.co) ∧
      Answered quiet .write .f32 o.addr (count o)) := by decide

theorem witness_addbias :
    Memory.wf quiet.mem = true ∧ Nonzero top4 ∧ Aligned .f32 top4.addr ∧ Aligned .f32 0xFFFFFFEC ∧
    InRange .f32 top4.addr (count top4) ∧ InRange .f32 0xFFFFFFEC top4.d ∧
    Apart top4.addr.toNat (4 * count top4) (0xFFFFFFEC : Word).toNat (4 * top4.d) ∧
    Answered quiet .read .f32 top4.addr (count top4) ∧ Answered quiet .read .f32 0xFFFFFFEC top4.d ∧
    Answered quiet .write .f32 top4.addr (count top4) := by decide

theorem witness_relu :
    Memory.wf quiet.mem = true ∧ Nonzero top4 ∧ below4.w = top4.w ∧ below4.h = top4.h ∧ below4.d = top4.d ∧
    Aligned .f32 top4.addr ∧ Aligned .f32 below4.addr ∧ InRange .f32 top4.addr (count top4) ∧
    InRange .f32 below4.addr (count top4) ∧ Apart below4.addr.toNat (4 * count top4) top4.addr.toNat (4 * count top4) ∧
    Answered quiet .read .f32 top4.addr (count top4) ∧ Answered quiet .write .f32 below4.addr (count top4) := by decide

/-- In place, and apart. -/
theorem witness_biasrelu :
    ∀ out ∈ [top4, below4], Memory.wf quiet.mem = true ∧ Nonzero top4 ∧ out.w = top4.w ∧ out.h = top4.h ∧ out.d = top4.d ∧
    Aligned .f32 top4.addr ∧ Aligned .f32 out.addr ∧ Aligned .f32 0xFFFFFFDC ∧ InRange .f32 top4.addr (count top4) ∧
    InRange .f32 out.addr (count top4) ∧ InRange .f32 0xFFFFFFDC top4.d ∧
    (out.addr = top4.addr ∨ Apart out.addr.toNat (4 * count top4) top4.addr.toNat (4 * count top4)) ∧
    Apart out.addr.toNat (4 * count top4) (0xFFFFFFDC : Word).toNat (4 * top4.d) ∧
    Answered quiet .read .f32 top4.addr (count top4) ∧ Answered quiet .read .f32 0xFFFFFFDC top4.d ∧
    Answered quiet .write .f32 out.addr (count top4) := by decide

/-- The three commands complete on these operands; and the first two with the output in place. -/
theorem witness_biasrelu_equals :
    (∃ t t1 t2, Memory.wf quiet.mem = true ∧ exec (.biasrelu top4 0x40 below4) quiet = .next t ∧ t.cmdCnt = quiet.cmdCnt + 1 ∧
      exec (.addbias top4 0x40) quiet = .next t1 ∧ t1.cmdCnt = quiet.cmdCnt + 1 ∧
      exec (.relu top4 below4) t1 = .next t2 ∧ t2.cmdCnt = t1.cmdCnt + 1) ∧
    (∃ t, exec (.biasrelu top4 0x40 top4) quiet = .next t ∧ t.cmdCnt = quiet.cmdCnt + 1 ∧ top4.addr = top4.addr) := by
  obtain ⟨t, h, h'⟩ := next_of_after (o := exec (.biasrelu top4 0x40 below4) quiet)
    (f := fun t => decide (t.cmdCnt = quiet.cmdCnt + 1)) (by decide +kernel)
  obtain ⟨t1, h1, h1'⟩ := next_of_after (o := exec (.addbias top4 0x40) quiet)
    (f := fun t1 => decide (t1.cmdCnt = quiet.cmdCnt + 1) &&
      after (exec (.relu top4 below4) t1) (fun t2 => decide (t2.cmdCnt = t1.cmdCnt + 1))) (by decide +kernel)
  obtain ⟨h1a, h1b⟩ := Bool.and_eq_true_iff.mp h1'
  obtain ⟨t2, h2, h2'⟩ := next_of_after h1b
  obtain ⟨t3, h3, h3'⟩ := next_of_after (o := exec (.biasrelu top4 0x40 top4) quiet)
    (f := fun t => decide (t.cmdCnt = quiet.cmdCnt + 1)) (by decide +kernel)
  exact ⟨⟨t, t1, t2, by decide, h, of_decide_eq_true h', h1, of_decide_eq_true h1a, h2, of_decide_eq_true h2'⟩,
    t3, h3, of_decide_eq_true h3', rfl⟩

/-- An odd width: the last column is denied, and the command completes all the same. -/
theorem witness_maxpool :
    (let v : View := ⟨0xFFFFFFE8, 3, 2, 1⟩
     let o : View := ⟨0xFFFFFFE4, 1, 1, 1⟩
     let s := { quiet with denied := [⟨.read, 4, 0xFFFFFFFC, 0xFFFFFFFC⟩] }
     Memory.wf s.mem = true ∧ Nonzero v ∧ Nonzero o ∧ o.w = v.w / 2 ∧ o.h = v.h / 2 ∧ o.d = v.d ∧ Aligned .f32 v.addr ∧
      Aligned .f32 o.addr ∧ InRange .f32 v.addr (count v) ∧ InRange .f32 o.addr (count o) ∧
      Apart o.addr.toNat (4 * count o) v.addr.toNat (4 * count v) ∧
      (∀ x < 2 * o.w, ∀ y < 2 * o.h, ∀ c < v.d, isDenied s ⟨.read, 4, v.addr.toNat + 4 * offset v x y c⟩ = false) ∧
      Answered s .write .f32 o.addr (count o)) := by decide

theorem witness_softmax :
    Memory.wf quiet.mem = true ∧ 0 < 2 ∧ Aligned .f32 0xFFFFFFF8 ∧ Aligned .f32 0xFFFFFFF0 ∧ InRange .f32 0xFFFFFFF8 2 ∧
    InRange .f32 0xFFFFFFF0 2 ∧ Apart (0xFFFFFFF0 : Word).toNat (4 * 2) (0xFFFFFFF8 : Word).toNat (4 * 2) ∧
    Answered quiet .read .f32 0xFFFFFFF8 2 ∧ Answered quiet .write .f32 0xFFFFFFF0 2 := by decide

/-- A finite score, and a command that completes on it. -/
theorem witness_softmax_interval : Memory.wf grid.mem = true ∧ isFinite (word grid.mem 0x1000 0) = true ∧
    ∃ t, exec (.softmax 0x1000 1 0x2000) grid = .next t ∧ t.cmdCnt = grid.cmdCnt + 1 :=
  ⟨by decide +kernel, by decide +kernel, by
    refine ⟨finish (softmaxWork 0x1000 1 0x2000 grid.mem) grid, ?_, rfl⟩
    have hc : (softmaxFootprint 0x1000 1 0x2000).cause = none := by decide
    have hn (m : Memory) : (softmaxWork 0x1000 1 0x2000 m).needs.any (isDenied grid) = false := by
      rw [Laws.softmaxWork_needs]; decide
    have hm (m : Memory) : (softmaxWork 0x1000 1 0x2000 m).may.any (isDenied grid) = false := by rw [Laws.softmaxWork_may]; rfl
    simp only [exec, execSoftmax, runUnit, hc, runWork, hn, hm, Bool.false_eq_true, if_false]⟩

theorem witness_softmax_empty : Aligned .f32 0xFFFFFFFC ∧ Aligned .f32 0 := by decide

theorem witness_exponential : isNaN 0x7F800001 = true ∧ isNaN 0xFF800000 = false ∧ fgt 0xFF800000 0x00000000 = false := by
  decide +kernel

/-- Two values, the lower last; and one value. -/
theorem witness_histeq :
    (let v : View := ⟨0x1000, 2, 1, 1⟩
     let o : View := ⟨0xFFE, 2, 1, 1⟩
     let s := running (bytesAt 0x1000 [255, 0])
     Memory.wf s.mem = true ∧ Nonzero v ∧ o.w = v.w ∧ o.h = v.h ∧ o.d = v.d ∧ v.d = 1 ∧ InRange .u8 v.addr (count v) ∧
      InRange .u8 o.addr (count v) ∧ Apart o.addr.toNat (count v) v.addr.toNat (count v) ∧
      Answered s .read .u8 v.addr (count v) ∧ Answered s .write .u8 o.addr (count v) ∧
      (∃ i < count v, byte s.mem v.addr i = 0) ∧ (∀ i < count v, 0 ≤ byte s.mem v.addr i) ∧
      (∃ i < count v, byte s.mem v.addr i ≠ 0)) ∧
    (let v : View := ⟨0xFFFFFFFE, 2, 1, 1⟩
     let o : View := ⟨0xFFFFFFFC, 2, 1, 1⟩
     let s := running (bytesAt 0xFFFFFFFE [7, 7])
     Memory.wf s.mem = true ∧ Nonzero v ∧ o.w = v.w ∧ o.h = v.h ∧ o.d = v.d ∧ v.d = 1 ∧ InRange .u8 v.addr (count v) ∧
      InRange .u8 o.addr (count v) ∧ Apart o.addr.toNat (count v) v.addr.toNat (count v) ∧
      Answered s .read .u8 v.addr (count v) ∧ Answered s .write .u8 o.addr (count v) ∧
      (∀ i < count v, byte s.mem v.addr i = 7)) := by decide +kernel

/-- With a candidate, and (one pixel) without. -/
theorem witness_otsu :
    (let v : View := ⟨0xFFFFFFFE, 2, 1, 1⟩
     let s := running (bytesAt 0xFFFFFFFE [0, 255])
     Memory.wf s.mem = true ∧ Nonzero v ∧ v.d = 1 ∧ InRange .u8 v.addr (count v) ∧
      Apart (0xFFFFFFFD : Word).toNat 1 v.addr.toNat (count v) ∧ Answered s .read .u8 v.addr (count v) ∧
      Answered s .write .u8 0xFFFFFFFD 1 ∧ Candidate ((List.range (count v)).map fun i => byte s.mem v.addr i) 254) ∧
    (∀ u, ¬ Candidate [77] u) := by
  refine ⟨by decide +kernel, fun u => ?_⟩
  by_cases h : 77 ≤ u <;> simp [Candidate, below, h]

/-- Both signs of the largest finite value, the smallest subnormal, sums that are zero, a zero divisor, both infinities. -/
theorem witness_arithmetic : isFinite 0x7F7FFFFF = true ∧ isFinite 0xFF7FFFFF = true ∧ isFinite 0x00000001 = true ∧
    isZero 0x00000001 = false ∧ signedUnits 0x00000001 + signedUnits 0x80000001 = 0 ∧
    signedUnits 0x80000000 - signedUnits 0x00000000 = 0 ∧ isFinite 0x80000000 = true ∧ isZero 0x80000000 = true ∧
    isInf 0x7F800000 = true ∧ isInf 0xFF800000 = true ∧ isNeg 0x7F800000 ≠ isNeg 0xFF800000 := by decide +kernel

theorem witness_integer_conversion : |(2 ^ 63 - 1 : Int)| < 2 ^ 63 ∧ |(-2 ^ 24 : Int)| ≤ 2 ^ 24 := by decide

/-- A NaN result of each operation. -/
theorem witness_nan : isNaN (fadd 0x7F800000 0xFF800000) = true ∧ isNaN (fsub 0x7F800000 0x7F800000) = true ∧
    isNaN (fmul 0x7F800000 0x80000000) = true ∧ isNaN (fdiv 0x80000000 0) = true := by decide +kernel

theorem witness_greater_than : isNaN 0xFFFFFFFF = true ∧ isFinite 0x80000000 = true ∧ isInf 0x7F800000 = true ∧
    isInf 0xFF800000 = true := by decide +kernel

/-- Each clause, at its boundary: a NaN, a zero, 255.0, and the values next to 0.0 and to 255.0. -/
theorem witness_float_to_byte : isNaN 0x7F800001 = true ∧ fgt 0x80000000 0 = false ∧
    (isNaN 0x437F0000 = false ∧ fgt 0x437F0000 0x437F0000 = false) ∧ (fgt 0x00000001 0 = true ∧ fgt 0x437F0000 0x00000001 = true) ∧
    (fgt 0x437EFFFF 0 = true ∧ fgt 0x437F0000 0x437EFFFF = true) := by decide +kernel

theorem witness_step_invariant : MachineInv (atDesc { w0 := 1 }) ∧ ∃ t, step (atDesc { w0 := 1 }) = .next t ∧ t.cmdCnt = 1 :=
  ⟨by decide +kernel, by
    simpa using next_of_after (o := step (atDesc { w0 := 1 })) (f := fun t => decide (t.cmdCnt = 1)) (by decide +kernel)⟩

/-- Both clauses: `SRESET` with every other bit set, and every other bit. -/
theorem witness_ctrl : quiet.resetPin = false ∧ (0xFFFFFFFF : Word).getLsbD 31 = true ∧ (0x7FFFFFFF : Word).getLsbD 31 = false := by
  decide

/-- Out of reset, running and not running, within the invariant. -/
theorem witness_window : quiet.resetPin = false ∧ quiet.engine = .run ∧ State.reset.resetPin = false ∧ State.reset.engine ≠ .run ∧
    MachineInv quiet ∧ MachineInv State.reset := by decide

/-- The reserved ranges at their ends. -/
theorem witness_reserved_offsets : ∀ off ∈ [0x02C, 0x03C, 0x080, 0xFFC],
    off % 4 = 0 ∧ ((0x02C ≤ off ∧ off < 0x040) ∨ (0x080 ≤ off ∧ off < 0x1000)) := by decide

/-- The last byte of the window; a width that is not 4 up to its end; an aligned word at a read-only register. -/
theorem witness_odd_access :
    (((0xFFFFFFFF : Word) - quiet.mmioBase).toNat < 4096 ∧ ((0xFFFFFFFF : Word) - quiet.mmioBase).toNat + 1 ≤ 4096 ∧
      ((0xFFFFFFFF : Word) - quiet.mmioBase).toNat % 4 ≠ 0) ∧
    (((0xFFFFFFFC : Word) - quiet.mmioBase).toNat + [(1 : Byte), 2].length ≤ 4096 ∧ [(1 : Byte), 2].length ≠ 4) ∧
    (((0xFFFFF008 : Word) - quiet.mmioBase).toNat + 4 ≤ 4096 ∧
      ((0xFFFFF008 : Word) - quiet.mmioBase).toNat ∉ [0x004, 0x00C, 0x010, 0x014, 0x018]) := by
  decide

/-- The byte below the window and the first bytes of memory; a read inside an `OTSU`; a window held in reset; a host move. -/
theorem witness_host_memory :
    HostMemory quiet 0xFFFFEFFF 1 ∧ HostMemory quiet 0 4 ∧ Memory.wf quiet.mem = true ∧
    (let i : Instr := .otsu ⟨0x1000, 1, 1, 1⟩ 0x2000
     let s := { atDesc (encode i) with schedule := [.engine [] [.read 0x2001 2]] }
     s.engine = .run ∧ s.resetPin = false ∧ s.stopReq = false ∧ FetchAnswered s ∧ FetchedAt s (encode i) ∧
      decode (encode i) = .ok i ∧ s.schedule = [.engine [] [.read 0x2001 2]] ∧ HostMemory s 0x2001 2 ∧
      ∀ k < 2, ¬ InOutput i ((0x2001 : Word).toNat + k)) ∧
    (let s := { State.reset with resetPin := true }
     s.resetPin = true ∧ ((0xFFFFF000 : Word) - s.mmioBase).toNat < 4096) ∧
    (State.reset.resetPin = false ∧ State.reset.engine = .idle ∧ (3 : Word).getLsbD 31 = false ∧ (3 : Word).getLsbD 0 = true) ∧
    (let s := { quiet with schedule := [.host (.read 0 1)] }
     s.schedule = [.host (.read 0 1)]) := by decide +kernel

/-- Each kind of host event that is no reset. -/
theorem witness_host_event :
    (∃ t, hostAccess (.write 0xFFFFF004 (bytesOfWord 0x7FFFFFFF)) quiet = .next t ∧ t.stopReq = true) ∧
    isResetEvent quiet (.write 0xFFFFF004 (bytesOfWord 0x7FFFFFFF)) = false ∧
    (∃ t, hostAccess (.read 0 4) quiet = .next t ∧ t.readLog = [[0, 0, 0, 0]]) ∧ isResetEvent quiet (.read 0 4) = false := by
  refine ⟨?_, by decide +kernel, ?_, by decide⟩
  · simpa using next_of_after (o := hostAccess (.write 0xFFFFF004 (bytesOfWord 0x7FFFFFFF)) quiet) (f := fun t => t.stopReq)
      (by decide +kernel)
  · simpa using next_of_after (o := hostAccess (.read 0 4) quiet) (f := fun t => decide (t.readLog = [[0, 0, 0, 0]]))
      (by decide +kernel)

/-- Steps that set each bit: an `END`, a fault, an honoured stop, an empty `SOFTMAX`, a `HISTEQ` of one pixel. -/
theorem witness_set_wins :
    (∃ t, step { atDesc { w0 := 1 } with schedule := [.engine [] []] } = .next t ∧ t.intstat.getLsbD 0 = true) ∧
    (∃ t, step { quiet with schedule := [.engine [] []] } = .next t ∧ t.intstat.getLsbD 1 = true) ∧
    (∃ t, step { quiet with schedule := [.engine [] []], stopReq := true } = .next t ∧ t.intstat.getLsbD 2 = true) ∧
    (∃ t, step { atDesc { w0 := 0x50, w1 := 4, w4 := 0xFFFFFFFC } with schedule := [.engine [] []] } = .next t ∧
      t.flags.getLsbD 0 = true) ∧
    (∃ t, step { atDesc (encode (.histeq ⟨0x1000, 1, 1, 1⟩ ⟨0x2000, 1, 1, 1⟩)) with schedule := [.engine [] []] } = .next t ∧
      t.flags.getLsbD 0 = true) ∧
    quiet.engine = .run ∧ quiet.resetPin = false ∧ quiet.intstat = 0 ∧ quiet.flags = 0 :=
  ⟨next_of_after (by decide +kernel), next_of_after (by decide +kernel), next_of_after (by decide +kernel),
    next_of_after (by decide +kernel), next_of_after (by decide +kernel), by decide⟩

/-- Host events before a reset, none of them one: a write of memory, a read, a write of `CTRL.STOP`, a release of the
reset input. -/
abbrev beforeReset : List HostEvent :=
  [.write 0x3000 [7], .read 0 4, .write 0xFFFFF004 (bytesOfWord 2), .resetPin false]

/-- A soft reset with every bit set. -/
abbrev softReset : HostEvent := .write 0xFFFFF004 (bytesOfWord 0xFFFFFFFF)

/-- What every clause of the reset statement asks. -/
abbrev ResetCase (s r : State) (e : HostEvent) : Prop :=
  Memory.wf s.mem = true ∧ s.engine = .run ∧ s.resetPin = false ∧ s.stopReq = false ∧ ResetsTo s e r ∧
    ∀ x ∈ beforeReset, isResetEvent s x = false

/-- A soft reset inside an `OTSU` after its fetch event; where the fetch is denied; and where the descriptor does not
decode. -/
theorem witness_soft_reset :
    (let i : Instr := .otsu ⟨0x1000, 1, 1, 1⟩ 0x2000
     let s := { atDesc (encode i) with schedule := [.engine [] (beforeReset ++ softReset :: [.write 0x2000 [7]])] }
     ResetCase s (registersReset s) softReset ∧ FetchAnswered s ∧ MayFetch s (encode i) ∧ decode (encode i) = .ok i) ∧
    (let s := { quiet with denied := [⟨.fetch, 4, 0x13C, 0x13C⟩]
                           schedule := [.engine [] (beforeReset ++ softReset :: [.write 0x2000 [7]])] }
     ResetCase s (registersReset s) softReset ∧ ¬ FetchAnswered s) ∧
    (let s := { quiet with schedule := [.engine [] (beforeReset ++ softReset :: [.write 0x2000 [7]])] }
     ResetCase s (registersReset s) softReset ∧ MayFetch s {} ∧ decode {} = .error (.illegalOpcode 0)) :=
  ⟨⟨⟨by decide +kernel, rfl, rfl, rfl, .inl ⟨0xFFFFFFFF, by decide, rfl, rfl⟩, by decide +kernel⟩, by decide +kernel⟩,
    ⟨⟨by decide +kernel, rfl, rfl, rfl, .inl ⟨0xFFFFFFFF, by decide, rfl, rfl⟩, by decide +kernel⟩, by decide +kernel⟩,
    ⟨⟨by decide +kernel, rfl, rfl, rfl, .inl ⟨0xFFFFFFFF, by decide, rfl, rfl⟩, by decide +kernel⟩, by decide +kernel⟩⟩

/-- A hardware reset before the fetch event, a host read after it. -/
theorem witness_hard_reset :
    (let s := { quiet with schedule := [.engine (beforeReset ++ .resetPin true :: []) [.read 0 1]] }
     ResetCase s { registersReset s with resetPin := true } (.resetPin true)) :=
  ⟨by decide +kernel, rfl, rfl, rfl, .inr ⟨rfl, rfl⟩, by decide +kernel⟩

/-- The hypotheses of the race statement, for an `OTSU` and a byte written to this address in this move. -/
abbrev RaceCase (addr : Word) (move : Move) : Prop :=
  let i : Instr := .otsu ⟨0x1000, 1, 1, 1⟩ 0x2000
  let s := { atDesc (encode i) with schedule := [move] }
  Memory.wf s.mem = true ∧ s.engine = .run ∧ s.resetPin = false ∧ s.stopReq = false ∧
    (s.schedule = [.engine [] [.write addr [7]]] ∨
      s.schedule = [.engine [.write addr [7]] []] ∧ ∀ k < 64, s.cp.toNat + k ≠ addr.toNat) ∧ 4096 ≤ (addr - s.mmioBase).toNat ∧
    (∀ k < 16, isDenied s ⟨.fetch, 4, s.cp.toNat + 4 * k⟩ = false) ∧ FetchedAt s (encode i) ∧ decode (encode i) = .ok i

/-- A write into the descriptor, which is already fetched; one outside every extent; one into the output; and before the
fetch event one next to the descriptor and one into the input. -/
theorem witness_race : RaceCase 0x100 (.engine [] [.write 0x100 [7]]) ∧ RaceCase 0x140 (.engine [] [.write 0x140 [7]]) ∧
    RaceCase 0x2000 (.engine [] [.write 0x2000 [7]]) ∧ RaceCase 0x140 (.engine [.write 0x140 [7]] []) ∧
    RaceCase 0x1000 (.engine [.write 0x1000 [7]] []) :=
  ⟨by decide +kernel, by decide +kernel, by decide +kernel, by decide +kernel, by decide +kernel⟩

/-- The race statement's two conclusions: an address outside the output, and one inside. -/
theorem witness_race_clauses : ¬ InOutput (.otsu ⟨0x1000, 1, 1, 1⟩ 0x2000) 0x140 ∧
    InOutput (.otsu ⟨0x1000, 1, 1, 1⟩ 0x2000) 0x2000 := by decide

end Sys2Proof.Tests
end

section
/-! SUPPORT. What a command writes is a function of memory, the platform's answers and the free values (R2, R23). -/

namespace Sys2Proof.Proofs

open Sys2Proof.Laws Sys2Proof.Machine

/-- What an outcome shows of a command's writes: memory, and how many free values it has drawn. -/
def written : Host.Outcome State Fault Refusal → Option (Memory × Nat)
  | .next t => some (t.mem, t.draws)
  | _ => none

@[simp] theorem written_next (t : State) : written (.next t) = some (t.mem, t.draws) := rfl

section
variable {s s' : State} (hmem : s.mem = s'.mem) (hdenied : s.denied = s'.denied) (hdraws : s.draws = s'.draws)

include hdenied in
theorem isDenied_congr : isDenied s = isDenied s' := by
  funext x
  rw [isDenied, isDenied, hdenied]

include hmem hdraws

theorem written_busFault_congr (outs : List Extent) (fs : List Access) :
    written (.next (busFault outs fs s)) = written (.next (busFault outs fs s')) := by
  simp [hmem, hdraws]

theorem written_finish_congr (w : Work) : written (.next (finish w s)) = written (.next (finish w s')) := by
  simp [hmem, hdraws]

include hdenied

theorem written_runWork_congr (outs : List Extent) (w : Work) :
    written (runWork outs w s) = written (runWork outs w s') := by
  have hmem' : (drawn s).mem = (drawn s').mem := hmem
  have hdraws' : (drawn s).draws = (drawn s').draws := by simp [hdraws]
  rw [runWork, runWork, isDenied_congr hdenied, hdraws]
  split_ifs
  · exact written_busFault_congr hmem hdraws _ _
  · exact written_busFault_congr hmem' hdraws' _ _
  · exact written_finish_congr hmem' hdraws' w
  · exact written_finish_congr hmem hdraws w

theorem written_runUnit_congr (fp : Footprint) (work : Memory → Work) :
    written (runUnit fp work s) = written (runUnit fp work s') := by
  rw [runUnit, runUnit]
  cases fp.cause with
  | some c => simp [hmem, hdraws]
  | none =>
    rw [← hmem]
    exact written_runWork_congr hmem hdenied hdraws _ _

/-- Noninterference (R2, R23): two states that agree on memory, the platform and the free values drawn so far see the
same writes of one command, whatever their registers hold. -/
theorem written_exec_congr (i : Instr) : written (exec i s) = written (exec i s') := by
  cases i with
  | endCmd | nop => simp [exec, execEndCmd, execNop, hmem, hdraws]
  | jump target =>
    simp only [exec, execJump]
    cases (jumpFootprint target).cause <;> simp [hmem, hdraws]
  | bsamp | affine | croprs | conv2d | addbias | relu | biasrelu | maxpool2 | softmax | histeq | otsu =>
    exact written_runUnit_congr hmem hdenied hdraws _ _

end

/-- Settles O19: the writes of a command are a function of memory, the platform and the free values. -/
theorem commandsAreStateless : Obligations.CommandsAreStateless := by
  intro i s s' t t' hmem hdenied hdraws ht ht'
  have hw := written_exec_congr hmem hdenied hdraws i
  rw [ht, ht'] at hw
  simpa using hw

end Sys2Proof.Proofs
end

section
/-! SUPPORT. Binary32 as exact arithmetic (R10): what the sign and magnitude of a bit pattern are, that the value rises
with the magnitude bits, and that `roundUnits` gives the nearest value, ties to even. -/

namespace Sys2Proof.Proofs

open Sys2Proof.Laws Sys2Proof.Machine Sys2Proof.Safety

/-! ### Rounding a quotient to an integer -/

/-- Twice the quotient is within one of twice the rounded integer, and at distance one only where that is even. -/
theorem divRoundEven_bounds (n : Nat) {d : Nat} (hd : 0 < d) :
    2 * n ≤ 2 * (divRoundEven n d * d) + d ∧ 2 * (divRoundEven n d * d) ≤ 2 * n + d ∧
      (2 * n = 2 * (divRoundEven n d * d) + d ∨ 2 * (divRoundEven n d * d) = 2 * n + d → divRoundEven n d % 2 = 0) := by
  have hn : n = n / d * d + n % d := (Nat.div_add_mod' n d).symm
  have hr : n % d < d := Nat.mod_lt n hd
  have hsucc : (n / d + 1) * d = n / d * d + d := Nat.succ_mul _ _
  simp only [divRoundEven]
  split_ifs with h
  · rw [hsucc]
    omega
  · omega

/-- The rounded integer is nearest to the quotient among all integers, a tie going to the even one (R10, R11). -/
theorem divRoundEven_nearest (n : Nat) {d : Nat} (hd : 0 < d) (j : Int) :
    |(divRoundEven n d : Int) * d - n| ≤ |j * d - n| ∧
      (j ≠ divRoundEven n d → |(divRoundEven n d : Int) * d - n| = |j * d - n| → divRoundEven n d % 2 = 0) := by
  obtain ⟨hup, hlow, htie⟩ := divRoundEven_bounds n hd
  generalize divRoundEven n d = q at *
  zify at hup hlow htie
  simp only [abs_eq_max_neg]
  rcases lt_trichotomy j q with hj | rfl | hj
  · have : (j + 1) * (d : Int) ≤ q * d := by gcongr; omega
    rw [add_mul] at this
    omega
  · simp
  · have : ((q : Int) + 1) * d ≤ j * d := by gcongr; omega
    rw [add_mul] at this
    omega

/-- Above an odd integer the rounding goes up from the midpoint on. -/
theorem lt_divRoundEven_of_odd (n : Nat) {d t : Nat} (hd : 0 < d) (ht : t % 2 = 1) :
    t < divRoundEven n d ↔ (2 * t + 1) * d ≤ 2 * n := by
  obtain ⟨hup, hlow, htie⟩ := divRoundEven_bounds n hd
  generalize divRoundEven n d = q at *
  have hexpand : (2 * t + 1) * d = 2 * (t * d) + d := by ring
  rw [hexpand]
  constructor
  · intro h
    have : (t + 1) * d ≤ q * d := Nat.mul_le_mul_right d h
    rw [add_mul] at this
    omega
  · intro h
    by_contra hle
    rcases (Nat.le_of_not_lt hle).lt_or_eq with hlt | rfl
    · have : (q + 1) * d ≤ t * d := Nat.mul_le_mul_right d hlt
      rw [add_mul] at this
      omega
    · omega

theorem divRoundEven_of_dvd {n d : Nat} (hd : 0 < d) (h : d ∣ n) : divRoundEven n d * d = n := by
  obtain ⟨j, rfl⟩ := h
  have := (divRoundEven_nearest (d * j) hd j).1
  rw [show (j : Int) * d - ((d * j : Nat) : Int) = 0 by push_cast; ring, abs_zero, abs_nonpos_iff, sub_eq_zero] at this
  exact_mod_cast this

theorem le_divRoundEven {n d t : Nat} (hd : 0 < d) (h : t * d ≤ n) : t ≤ divRoundEven n d := by
  obtain ⟨hup, -, -⟩ := divRoundEven_bounds n hd
  by_contra hlt
  have : (divRoundEven n d + 1) * d ≤ t * d := Nat.mul_le_mul_right d (by omega)
  rw [add_mul] at this
  omega

theorem divRoundEven_le {n d t : Nat} (hd : 0 < d) (h : n ≤ t * d) : divRoundEven n d ≤ t := by
  obtain ⟨-, hlow, -⟩ := divRoundEven_bounds n hd
  by_contra hlt
  have : (t + 1) * d ≤ divRoundEven n d * d := Nat.mul_le_mul_right d (by omega)
  rw [add_mul] at this
  omega

/-! ### Sign and magnitude of a bit pattern -/

theorem magBits_lt (x : Word) : magBits x < 2 ^ 31 := Nat.mod_lt _ (by decide)

theorem toNat_packFloat (s : Bool) {m : Nat} (hm : m < 2 ^ 31) :
    (packFloat s m).toNat = (if s then 2 ^ 31 else 0) + m := by
  rw [packFloat, BitVec.toNat_ofNat]
  cases s <;> simp <;> omega

theorem magBits_packFloat (s : Bool) {m : Nat} (hm : m < 2 ^ 31) : magBits (packFloat s m) = m := by
  rw [magBits, toNat_packFloat s hm]
  cases s
  · simpa using hm
  · simp only [if_true]
    omega

theorem isNeg_packFloat (s : Bool) {m : Nat} (hm : m < 2 ^ 31) : isNeg (packFloat s m) = s := by
  rw [isNeg, toNat_packFloat s hm]
  cases s
  · simpa using hm
  · simp

/-- A bit pattern is its sign and its magnitude bits. -/
theorem packFloat_isNeg_magBits (x : Word) : packFloat (isNeg x) (magBits x) = x := by
  apply BitVec.eq_of_toNat_eq
  have hx := x.isLt
  rw [toNat_packFloat _ (magBits_lt x), isNeg, magBits]
  simp only [decide_eq_true_eq]
  split_ifs <;> omega

theorem packFloat_infMag (s : Bool) : packFloat s infMag = signedInf s := by cases s <;> rfl

theorem packFloat_zero (s : Bool) : packFloat s 0 = signedZero s := by cases s <;> rfl

theorem eq_signedInf_of_isInf {x : Word} (h : isInf x = true) : x = signedInf (isNeg x) := by
  rw [← packFloat_infMag, ← of_decide_eq_true h, packFloat_isNeg_magBits]

@[simp] theorem magBits_fneg (x : Word) : magBits (fneg x) = magBits x := by
  rw [magBits, fneg, BitVec.toNat_xor, Nat.xor_mod_two_pow]
  exact Nat.xor_zero _

@[simp] theorem isNeg_fneg (x : Word) : isNeg (fneg x) = !isNeg x := by
  have hmsb (y : Word) : isNeg y = y.msb := by rw [isNeg, BitVec.msb_eq_decide]
  rw [hmsb, hmsb, fneg, BitVec.msb_xor]
  exact Bool.xor_true _

@[simp] theorem isNaN_fneg (x : Word) : isNaN (fneg x) = isNaN x := by simp [isNaN]
@[simp] theorem isInf_fneg (x : Word) : isInf (fneg x) = isInf x := by simp [isInf]
@[simp] theorem isFinite_fneg (x : Word) : isFinite (fneg x) = isFinite x := by simp [isFinite]
@[simp] theorem unitsOf_fneg (x : Word) : unitsOf (fneg x) = unitsOf x := by simp [unitsOf]

@[simp] theorem signedUnits_fneg (x : Word) : signedUnits (fneg x) = -signedUnits x := by
  cases h : isNeg x <;> simp [signedUnits, h]

/-! ### The three kinds of datum -/

theorem kind_of_isFinite {x : Word} (h : isFinite x = true) : isNaN x = false ∧ isInf x = false := by
  simp only [isFinite, isNaN, isInf, decide_eq_true_eq, decide_eq_false_iff_not] at *
  omega

theorem kind_of_isInf {x : Word} (h : isInf x = true) : isNaN x = false ∧ isZero x = false ∧ isFinite x = false := by
  have hmag : magBits x = infMag := of_decide_eq_true h
  simp [isNaN, isZero, isFinite, hmag, infMag]

theorem isFinite_of_isZero {x : Word} (h : isZero x = true) : isFinite x = true := by
  have hmag : magBits x = 0 := of_decide_eq_true h
  simp [isFinite, hmag, infMag]

theorem isFinite_of_not {x : Word} (hn : isNaN x = false) (hi : isInf x = false) : isFinite x = true := by
  simp only [isFinite, isNaN, isInf, decide_eq_true_eq, decide_eq_false_iff_not] at *
  omega

/-! ### The value of a magnitude -/

/-- The units of magnitude bits `m`. -/
def magUnits (m : Nat) : Nat :=
  if m / 2 ^ 23 = 0 then m % 2 ^ 23 else (2 ^ 23 + m % 2 ^ 23) * 2 ^ (m / 2 ^ 23 - 1)

theorem unitsOf_eq_magUnits (x : Word) : unitsOf x = magUnits (magBits x) := rfl

/-- A significand added to an exponent has the value it says, the carry of `2^24` into the exponent included. -/
theorem magUnits_add {k q : Nat} (hq : q ≤ 2 ^ 24) (hk : k = 0 ∨ 2 ^ 23 ≤ q) : magUnits (k * 2 ^ 23 + q) = q * 2 ^ k := by
  rw [magUnits]
  obtain hsub | hnorm | rfl : q < 2 ^ 23 ∨ (2 ^ 23 ≤ q ∧ q < 2 ^ 24) ∨ q = 2 ^ 24 := by omega
  · obtain rfl : k = 0 := by omega
    rw [if_pos (by omega)]
    omega
  · rw [if_neg (by omega), show (k * 2 ^ 23 + q) / 2 ^ 23 - 1 = k by omega,
      show 2 ^ 23 + (k * 2 ^ 23 + q) % 2 ^ 23 = q by omega]
  · rw [if_neg (by omega), show (k * 2 ^ 23 + 2 ^ 24) / 2 ^ 23 - 1 = k + 1 by omega,
      show (k * 2 ^ 23 + 2 ^ 24) % 2 ^ 23 = 0 by omega]
    ring

/-- Every magnitude is a significand below `2^24` added to an exponent. -/
theorem exists_significand (m : Nat) : ∃ k q, m = k * 2 ^ 23 + q ∧ q < 2 ^ 24 ∧ (k = 0 ∨ 2 ^ 23 ≤ q) :=
  ⟨m / 2 ^ 23 - 1, m - (m / 2 ^ 23 - 1) * 2 ^ 23, by omega, by omega, by omega⟩

/-- The value rises with the magnitude bits. -/
theorem magUnits_strictMono : StrictMono magUnits := by
  refine strictMono_nat_of_lt_succ fun m => ?_
  obtain ⟨k, q, rfl, hq, hk⟩ := exists_significand m
  rw [magUnits_add hq.le hk, add_assoc, magUnits_add (by omega) (by omega)]
  gcongr
  omega

theorem magUnits_zero : magUnits 0 = 0 := rfl

/-- The values at and above the binade of `k` are multiples of its last place. -/
theorem dvd_or_magUnits_lt (k m : Nat) : 2 ^ k ∣ magUnits m ∨ (0 < k ∧ magUnits m < 2 ^ 23 * 2 ^ k) := by
  obtain ⟨l, q, rfl, hq, hl⟩ := exists_significand m
  rw [magUnits_add hq.le hl]
  rcases Nat.lt_or_ge l k with hlk | hkl
  · right
    refine ⟨by omega, ?_⟩
    calc q * 2 ^ l < 2 ^ 24 * 2 ^ l := by gcongr
      _ = 2 ^ 23 * 2 ^ (l + 1) := by ring
      _ ≤ 2 ^ 23 * 2 ^ k := by gcongr <;> omega
  · exact .inl (dvd_mul_of_dvd_right (pow_dvd_pow 2 hkl) q)

theorem unitsOf_eq_zero {x : Word} : unitsOf x = 0 ↔ isZero x = true := by
  rw [unitsOf_eq_magUnits, ← magUnits_zero, magUnits_strictMono.injective.eq_iff, isZero, decide_eq_true_eq]

theorem unitsOf_pos {x : Word} (h : isZero x = false) : 0 < unitsOf x := by
  rw [Nat.pos_iff_ne_zero, Ne, unitsOf_eq_zero, h]
  simp

theorem natAbs_signedUnits (x : Word) : (signedUnits x).natAbs = unitsOf x := by
  rw [signedUnits]
  split <;> simp

/-! ### Rounding to a binary32 -/

/-- How far above the lowest the last place of the binary32 nearest to `num / den` lies. -/
def lastPlace (num den : Nat) : Nat := (num / den).log2 - 23

/-- Its significand: the quotient in units of the last place, rounded. -/
def significand (num den : Nat) : Nat := divRoundEven num (den * 2 ^ lastPlace num den)

/-- The magnitude before the overflow to infinity. -/
def wideMag (num den : Nat) : Nat := lastPlace num den * 2 ^ 23 + significand num den

theorem roundUnits_eq_min (num den : Nat) : roundUnits num den = min (wideMag num den) infMag := rfl

theorem roundUnits_le (num den : Nat) : roundUnits num den ≤ infMag := min_le_right _ _

theorem roundUnits_lt (num den : Nat) : roundUnits num den < 2 ^ 31 :=
  (roundUnits_le num den).trans_lt (by decide)

theorem roundUnits_zero (den : Nat) : roundUnits 0 den = 0 := by
  simp [roundUnits, divRoundEven]

section
variable {num den : Nat}

theorem le_num_of_lastPlace_pos (hden : 0 < den) (h : 0 < lastPlace num den) :
    2 ^ 23 * (den * 2 ^ lastPlace num den) ≤ num := by
  have hlog : (num / den).log2 = 23 + lastPlace num den := by unfold lastPlace at *; omega
  have hne : num / den ≠ 0 := by
    intro h0
    simp [lastPlace, h0] at h
  have hle := Nat.log2_self_le hne
  rw [hlog, Nat.le_div_iff_mul_le hden] at hle
  linarith [show 2 ^ 23 * (den * 2 ^ lastPlace num den) = 2 ^ (23 + lastPlace num den) * den by ring]

theorem num_lt (hden : 0 < den) : num < 2 ^ 24 * (den * 2 ^ lastPlace num den) := by
  have hlog : num / den < 2 ^ (24 + lastPlace num den) :=
    Nat.lt_log2_self.trans_le (Nat.pow_le_pow_right (by omega) (by unfold lastPlace; omega))
  rw [Nat.div_lt_iff_lt_mul hden] at hlog
  linarith [show 2 ^ 24 * (den * 2 ^ lastPlace num den) = 2 ^ (24 + lastPlace num den) * den by ring]

theorem scale_pos (hden : 0 < den) : 0 < den * 2 ^ lastPlace num den := Nat.mul_pos hden (Nat.two_pow_pos _)

theorem significand_le (hden : 0 < den) : significand num den ≤ 2 ^ 24 :=
  divRoundEven_le (scale_pos hden) (num_lt hden).le

theorem lastPlace_eq_zero_or_le_significand (hden : 0 < den) :
    lastPlace num den = 0 ∨ 2 ^ 23 ≤ significand num den :=
  (Nat.eq_zero_or_pos _).imp_right fun h => le_divRoundEven (scale_pos hden) (le_num_of_lastPlace_pos hden h)

theorem magUnits_wideMag (hden : 0 < den) :
    magUnits (wideMag num den) = significand num den * 2 ^ lastPlace num den :=
  magUnits_add (significand_le hden) (lastPlace_eq_zero_or_le_significand hden)

/-- Overflow begins at the midpoint above the largest finite value (R10). -/
theorem infMag_le_wideMag (hden : 0 < den) : infMag ≤ wideMag num den ↔ (2 ^ 25 - 1) * 2 ^ 252 * den ≤ num := by
  have hq := significand_le (num := num) hden
  have hk := lastPlace_eq_zero_or_le_significand (num := num) hden
  have hlt := num_lt (num := num) hden
  have hge := le_num_of_lastPlace_pos (num := num) hden
  have hodd := lt_divRoundEven_of_odd num (t := 2 ^ 24 - 1) (scale_pos (num := num) hden) (by decide)
  rw [← significand] at hodd
  have hsplit : infMag ≤ wideMag num den ↔
      253 < lastPlace num den ∨ (lastPlace num den = 253 ∧ 2 ^ 24 - 1 < significand num den) := by
    rw [wideMag, infMag]
    omega
  rw [hsplit]
  generalize lastPlace num den = k at *
  generalize significand num den = q at *
  have hmid : (2 ^ 25 - 1) * 2 ^ 252 * den = (2 ^ 25 - 1) * (den * 2 ^ 252) := by ring
  have hdouble : den * 2 ^ 253 = 2 * (den * 2 ^ 252) := by ring
  have hquad : den * 2 ^ 254 = 4 * (den * 2 ^ 252) := by ring
  have hpos : 0 < den * 2 ^ 252 := Nat.mul_pos hden (Nat.two_pow_pos _)
  rw [hmid]
  rcases lt_trichotomy k 253 with hk | rfl | hk
  · have hle : den * 2 ^ k ≤ den * 2 ^ 252 := by gcongr <;> omega
    omega
  · omega
  · have hle : den * 2 ^ 254 ≤ den * 2 ^ k := by gcongr <;> omega
    omega

/-- No value of a magnitude, with either sign, is nearer to `num / den` than the one rounded to, and a tie means that it
is even. -/
theorem wideMag_nearest (hden : 0 < den) {z : Int} {m : Nat} (hz : z.natAbs = magUnits m) :
    |(magUnits (wideMag num den) : Int) * den - num| ≤ |z * den - num| ∧
      (z ≠ magUnits (wideMag num den) →
        |(magUnits (wideMag num den) : Int) * den - num| = |z * den - num| → wideMag num den % 2 = 0) := by
  have heven : wideMag num den % 2 = significand num den % 2 := by
    rw [wideMag]
    omega
  have hnear := divRoundEven_nearest num (scale_pos (num := num) hden)
  have hge := le_num_of_lastPlace_pos (num := num) hden
  rw [magUnits_wideMag hden, heven]
  rw [← significand] at hnear
  generalize significand num den = q at *
  generalize lastPlace num den = k at *
  have hscale (j : Int) : j * 2 ^ k * den = j * ((den * 2 ^ k : Nat) : Int) := by push_cast; ring
  rcases dvd_or_magUnits_lt k m with hdvd | ⟨hk, hlt⟩
  · obtain ⟨j, rfl⟩ : (2 : Int) ^ k ∣ z := by
      rw [← Int.natAbs_dvd_natAbs, hz, Int.natAbs_pow]
      exact hdvd
    have hq : (j * 2 ^ k : Int) ≠ q * 2 ^ k → j ≠ q := fun h he => h (by rw [he])
    push_cast
    rw [mul_comm _ j, hscale, hscale]
    exact ⟨(hnear j).1, fun h => (hnear j).2 (hq h)⟩
  · have hcloser : |(q : Int) * 2 ^ k * den - num| < |z * den - num| := by
      have hbound : z * den < 2 ^ 23 * ((den * 2 ^ k : Nat) : Int) := by
        rw [← hscale]
        gcongr
        have : z.natAbs < 2 ^ 23 * 2 ^ k := hz ▸ hlt
        zify at this
        exact (le_abs_self z).trans_lt this
      have hle : 2 ^ 23 * ((den * 2 ^ k : Nat) : Int) ≤ num := by exact_mod_cast hge hk
      rw [hscale]
      refine (hnear (2 ^ 23)).1.trans_lt ?_
      rw [abs_of_nonpos (by linarith), abs_of_nonpos (by linarith)]
      linarith
    push_cast
    exact ⟨hcloser.le, fun _ he => absurd he hcloser.ne⟩

theorem roundUnits_eq_infMag (hden : 0 < den) :
    roundUnits num den = infMag ↔ (2 ^ 25 - 1) * 2 ^ 252 * den ≤ num := by
  rw [← infMag_le_wideMag hden, roundUnits_eq_min, min_eq_right_iff]

theorem roundUnits_eq_wideMag (h : roundUnits num den < infMag) : roundUnits num den = wideMag num den := by
  rw [roundUnits_eq_min] at *
  omega

end

theorem isNaN_packFloat_roundUnits (s : Bool) (num den : Nat) : isNaN (packFloat s (roundUnits num den)) = false := by
  rw [isNaN, magBits_packFloat s (roundUnits_lt _ _)]
  exact decide_eq_false (roundUnits_le _ _).not_gt

theorem isNeg_packFloat_roundUnits (s : Bool) (num den : Nat) : isNeg (packFloat s (roundUnits num den)) = s :=
  isNeg_packFloat s (roundUnits_lt _ _)

theorem signedUnits_packFloat_roundUnits (s : Bool) (num den : Nat) :
    signedUnits (packFloat s (roundUnits num den)) =
      if s then -(magUnits (roundUnits num den) : Int) else magUnits (roundUnits num den) := by
  rw [signedUnits, isNeg_packFloat_roundUnits, unitsOf_eq_magUnits, magBits_packFloat s (roundUnits_lt _ _)]

theorem isInf_packFloat_roundUnits (s : Bool) (num : Nat) {den : Nat} (hden : 0 < den) :
    isInf (packFloat s (roundUnits num den)) = true ↔ (2 ^ 25 - 1) * 2 ^ 252 * (den : Int) ≤ num := by
  have hcast : ((2 ^ 25 - 1 : Nat) : Int) = 2 ^ 25 - 1 := rfl
  rw [isInf, magBits_packFloat s (roundUnits_lt _ _), decide_eq_true_eq, roundUnits_eq_infMag hden]
  zify
  rw [hcast]

theorem num_pos_of_overflow {num : Int} {den : Nat} (hden : 0 < den) (h : (2 ^ 25 - 1) * 2 ^ 252 * (den : Int) ≤ num) :
    0 < num := by
  have hthreshold : (0 : Int) < (2 ^ 25 - 1) * 2 ^ 252 := mul_pos (by decide) (pow_pos (by decide) _)
  exact (mul_pos hthreshold (Int.natCast_pos.mpr hden)).trans_le h

/-- The sign and the rounded magnitude make the nearest binary32 (R10). -/
theorem nearestEven_packFloat (s : Bool) (num : Nat) {den : Nat} (hden : 0 < den) :
    NearestEven (if s then -(num : Int) else num) den (packFloat s (roundUnits num den)) := by
  refine ⟨isNaN_packFloat_roundUnits s num den, ?_, fun h => ?_, fun hfin c _ => ?_⟩
  · have habs : |if s then -(num : Int) else num| = num := by cases s <;> simp
    rw [isInf_packFloat_roundUnits s num hden, habs]
  · have hpos : (0 : Int) < num := num_pos_of_overflow hden ((isInf_packFloat_roundUnits s num hden).mp h)
    rw [isNeg_packFloat_roundUnits]
    cases s
    · simp
    · simpa using hpos
  · rw [isFinite, magBits_packFloat s (roundUnits_lt _ _), decide_eq_true_eq] at hfin
    have hparity : (packFloat s (roundUnits num den)).toNat % 2 = roundUnits num den % 2 := by
      rw [toNat_packFloat s (roundUnits_lt _ _)]
      split_ifs <;> omega
    rw [signedUnits_packFloat_roundUnits, hparity, roundUnits_eq_wideMag hfin]
    cases s with
    | false => simpa using wideMag_nearest (num := num) hden (natAbs_signedUnits c)
    | true =>
      have hnear := wideMag_nearest (num := num) hden
        ((Int.natAbs_neg (signedUnits c)).trans (natAbs_signedUnits c))
      have hflip (z : Int) : |z * den - num| = |-z * den - -num| := by
        rw [← abs_neg, neg_sub, neg_mul, sub_neg_eq_add, neg_add_eq_sub]
      rw [hflip, hflip (-_), neg_neg] at hnear
      simp only [if_true]
      exact ⟨hnear.1, fun h => hnear.2 fun he => h (by rw [← he, neg_neg])⟩

end Sys2Proof.Proofs
end

section
/-! SUPPORT. What each binary32 operation answers on each kind of operand (R10), and the statements on arithmetic. -/

namespace Sys2Proof.Proofs

open Sys2Proof.Laws Sys2Proof.Machine Sys2Proof.Safety

/-! ### Addition and subtraction -/

section
variable {a b : Word}

theorem fadd_of_finite (ha : isFinite a = true) (hb : isFinite b = true) :
    fadd a b = if signedUnits a + signedUnits b = 0 then packFloat (isNeg a && isNeg b) 0
      else packFloat (decide (signedUnits a + signedUnits b < 0)) (roundUnits (signedUnits a + signedUnits b).natAbs 1) := by
  simp [fadd, kind_of_isFinite ha, kind_of_isFinite hb]

theorem fadd_inf_finite (ha : isInf a = true) (hb : isFinite b = true) : fadd a b = a := by
  simp [fadd, ha, kind_of_isInf ha, kind_of_isFinite hb]

theorem fadd_finite_inf (ha : isFinite a = true) (hb : isInf b = true) : fadd a b = b := by
  simp [fadd, hb, kind_of_isInf hb, kind_of_isFinite ha]

theorem fadd_inf_inf (ha : isInf a = true) (hb : isInf b = true) (hs : isNeg a = isNeg b) : fadd a b = a := by
  simp [fadd, ha, hb, hs, kind_of_isInf ha, kind_of_isInf hb]

theorem nearestEven_fadd (ha : isFinite a = true) (hb : isFinite b = true) :
    NearestEven (signedUnits a + signedUnits b) 1 (fadd a b) := by
  rw [fadd_of_finite ha hb]
  generalize signedUnits a + signedUnits b = t
  split_ifs with ht
  · have hzero := nearestEven_packFloat (isNeg a && isNeg b) 0 Nat.one_pos
    rw [roundUnits_zero] at hzero
    simpa [ht] using hzero
  · have hsign : t = if decide (t < 0) then -(t.natAbs : Int) else t.natAbs := by
      simp only [decide_eq_true_eq]
      split_ifs <;> omega
    have hnear := nearestEven_packFloat (decide (t < 0)) t.natAbs Nat.one_pos
    rwa [← hsign] at hnear

theorem fadd_of_sum_zero (ha : isFinite a = true) (hb : isFinite b = true) (h : signedUnits a + signedUnits b = 0) :
    fadd a b = signedZero (isNeg a && isNeg b) := by
  rw [fadd_of_finite ha hb, if_pos h, packFloat_zero]

/-! ### Multiplication -/

theorem fmul_of_finite (ha : isFinite a = true) (hb : isFinite b = true) :
    fmul a b = packFloat (isNeg a != isNeg b) (roundUnits (unitsOf a * unitsOf b) oneUnits) := by
  simp [fmul, kind_of_isFinite ha, kind_of_isFinite hb]

theorem fmul_of_inf (hi : isInf a = true ∨ isInf b = true) (ha : isNaN a = false) (hb : isNaN b = false)
    (hza : isZero a = false) (hzb : isZero b = false) : fmul a b = signedInf (isNeg a != isNeg b) := by
  simp only [fmul, ha, hb, hza, hzb, Bool.or_eq_true, hi, packFloat_infMag]
  simp

theorem nearestEven_fmul (ha : isFinite a = true) (hb : isFinite b = true) :
    NearestEven (signedUnits a * signedUnits b) (2 ^ 149) (fmul a b) := by
  have hsign : signedUnits a * signedUnits b =
      if isNeg a != isNeg b then -((unitsOf a * unitsOf b : Nat) : Int) else (unitsOf a * unitsOf b : Nat) := by
    cases hna : isNeg a <;> cases hnb : isNeg b <;> simp [signedUnits, hna, hnb]
  rw [fmul_of_finite ha hb, hsign]
  exact nearestEven_packFloat _ _ (Nat.two_pow_pos 149)

/-! ### Division -/

theorem fdiv_of_finite (ha : isFinite a = true) (hb : isFinite b = true) (hz : isZero b = false) :
    fdiv a b = packFloat (isNeg a != isNeg b) (roundUnits (unitsOf a * oneUnits) (unitsOf b)) := by
  simp [fdiv, kind_of_isFinite ha, kind_of_isFinite hb, hz]

theorem fdiv_finite_zero (ha : isFinite a = true) (hza : isZero a = false) (hb : isFinite b = true)
    (hzb : isZero b = true) : fdiv a b = signedInf (isNeg a != isNeg b) := by
  simp only [fdiv, kind_of_isFinite ha, kind_of_isFinite hb, hza, hzb, packFloat_infMag]
  simp

theorem fdiv_inf_finite (ha : isInf a = true) (hb : isFinite b = true) : fdiv a b = signedInf (isNeg a != isNeg b) := by
  simp only [fdiv, ha, kind_of_isInf ha, kind_of_isFinite hb, packFloat_infMag]
  simp

theorem fdiv_finite_inf (ha : isFinite a = true) (hb : isInf b = true) :
    fdiv a b = signedZero (isNeg a != isNeg b) := by
  simp only [fdiv, hb, kind_of_isInf hb, kind_of_isFinite ha, packFloat_zero]
  simp

theorem nearestEven_fdiv (ha : isFinite a = true) (hb : isFinite b = true) (hz : isZero b = false) :
    NearestEven (signedUnits a * 2 ^ 149 * (signedUnits b).sign) (unitsOf b) (fdiv a b) := by
  have hpos : (unitsOf b : Int).sign = 1 := Int.sign_eq_one_of_pos (Int.natCast_pos.mpr (unitsOf_pos hz))
  have hsign : signedUnits a * 2 ^ 149 * (signedUnits b).sign =
      if isNeg a != isNeg b then -((unitsOf a * oneUnits : Nat) : Int) else (unitsOf a * oneUnits : Nat) := by
    cases hna : isNeg a <;> cases hnb : isNeg b <;> simp [signedUnits, hna, hnb, hpos, oneUnits]
  rw [fdiv_of_finite ha hb hz, hsign]
  exact nearestEven_packFloat _ _ (unitsOf_pos hz)

end

/-- Settles O42, from the equation of each operation on each kind of operand. -/
theorem arithmeticRoundsToNearestEven : Obligations.ArithmeticRoundsToNearestEven := by
  intro a b
  refine ⟨fun ha hb => ⟨nearestEven_fadd ha hb, ?_, nearestEven_fmul ha hb, nearestEven_fdiv ha hb,
    fadd_of_sum_zero ha hb, fun h => ?_, ?_, fun hz => ?_, fun hza hzb => fdiv_finite_zero ha hza hb hzb⟩,
    fun ha hb => ⟨fadd_inf_finite ha hb, fadd_finite_inf hb ha, fadd_inf_finite ha (by simpa using hb), ?_,
      fdiv_inf_finite ha hb, ?_, fun hz => ⟨?_, ?_⟩⟩,
    fun ha hb => ⟨?_, fadd_inf_inf ha hb, fun hs => ?_⟩⟩
  · have hnear := nearestEven_fadd ha ((isFinite_fneg b).trans hb)
    rwa [signedUnits_fneg, ← sub_eq_add_neg] at hnear
  · have hzero := fadd_of_sum_zero ha ((isFinite_fneg b).trans hb)
    rw [signedUnits_fneg, ← sub_eq_add_neg, isNeg_fneg] at hzero
    exact hzero h
  · rw [fmul_of_finite ha hb, isNeg_packFloat_roundUnits]
  · rw [fdiv_of_finite ha hb hz, isNeg_packFloat_roundUnits]
  · have hi : isInf (fneg a) = true := (isInf_fneg a).trans ha
    rw [fsub, fadd_finite_inf hb hi, eq_signedInf_of_isInf hi, isNeg_fneg]
  · rw [fdiv_finite_inf hb ha, bne_comm]
  · exact fmul_of_inf (.inl ha) (kind_of_isInf ha).1 (kind_of_isFinite hb).1 (kind_of_isInf ha).2.1 hz
  · rw [fmul_of_inf (.inr ha) (kind_of_isFinite hb).1 (kind_of_isInf ha).1 hz (kind_of_isInf ha).2.1, bne_comm]
  · obtain ⟨hna, hza, -⟩ := kind_of_isInf ha
    obtain ⟨hnb, hzb, -⟩ := kind_of_isInf hb
    exact fmul_of_inf (.inl ha) hna hnb hza hzb
  · exact fadd_inf_inf ha ((isInf_fneg b).trans hb) (by simpa using Bool.eq_not_of_ne hs)

/-! ### Integer conversion -/

theorem i2f_eq (n : Int) : i2f n = packFloat (decide (n < 0)) (roundUnits (n.natAbs * oneUnits) 1) := rfl

theorem signed_natAbs_mul (n : Int) (d : Nat) :
    (if decide (n < 0) then -((n.natAbs * d : Nat) : Int) else (n.natAbs * d : Nat)) = n * d := by
  simp only [decide_eq_true_eq]
  push_cast
  split_ifs with h
  · rw [abs_of_neg h, neg_mul, neg_neg]
  · rw [abs_of_nonneg (by omega)]

theorem nearestEven_i2f (n : Int) : NearestEven (n * 2 ^ 149) 1 (i2f n) := by
  have hnear := nearestEven_packFloat (decide (n < 0)) (n.natAbs * oneUnits) Nat.one_pos
  rw [signed_natAbs_mul, ← i2f_eq] at hnear
  exact_mod_cast hnear

/-- A number of units that is a multiple of its last place is rounded to itself. -/
theorem magUnits_roundUnits_of_dvd {num : Nat} (hdvd : 2 ^ lastPlace num 1 ∣ num) (hlt : num < (2 ^ 25 - 1) * 2 ^ 252) :
    magUnits (roundUnits num 1) = num := by
  have hfin : roundUnits num 1 < infMag := by
    refine lt_of_le_of_ne (roundUnits_le _ _) fun he => ?_
    rw [roundUnits_eq_infMag Nat.one_pos, mul_one] at he
    exact absurd he hlt.not_ge
  rw [roundUnits_eq_wideMag hfin, magUnits_wideMag Nat.one_pos, significand, one_mul]
  exact divRoundEven_of_dvd (Nat.two_pow_pos _) hdvd

theorem lastPlace_le {num k : Nat} (h : num < 2 ^ (24 + k)) : lastPlace num 1 ≤ k := by
  rcases Nat.eq_zero_or_pos num with rfl | hpos
  · simp [lastPlace]
  · have hlog : num.log2 < 24 + k := (Nat.log2_lt hpos.ne').mpr h
    rw [lastPlace, Nat.div_one]
    omega

/-- The last place of a whole number of at most `2^24` divides it. -/
theorem two_pow_lastPlace_dvd {n : Nat} (hn : n ≤ 2 ^ 24) : 2 ^ lastPlace (n * oneUnits) 1 ∣ n * oneUnits := by
  rcases hn.lt_or_eq with hlt | rfl
  · have hplace : lastPlace (n * oneUnits) 1 ≤ 149 := lastPlace_le <|
      calc n * oneUnits < 2 ^ 24 * oneUnits := Nat.mul_lt_mul_of_pos_right hlt (Nat.two_pow_pos 149)
        _ = 2 ^ (24 + 149) := (pow_add 2 24 149).symm
    exact dvd_mul_of_dvd_right (pow_dvd_pow 2 hplace) n
  · have hprod : 2 ^ 24 * oneUnits = 2 ^ 173 := (pow_add 2 24 149).symm
    rw [hprod]
    have hplace : lastPlace (2 ^ 173) 1 ≤ 150 := lastPlace_le (Nat.pow_lt_pow_right (by decide) (by decide))
    exact pow_dvd_pow 2 (hplace.trans (by decide))

theorem signedUnits_i2f {n : Int} (hn : |n| ≤ 2 ^ 24) : signedUnits (i2f n) = n * 2 ^ 149 := by
  have hle : n.natAbs ≤ 2 ^ 24 := by
    zify
    exact hn
  have hlt : n.natAbs * oneUnits < (2 ^ 25 - 1) * 2 ^ 252 :=
    calc n.natAbs * oneUnits ≤ 2 ^ 24 * oneUnits := by gcongr
      _ < (2 ^ 25 - 1) * 2 ^ 252 := by rw [oneUnits]; norm_num
  rw [i2f_eq, signedUnits_packFloat_roundUnits, magUnits_roundUnits_of_dvd (two_pow_lastPlace_dvd hle) hlt,
    signed_natAbs_mul, oneUnits]
  norm_num

/-- Settles O43: the units of an integer are rounded once, and its last place divides them up to `2^24`. -/
theorem integerConversionRounds : Obligations.IntegerConversionRounds :=
  fun n _ => ⟨nearestEven_i2f n, signedUnits_i2f⟩

/-! ### NaN results -/

/-- An operation that answers the canonical NaN in the cases `P` and no NaN elsewhere. -/
theorem canonical_and_isNaN_iff {r : Word} {P : Prop} (hnan : P → r = canonicalNaN) (hnum : ¬P → isNaN r = false) :
    (isNaN r = true → r = 0x7FC00000) ∧ (isNaN r = true ↔ P) := by
  have hcanonical : isNaN canonicalNaN = true := by decide
  by_cases hP : P
  · rw [hnan hP]
    exact ⟨fun _ => rfl, iff_of_true hcanonical hP⟩
  · simp [hnum hP, hP]

section
variable {a b : Word}

theorem fadd_eq_canonicalNaN (h : isNaN a = true ∨ isNaN b = true ∨ (isInf a = true ∧ isInf b = true ∧ isNeg a ≠ isNeg b)) :
    fadd a b = canonicalNaN := by
  rcases h with ha | hb | ⟨ha, hb, hs⟩
  · simp [fadd, ha]
  · simp [fadd, hb]
  · simp [fadd, ha, hb, hs]

theorem isNaN_fadd_eq_false
    (h : ¬(isNaN a = true ∨ isNaN b = true ∨ (isInf a = true ∧ isInf b = true ∧ isNeg a ≠ isNeg b))) :
    isNaN (fadd a b) = false := by
  simp only [not_or, not_and, Bool.not_eq_true, not_not] at h
  obtain ⟨hna, hnb, hs⟩ := h
  cases hia : isInf a <;> cases hib : isInf b
  · exact (nearestEven_fadd (isFinite_of_not hna hia) (isFinite_of_not hnb hib)).1
  · rwa [fadd_finite_inf (isFinite_of_not hna hia) hib]
  · rwa [fadd_inf_finite hia (isFinite_of_not hnb hib)]
  · rwa [fadd_inf_inf hia hib (hs hia hib)]

theorem isNaN_signedInf (s : Bool) : isNaN (signedInf s) = false := by cases s <;> decide

theorem isNaN_signedZero (s : Bool) : isNaN (signedZero s) = false := by cases s <;> decide

theorem isInf_eq_false_of_isZero (h : isZero a = true) : isInf a = false := (kind_of_isFinite (isFinite_of_isZero h)).2

theorem fmul_eq_canonicalNaN (h : isNaN a = true ∨ isNaN b = true ∨
    (isInf a = true ∧ isZero b = true) ∨ (isZero a = true ∧ isInf b = true)) : fmul a b = canonicalNaN := by
  rcases h with ha | hb | ⟨ha, hb⟩ | ⟨ha, hb⟩
  · simp [fmul, ha]
  · simp [fmul, hb]
  · simp [fmul, ha, hb]
  · simp [fmul, ha, hb]

theorem isNaN_fmul_eq_false (h : ¬(isNaN a = true ∨ isNaN b = true ∨
    (isInf a = true ∧ isZero b = true) ∨ (isZero a = true ∧ isInf b = true))) : isNaN (fmul a b) = false := by
  simp only [not_or, not_and, Bool.not_eq_true] at h
  obtain ⟨hna, hnb, hzb, hza⟩ := h
  by_cases hi : isInf a = true ∨ isInf b = true
  · have hnz : isZero a = false ∧ isZero b = false := by
      rcases hi with hia | hib
      · exact ⟨(kind_of_isInf hia).2.1, hzb hia⟩
      · exact ⟨Bool.eq_false_iff.mpr fun h => by simp [hza h] at hib, (kind_of_isInf hib).2.1⟩
    rw [fmul_of_inf hi hna hnb hnz.1 hnz.2]
    exact isNaN_signedInf _
  · simp only [not_or, Bool.not_eq_true] at hi
    exact (nearestEven_fmul (isFinite_of_not hna hi.1) (isFinite_of_not hnb hi.2)).1

theorem fdiv_eq_canonicalNaN (h : isNaN a = true ∨ isNaN b = true ∨
    (isInf a = true ∧ isInf b = true) ∨ (isZero a = true ∧ isZero b = true)) : fdiv a b = canonicalNaN := by
  rcases h with ha | hb | ⟨ha, hb⟩ | ⟨ha, hb⟩
  · simp [fdiv, ha]
  · simp [fdiv, hb]
  · simp [fdiv, ha, hb]
  · simp [fdiv, ha, hb, isInf_eq_false_of_isZero ha, isInf_eq_false_of_isZero hb]

theorem isNaN_fdiv_eq_false (h : ¬(isNaN a = true ∨ isNaN b = true ∨
    (isInf a = true ∧ isInf b = true) ∨ (isZero a = true ∧ isZero b = true))) : isNaN (fdiv a b) = false := by
  simp only [not_or, not_and, Bool.not_eq_true] at h
  obtain ⟨hna, hnb, hinf, hzero⟩ := h
  cases hia : isInf a <;> cases hib : isInf b
  · have hfa := isFinite_of_not hna hia
    have hfb := isFinite_of_not hnb hib
    cases hzb : isZero b
    · exact (nearestEven_fdiv hfa hfb hzb).1
    · have hza : isZero a = false := Bool.eq_false_iff.mpr fun h => by simp [hzero h] at hzb
      rw [fdiv_finite_zero hfa hza hfb hzb]
      exact isNaN_signedInf _
  · rw [fdiv_finite_inf (isFinite_of_not hna hia) hib]
    exact isNaN_signedZero _
  · rw [fdiv_inf_finite hia (isFinite_of_not hnb hib)]
    exact isNaN_signedInf _
  · simp [hinf hia] at hib

end

/-- Settles O44: each operation answers the canonical NaN in its IEEE cases and no NaN elsewhere. -/
theorem nanResultsAreCanonical : Obligations.NaNResultsAreCanonical := by
  intro a b
  obtain ⟨hadd, haddIff⟩ := canonical_and_isNaN_iff (fadd_eq_canonicalNaN (a := a) (b := b)) isNaN_fadd_eq_false
  obtain ⟨hsub, hsubIff⟩ := canonical_and_isNaN_iff (fadd_eq_canonicalNaN (a := a) (b := fneg b)) isNaN_fadd_eq_false
  obtain ⟨hmul, hmulIff⟩ := canonical_and_isNaN_iff (fmul_eq_canonicalNaN (a := a) (b := b)) isNaN_fmul_eq_false
  obtain ⟨hdiv, hdivIff⟩ := canonical_and_isNaN_iff (fdiv_eq_canonicalNaN (a := a) (b := b)) isNaN_fdiv_eq_false
  refine ⟨hadd, hsub, hmul, hdiv, haddIff, ?_, hmulIff, hdivIff⟩
  simpa [fsub] using hsubIff

/-! ### Comparison -/

section
variable {a b : Word}

theorem fgt_of_not_nan (ha : isNaN a = false) (hb : isNaN b = false) :
    fgt a b = true ↔ orderKey b < orderKey a := by
  simp [fgt, ha, hb]

/-- The order of bit patterns is the order of the values they have (R10). -/
theorem orderKey_lt_iff_signedUnits_lt : orderKey b < orderKey a ↔ signedUnits b < signedUnits a := by
  have hlt := magUnits_strictMono.lt_iff_lt (a := magBits b) (b := magBits a)
  have hgt := magUnits_strictMono.lt_iff_lt (a := magBits a) (b := magBits b)
  have ha : magUnits (magBits a) = 0 ↔ magBits a = 0 := magUnits_strictMono.injective.eq_iff' magUnits_zero
  have hb : magUnits (magBits b) = 0 ↔ magBits b = 0 := magUnits_strictMono.injective.eq_iff' magUnits_zero
  simp only [orderKey, signedUnits, unitsOf_eq_magUnits]
  split_ifs <;> omega

/-- A finite value lies strictly between the infinities. -/
theorem orderKey_of_isFinite (ha : isFinite a = true) : -(infMag : Int) < orderKey a ∧ orderKey a < infMag := by
  have hmag : magBits a < infMag := of_decide_eq_true ha
  rw [orderKey]
  split_ifs <;> omega

theorem orderKey_of_isInf (ha : isInf a = true) : orderKey a = if isNeg a then -(infMag : Int) else infMag := by
  rw [orderKey, of_decide_eq_true ha]

end

/-- Settles O45, by the order of bit patterns. -/
theorem greaterThanComparesReals : Obligations.GreaterThanComparesReals := by
  intro a b
  have hinfMag : (0 : Int) < infMag := by decide
  refine ⟨fun h => ?_, fun ha hb => ?_, fun ha hb => ?_, fun ha hb => ?_, fun ha hb => ?_⟩
  · rcases h with h | h <;> simp [fgt, h]
  · rw [fgt_of_not_nan (kind_of_isFinite ha).1 (kind_of_isFinite hb).1, orderKey_lt_iff_signedUnits_lt]
  · obtain ⟨hlow, hhigh⟩ := orderKey_of_isFinite hb
    rw [fgt_of_not_nan (kind_of_isInf ha).1 (kind_of_isFinite hb).1, orderKey_of_isInf ha]
    cases isNeg a
    · simpa using hhigh
    · simpa using hlow.le
  · obtain ⟨hlow, hhigh⟩ := orderKey_of_isFinite ha
    rw [fgt_of_not_nan (kind_of_isFinite ha).1 (kind_of_isInf hb).1, orderKey_of_isInf hb]
    cases isNeg b
    · simpa using hhigh.le
    · simpa using hlow
  · rw [fgt_of_not_nan (kind_of_isInf ha).1 (kind_of_isInf hb).1, orderKey_of_isInf ha, orderKey_of_isInf hb]
    cases isNeg a with
    | false =>
      cases isNeg b
      · simp
      · simpa using neg_lt_self hinfMag
    | true => cases isNeg b <;> simp

/-! ### Conversion to a byte -/

section
variable {v : Word}

theorem orderKey_zero : orderKey 0 = 0 := by decide

theorem orderKey_pos_iff : 0 < orderKey v ↔ isNeg v = false ∧ isZero v = false := by
  rw [orderKey, isZero]
  cases isNeg v
  · simp [Nat.pos_iff_ne_zero]
  · simp

theorem fgt_zero_iff (hv : isNaN v = false) : fgt v 0 = true ↔ isNeg v = false ∧ isZero v = false := by
  rw [fgt_of_not_nan hv (by decide), orderKey_zero, orderKey_pos_iff]

/-- `0x437F0000` is `255.0`. -/
theorem magUnits_byteMax : magUnits 0x437F0000 = 255 * oneUnits := by
  have hadd := magUnits_add (k := 133) (q := 255 * 2 ^ 16) (by decide) (by decide)
  rwa [mul_assoc, ← pow_add] at hadd

theorem fgt_byteMax_iff (hv : isNaN v = false) (hs : isNeg v = false) :
    fgt 0x437F0000 v = true ↔ unitsOf v < 255 * oneUnits := by
  have hkey : orderKey 0x437F0000 = (0x437F0000 : Nat) := by decide
  have hkeyv : orderKey v = magBits v := by simp [orderKey, hs]
  rw [fgt_of_not_nan (by decide) hv, hkey, hkeyv, Int.ofNat_lt, unitsOf_eq_magUnits, ← magUnits_byteMax,
    magUnits_strictMono.lt_iff_lt]

/-- What `255.0` does not exceed is positive. -/
theorem pos_of_fgt_byteMax_eq_false (hv : isNaN v = false) (h : fgt 0x437F0000 v = false) :
    isNeg v = false ∧ isZero v = false := by
  have hle : ¬orderKey v < orderKey 0x437F0000 := by
    rw [← fgt_of_not_nan (by decide) hv, h]
    decide
  have hpos : 0 < orderKey 0x437F0000 := by decide
  exact orderKey_pos_iff.mp (by omega)

theorem f2u8_of_nan (h : isNaN v = true) : f2u8 v = 0 := by simp [f2u8, h]

theorem f2u8_of_not_pos (h : fgt v 0 = false) : f2u8 v = 0 := by
  cases hv : isNaN v
  · have hnot : ¬(isNeg v = false ∧ isZero v = false) := by
      rw [← fgt_zero_iff hv, h]
      decide
    cases hs : isNeg v
    · have hz : isZero v = true := Bool.eq_true_of_not_eq_false fun hz => hnot ⟨hs, hz⟩
      simp [f2u8, hz]
    · simp [f2u8, hs]
  · exact f2u8_of_nan hv

theorem f2u8_of_ge (hv : isNaN v = false) (h : fgt 0x437F0000 v = false) : f2u8 v = 255 := by
  obtain ⟨hs, hz⟩ := pos_of_fgt_byteMax_eq_false hv h
  have hle : 255 * oneUnits ≤ unitsOf v := by
    rw [← not_lt, ← fgt_byteMax_iff hv hs, h]
    decide
  simp [f2u8, hv, hs, hz, hle]

/-- Between the bounds the byte is the rounded number of units. -/
theorem toNat_f2u8 (hpos : fgt v 0 = true) (hlt : fgt 0x437F0000 v = true) :
    (f2u8 v).toNat = divRoundEven (unitsOf v) oneUnits ∧ signedUnits v = unitsOf v := by
  have hv : isNaN v = false := by
    cases hn : isNaN v
    · rfl
    · simp [fgt, hn] at hpos
  obtain ⟨hs, hz⟩ := (fgt_zero_iff hv).mp hpos
  have hunits : unitsOf v < 255 * oneUnits := (fgt_byteMax_iff hv hs).mp hlt
  have hinf : isInf v = false := by
    by_contra hi
    rw [unitsOf_eq_magUnits, of_decide_eq_true (Bool.eq_true_of_not_eq_false hi), ← magUnits_byteMax,
      magUnits_strictMono.lt_iff_lt] at hunits
    exact absurd hunits (by decide)
  have hbyte : divRoundEven (unitsOf v) oneUnits ≤ 255 := divRoundEven_le (Nat.two_pow_pos 149) hunits.le
  have hround : f2u8 v = BitVec.ofNat 8 (divRoundEven (unitsOf v) oneUnits) := by
    simp [f2u8, hv, hs, hz, hinf, hunits]
  refine ⟨?_, by simp [signedUnits, hs]⟩
  rw [hround, BitVec.toNat_ofNat]
  omega

end

/-- Settles O46: between the bounds the byte is the number of units of `1.0` rounded by `divRoundEven`. -/
theorem floatToByteRounds : Obligations.FloatToByteRounds := by
  refine fun v => ⟨f2u8_of_nan, f2u8_of_not_pos, f2u8_of_ge, fun hpos hlt n => ?_⟩
  obtain ⟨hbyte, hunits⟩ := toNat_f2u8 hpos hlt
  rw [hbyte, hunits]
  exact_mod_cast divRoundEven_nearest (unitsOf v) (Nat.two_pow_pos 149) n

end Sys2Proof.Proofs
end

section
/-! SUPPORT. The register window as the host sees it (R27 to R44): what each register reads as, what a write of it leaves,
and the accesses that reach none; and the statements on them. -/

namespace Sys2Proof.Proofs

open Sys2Proof.Laws Sys2Proof.Machine Sys2Proof.Safety

/-! ### Host accesses to the window -/

/-- The host's aligned write of a word reaches the register at its offset (R30, R44). -/
theorem writesTo_of_windowWrite {s t : State} {off : Nat} {v : Word} (hr : s.resetPin = false) (hoff : off < 4096)
    (h4 : off % 4 = 0) (h : windowWrite off v s = t) : WritesTo s off v t := by
  rw [WritesTo, hostAccess_writeWord v hoff h4 hr, h]

/-- The host's aligned read of a word returns the register at its offset (R30, R42). -/
theorem readsAs_of_windowRead {s : State} {off : Nat} {v : Word} (hr : s.resetPin = false) (hoff : off < 4096)
    (h4 : off % 4 = 0) (h : windowRead s off = v) : ReadsAs s off v := by
  rw [ReadsAs, hostAccess_readWord hoff h4 hr, h]

/-- An access that begins in the window is the window's. -/
theorem inWindow_of_lt {s : State} {addr : Word} (h : (addr - s.mmioBase).toNat < 4096) : inWindow s addr = true :=
  decide_eq_true h

/-- An access that begins outside the window is memory's. -/
theorem inWindow_of_ge {s : State} {addr : Word} (h : 4096 ≤ (addr - s.mmioBase).toNat) : inWindow s addr = false :=
  decide_eq_false (Nat.not_lt.mpr h)

theorem hostAccess_write_window {s : State} {addr : Word} (bytes : List Byte) (hr : s.resetPin = false)
    (h : (addr - s.mmioBase).toNat < 4096) : hostAccess (.write addr bytes) s = .next (windowStore addr bytes s) := by
  simp [hostAccess, inWindow_of_lt h, hr]

theorem hostAccess_read_window {s : State} {addr : Word} (n : Nat) (hr : s.resetPin = false)
    (h : (addr - s.mmioBase).toNat < 4096) : hostAccess (.read addr n) s = .next (logRead (windowLoad s addr n) s) := by
  simp [hostAccess, inWindow_of_lt h, hr]

/-- A write carries an aligned word only if it is four bytes at a multiple of 4 (R44). -/
theorem alignedWord_of_odd {s : State} {addr : Word} {bytes : List Byte}
    (h : bytes.length ≠ 4 ∨ (addr - s.mmioBase).toNat % 4 ≠ 0) : alignedWord s addr bytes = none := by
  unfold alignedWord
  split
  · have hodd : ¬ windowOffset s addr % 4 = 0 := h.resolve_left (by simp)
    rw [if_neg hodd]
  · rfl

/-- Settles O54: an access that is not an aligned word carries no word to a register and takes none from it. -/
theorem oddWindowAccesses : Obligations.OddWindowAccesses := by
  intro s addr bytes n hr hw
  refine ⟨fun _ hodd => ?_, fun _ hodd => ?_⟩
  · rw [hostAccess_write_window bytes hr hw, windowStore, alignedWord_of_odd hodd]
  · have hnot : ¬ (n = 4 ∧ windowOffset s addr % 4 = 0) := by rwa [not_and_or]
    rw [hostAccess_read_window n hr hw, windowLoad, if_neg hnot]
    rfl

/-! ### Writes of a register -/

@[simp] theorem windowWrite_ctrl (v : Word) (s : State) : windowWrite 0x004 v s = ctrlWrite v s := rfl
@[simp] theorem windowWrite_cp (v : Word) (s : State) : windowWrite 0x00C v s = cpWrite v s := rfl
@[simp] theorem windowWrite_flags (v : Word) (s : State) :
    windowWrite 0x010 v s = { s with flags := writeOneClear 1 s.flags v } := rfl
@[simp] theorem windowWrite_inten (v : Word) (s : State) : windowWrite 0x014 v s = { s with inten := v &&& 7 } := rfl
@[simp] theorem windowWrite_intstat (v : Word) (s : State) :
    windowWrite 0x018 v s = { s with intstat := writeOneClear 7 s.intstat v } := rfl

/-- A write at any other offset than those of the five writable registers is ignored (R43). -/
theorem windowWrite_ignored {off : Nat} (v : Word) (s : State) (h : off ∉ [0x004, 0x00C, 0x010, 0x014, 0x018]) :
    windowWrite off v s = s := by
  simp only [List.mem_cons, List.not_mem_nil, or_false, not_or] at h
  obtain ⟨hctrl, hcp, hflags, hinten, hintstat⟩ := h
  rw [windowWrite, if_neg hctrl, if_neg hcp, if_neg hflags, if_neg hinten, if_neg hintstat]

/-- What a write of the window does, register by register. -/
theorem windowWrite_cases (off : Nat) (v : Word) (s : State) :
    (off = 0x004 ∧ windowWrite off v s = ctrlWrite v s) ∨ windowWrite off v s = cpWrite v s ∨
    windowWrite off v s = { s with flags := writeOneClear 1 s.flags v } ∨
    windowWrite off v s = { s with inten := v &&& 7 } ∨
    windowWrite off v s = { s with intstat := writeOneClear 7 s.intstat v } ∨ windowWrite off v s = s := by
  by_cases h : off ∈ [0x004, 0x00C, 0x010, 0x014, 0x018]
  · simp only [List.mem_cons, List.not_mem_nil, or_false] at h
    rcases h with rfl | rfl | rfl | rfl | rfl <;> simp
  · simp [windowWrite_ignored v s h]

/-! ### `CTRL` -/

/-- The reset of the block, as R48's table gives it. -/
theorem resetBlock_eq (s : State) : resetBlock s = registersReset s := rfl

theorem ctrlWrite_sreset {v : Word} {s : State} (h : v.getLsbD 31 = true) : ctrlWrite v s = registersReset s := by
  rw [ctrlWrite, if_pos h, resetBlock_eq]

theorem ctrlWrite_commands {v : Word} {s : State} (h : v.getLsbD 31 = false) :
    ctrlWrite v s = requestStop v (startEngine v (clearFault v s)) := by
  rw [ctrlWrite, h, if_neg Bool.false_ne_true]

/-- Writing the engine state that is there changes nothing. -/
theorem keepEngine {s : State} {e : EngineState} (h : s.engine = e) : { s with engine := e } = s := by rw [← h]

theorem clearFault_of_ne {v : Word} {s : State} (h : s.engine ≠ .faulted) : clearFault v s = s := by simp [clearFault, h]

theorem clearFault_faulted {v : Word} {s : State} (h : s.engine = .faulted) :
    clearFault v s = { s with engine := if v.getLsbD 2 then .idle else .faulted } := by
  unfold clearFault
  cases v.getLsbD 2
  · simp [← h]
  · simp [h]

theorem startEngine_of_ne {v : Word} {s : State} (h : s.engine ≠ .idle) : startEngine v s = s := by simp [startEngine, h]

theorem requestStop_of_ne {v : Word} {s : State} (h : s.engine ≠ .run) : requestStop v s = s := by simp [requestStop, h]

/-- A running engine takes `STOP` and nothing else. -/
theorem ctrlWrite_run {v : Word} {s : State} (h : v.getLsbD 31 = false) (he : s.engine = .run) :
    ctrlWrite v s = requestStop v s := by
  rw [ctrlWrite_commands h, clearFault_of_ne (by simp [he]), startEngine_of_ne (by simp [he])]

/-- An idle engine takes `START`, and then `STOP`. -/
theorem ctrlWrite_idle {v : Word} {s : State} (h : v.getLsbD 31 = false) (he : s.engine = .idle) :
    ctrlWrite v s =
      if v.getLsbD 0 then { s with engine := .run, stopReq := v.getLsbD 1, unordered := [] } else s := by
  rw [ctrlWrite_commands h, clearFault_of_ne (by simp [he])]
  unfold startEngine requestStop
  cases v.getLsbD 0 <;> cases v.getLsbD 1 <;> simp [he]

/-- A faulted engine is as an idle one if `CLRFAULT` is set, and else takes nothing. -/
theorem ctrlWrite_faulted {v : Word} {s : State} (h : v.getLsbD 31 = false) (he : s.engine = .faulted) :
    ctrlWrite v s = if v.getLsbD 2 then ctrlWrite v { s with engine := .idle } else s := by
  have hidle : clearFault v { s with engine := .idle } = { s with engine := .idle } := clearFault_of_ne (by simp)
  rw [ctrlWrite_commands h, ctrlWrite_commands h, hidle, clearFault_faulted he]
  cases v.getLsbD 2
  · simp [keepEngine he, startEngine_of_ne, requestStop_of_ne, he]
  · simp

/-- Settles O49, by the engine state the write finds. -/
theorem ctrlWriteFollowsItsOrder : Obligations.CtrlWriteFollowsItsOrder := by
  intro s v hr
  have writes {t : State} (h : ctrlWrite v s = t) : WritesTo s 0x004 v t :=
    writesTo_of_windowWrite hr (by decide) (by decide) h
  refine ⟨readsAs_of_windowRead hr (by decide) (by decide) rfl, fun h => writes (ctrlWrite_sreset h), fun h => ?_⟩
  refine ⟨(ctrlWrite v s).unordered, writes ?_⟩
  cases he : s.engine with
  | run =>
    rw [ctrlWrite_run h he, requestStop, he]
    cases v.getLsbD 1 <;> simp [keepEngine he]
  | idle =>
    rw [ctrlWrite_idle h he]
    cases v.getLsbD 0 <;> simp [keepEngine he]
  | faulted =>
    rw [ctrlWrite_faulted h he, ctrlWrite_idle h rfl]
    cases v.getLsbD 2 <;> cases v.getLsbD 0 <;> simp [keepEngine he]

/-! ### Reset -/

theorem hostAccess_resetPin_true (s : State) :
    hostAccess (.resetPin true) s = .next { registersReset s with resetPin := true } := rfl

/-- The release of the reset input leaves the registers at R48's table (R240). -/
theorem hostAccess_resetPin_release {s : State} (h : s.resetPin = true) :
    hostAccess (.resetPin false) s = .next { registersReset s with resetPin := false } := by
  simp [hostAccess, driveReset, h, resetBlock_eq]

/-- An engine outside `RUN`, or held in reset, takes no step (R185, R240). -/
theorem engineStep_halted {s : State} (h : s.engine ≠ .run ∨ s.resetPin = true) : engineStep [] [] s = .next s := by
  rw [engineStep, if_pos h.symm]
  rfl

/-- Settles O50: both resets leave R48's table, in which the engine is idle and no interrupt is pending. -/
theorem hardwareResetEqualsSoftReset : Obligations.HardwareResetEqualsSoftReset := by
  intro s hr
  have hidle : (registersReset s).engine ≠ .run := by simp
  refine ⟨?_, ⟨_, hostAccess_resetPin_true s, engineStep_halted (.inr rfl), ?_⟩, ?_, engineStep_halted (.inl hidle)⟩
  · have hwrite : ctrlWrite 0x80000000 s = registersReset s := ctrlWrite_sreset (by decide)
    exact writesTo_of_windowWrite hr (by decide) (by decide) hwrite
  · rw [hostAccess_resetPin_release rfl]
    simp [hr]
  · simp [irq]

/-! ### `CP` -/

/-- Masking the low six bits rounds down to a multiple of 64. -/
theorem and_mask64 (v : Word) : v &&& 0xFFFFFFC0 = BitVec.ofNat 32 (v.toNat / 64 * 64) := by
  have hshift : v &&& (0xFFFFFFC0 : Word) = v >>> 6 <<< 6 := by
    apply BitVec.eq_of_getLsbD_eq
    intro i hi
    have hmask : ∀ i < 32, (0xFFFFFFC0 : Word).getLsbD i = decide (6 ≤ i) := by decide
    rw [BitVec.getLsbD_and, hmask i hi]
    by_cases h6 : 6 ≤ i
    · simp [h6, hi]
    · simp [h6]
  rw [hshift]
  apply BitVec.eq_of_toNat_eq
  simp [Nat.shiftLeft_eq, Nat.shiftRight_eq_div_pow]

theorem cpWrite_run {v : Word} {s : State} (h : s.engine = .run) : cpWrite v s = s := by simp [cpWrite, h]

theorem cpWrite_halted {v : Word} {s : State} (h : s.engine ≠ .run) :
    cpWrite v s = { s with cp := BitVec.ofNat 32 (v.toNat / 64 * 64) } := by
  rw [cpWrite, if_neg h, and_mask64]

/-- Settles O51: a read of `CP`, and its write in each engine state. -/
theorem cpWindowAccess : Obligations.CpWindowAccess := by
  intro s v hr
  exact ⟨readsAs_of_windowRead hr (by decide) (by decide) rfl,
    fun h => writesTo_of_windowWrite hr (by decide) (by decide) (cpWrite_halted h),
    fun h => writesTo_of_windowWrite hr (by decide) (by decide) (cpWrite_run h)⟩

/-! ### `FLAGS`, `INTEN`, `INTSTAT` -/

/-- Write-one-to-clear bit by bit, where a register has the `n` low bits (R29, R37). -/
theorem getLsbD_writeOneClear {bits : Word} {n : Nat} (hbits : ∀ k < 32, bits.getLsbD k = decide (k < n)) (old v : Word)
    {k : Nat} (hk : k < 32) :
    (writeOneClear bits old v).getLsbD k = (old.getLsbD k && !(decide (k < n) && v.getLsbD k)) := by
  rw [writeOneClear, BitVec.getLsbD_and, BitVec.getLsbD_not, BitVec.getLsbD_and, hbits k hk, decide_eq_true hk,
    Bool.true_and, Bool.and_comm (v.getLsbD k)]

/-- Settles O52: the writable bits of each register are the low ones, one of `FLAGS` and three of the others. -/
theorem flagAndInterruptWrites : Obligations.FlagAndInterruptWrites := by
  intro s v hr
  have hflags : ∀ k < 32, (1 : Word).getLsbD k = decide (k < 1) := by decide
  have hints : ∀ k < 32, (7 : Word).getLsbD k = decide (k < 3) := by decide
  refine ⟨⟨_, writesTo_of_windowWrite hr (by decide) (by decide) (windowWrite_flags v s), fun k hk => ?_⟩,
    ⟨_, writesTo_of_windowWrite hr (by decide) (by decide) (windowWrite_intstat v s), fun k hk => ?_⟩,
    ⟨_, writesTo_of_windowWrite hr (by decide) (by decide) (windowWrite_inten v s), fun k hk => ?_⟩⟩
  · exact getLsbD_writeOneClear hflags _ _ hk
  · exact getLsbD_writeOneClear hints _ _ hk
  · rw [BitVec.getLsbD_and, hints k hk, Bool.and_comm]

/-! ### Reads -/

/-- A word below `2^n` is unchanged by the mask of the `n` low bits. -/
theorem and_lowMask {w m : Word} {n : Nat} (hm : m.toNat = 2 ^ n - 1) (h : w.toNat < 2 ^ n) : w &&& m = w := by
  apply BitVec.eq_of_toNat_eq
  rw [BitVec.toNat_and, hm, Nat.and_two_pow_sub_one_eq_mod, Nat.mod_eq_of_lt h]

theorem windowRead_latch (s : State) {k : Nat} (hk : k < 16) : windowRead s (0x040 + 4 * k) = descWord s.d k := by
  have hindex : (0x040 + 4 * k - 0x040) / 4 = k := by omega
  unfold windowRead
  iterate 10 rw [if_neg (by omega)]
  rw [if_pos (by omega), hindex]

theorem windowRead_reserved (s : State) {off : Nat} (h : (0x02C ≤ off ∧ off < 0x040) ∨ (0x080 ≤ off ∧ off < 0x1000)) :
    windowRead s off = 0 := by
  unfold windowRead
  iterate 11 rw [if_neg (by omega)]

/-- `STATUS` holds `STATE` in bits 1:0 and `STOPREQ` in bit 2 (R33). -/
theorem statusWord_eq (s : State) : statusWord s =
    BitVec.ofNat 32 ((match s.engine with | .idle => 0 | .run => 1 | .faulted => 2) + (if s.stopReq then 4 else 0)) := by
  unfold statusWord
  cases s.engine <;> cases s.stopReq <;> rfl

/-- Settles O53: the masks on the registers' reserved bits take nothing away, by the invariant. -/
theorem windowReadMap : Obligations.WindowReadMap := by
  intro s hinv hr
  obtain ⟨-, -, -, hflags, hinten, hintstat, herr, -, -, -, -⟩ := hinv
  have read {off : Nat} {v : Word} (hoff : off < 4096) (h4 : off % 4 = 0) (h : windowRead s off = v) : ReadsAs s off v :=
    readsAs_of_windowRead hr hoff h4 h
  refine ⟨read (by decide) (by decide) rfl, read (by decide) (by decide) rfl,
    read (by decide) (by decide) (statusWord_eq s), read (by decide) (by decide) rfl,
    read (by decide) (by decide) (and_lowMask (n := 1) rfl hflags),
    read (by decide) (by decide) (and_lowMask (n := 3) rfl hinten),
    read (by decide) (by decide) (and_lowMask (n := 3) rfl hintstat),
    read (by decide) (by decide) (and_lowMask (n := 4) rfl (by omega)),
    read (by decide) (by decide) rfl, read (by decide) (by decide) rfl, read (by decide) (by decide) rfl,
    fun k hk => read (by omega) (by omega) (windowRead_latch s hk),
    fun off h4 h => read (by omega) h4 (windowRead_reserved s h)⟩

end Sys2Proof.Proofs
end

section
/-! SUPPORT. The host's events between steps (R20, R47, R75, R240): what those that do not reset the block can do, and
accesses to memory outside the window. -/

namespace Sys2Proof.Proofs

open Sys2Proof.Laws Sys2Proof.Machine Sys2Proof.Safety

/-! ### Events that do not reset the block -/

/-- Everything a host event that resets nothing can do when it answers a next state: as `hostAccess_cases`, but a write of
`CTRL` has `SRESET` clear and the reset input is only released (R32, R240). -/
theorem hostAccess_cases_of_not_reset {e : HostEvent} {s t : State} (h : hostAccess e s = .next t)
    (he : isResetEvent s e = false) :
    (∃ off v, (off = 0x004 → v.getLsbD 31 = false) ∧ t = windowWrite off v s) ∨ t = s ∨
    (∃ addr bytes, t = hostStore addr bytes s) ∨ (∃ bytes, t = logRead bytes s) ∨
    (e = .resetPin false ∧ t = driveReset false s) := by
  cases e with
  | write addr bytes =>
    rw [hostAccess] at h
    split_ifs at h with hw hr
    · injection h with h
      rw [windowStore] at h
      cases hword : alignedWord s addr bytes with
      | none => rw [hword] at h; exact .inr (.inl h.symm)
      | some v =>
        rw [hword] at h
        refine .inl ⟨_, v, fun hoff => ?_, h.symm⟩
        simpa [isResetEvent, hw, hr, hoff, hword] using he
    · injection h with h
      exact .inr (.inr (.inl ⟨_, _, h.symm⟩))
  | read addr n =>
    rw [hostAccess] at h
    split_ifs at h <;> (injection h with h; exact .inr (.inr (.inr (.inl ⟨_, h.symm⟩))))
  | resetPin asserted =>
    have hreleased : asserted = false := he
    subst hreleased
    injection h with h
    exact .inr (.inr (.inr (.inr ⟨rfl, h.symm⟩)))

/-- A write of `CTRL` without `SRESET` changes `STATE`, `STOPREQ` and the record of unordered writes alone (R32). -/
theorem ctrlWrite_frame {v : Word} (s : State) (h : v.getLsbD 31 = false) :
    ctrlWrite v s = { s with engine := (ctrlWrite v s).engine, stopReq := (ctrlWrite v s).stopReq,
                             unordered := (ctrlWrite v s).unordered } := by
  rw [ctrlWrite_commands h]
  unfold requestStop startEngine clearFault
  split_ifs <;> rfl

/-- A write of `CP` changes `CP` alone (R27). -/
theorem cpWrite_frame (v : Word) (s : State) : cpWrite v s = { s with cp := (cpWrite v s).cp } := by
  unfold cpWrite
  split_ifs <;> rfl

/-- No write of the window but `SRESET` changes a latch, an error register or `CMDCNT` (R22, R38 to R41). -/
theorem windowWrite_readOnly {off : Nat} {v : Word} {s t : State} (hv : off = 0x004 → v.getLsbD 31 = false)
    (h : t = windowWrite off v s) :
    t.d = s.d ∧ t.errCode = s.errCode ∧ t.errCp = s.errCp ∧ t.errInfo = s.errInfo ∧ t.cmdCnt = s.cmdCnt := by
  subst h
  rcases windowWrite_cases off v s with ⟨hoff, h⟩ | h | h | h | h | h <;> rw [h]
  · rw [ctrlWrite_frame s (hv hoff)]
    exact ⟨rfl, rfl, rfl, rfl, rfl⟩
  · rw [cpWrite_frame]
    exact ⟨rfl, rfl, rfl, rfl, rfl⟩
  all_goals exact ⟨rfl, rfl, rfl, rfl, rfl⟩

/-- Settles O55: a word written elsewhere in the window is ignored, and no event without a reset reaches a latch or an
error register. -/
theorem hostCannotWriteReadOnly : Obligations.HostCannotWriteReadOnly := by
  refine ⟨fun s addr bytes hr hw _ hoff => ?_, fun s t e h he hpin => ?_⟩
  · rw [hostAccess_write_window bytes hr hw, windowStore]
    cases alignedWord s addr bytes with
    | none => rfl
    | some v => exact congrArg Host.Outcome.next (windowWrite_ignored v s hoff)
  · rcases hostAccess_cases_of_not_reset h he with ⟨off, v, hv, rfl⟩ | rfl | ⟨_, _, rfl⟩ | ⟨_, rfl⟩ | ⟨rfl, -⟩
    · exact windowWrite_readOnly hv rfl
    · exact ⟨rfl, rfl, rfl, rfl, rfl⟩
    · exact ⟨rfl, rfl, rfl, rfl, rfl⟩
    · exact ⟨rfl, rfl, rfl, rfl, rfl⟩
    · exact absurd rfl (hpin false)

/-! ### Memory outside the window -/

/-- Without wrapping at 2^32, the address `k` further. -/
theorem toNat_add_ofNat {a : Word} {k : Nat} (h : a.toNat + k < 2 ^ 32) : (a + BitVec.ofNat 32 k).toNat = a.toNat + k := by
  rw [BitVec.toNat_add, BitVec.toNat_ofNat]
  omega

/-- A host write that does not wrap stores to consecutive addresses. -/
theorem hostCells_eq_cellsFrom {addr : Word} {bytes : List Byte} (h : addr.toNat + bytes.length ≤ 2 ^ 32) :
    hostCells addr bytes = cellsFrom addr.toNat bytes := by
  induction bytes generalizing addr with
  | nil => rfl
  | cons b bytes ih =>
    rw [List.length_cons] at h
    rw [hostCells, cellsFrom]
    cases bytes with
    | nil => rfl
    | cons b' bytes =>
      rw [List.length_cons] at h ih
      have hnext : (addr + 1).toNat = addr.toNat + 1 := toNat_add_ofNat (k := 1) (by omega)
      rw [ih (by omega), hnext]

theorem cellsFrom_addrs (a : Nat) (bytes : List Byte) :
    (cellsFrom a bytes).map Prod.fst = (List.range bytes.length).map (a + ·) := by
  induction bytes generalizing a with
  | nil => rfl
  | cons b bytes ih =>
    simp [cellsFrom, ih, List.range_succ_eq_map, Function.comp_def, Nat.add_assoc, Nat.add_comm 1]

theorem mem_cellsFrom {a k : Nat} {bytes : List Byte} (hk : k < bytes.length) :
    (a + k, bytes.getD k 0) ∈ cellsFrom a bytes := by
  induction bytes generalizing a k with
  | nil => simp at hk
  | cons b bytes ih =>
    cases k with
    | zero => simp [cellsFrom]
    | succ k =>
      have hnext := ih (a := a + 1) (Nat.lt_of_succ_lt_succ hk)
      rw [Nat.add_right_comm] at hnext
      exact List.mem_cons_of_mem _ hnext

/-- The addresses a host write that does not wrap stores to. -/
theorem mem_hostCells_addrs {addr : Word} {bytes : List Byte} (h : addr.toNat + bytes.length ≤ 2 ^ 32) {a : Nat} :
    a ∈ (hostCells addr bytes).map Prod.fst ↔ addr.toNat ≤ a ∧ a < addr.toNat + bytes.length := by
  rw [hostCells_eq_cellsFrom h, cellsFrom_addrs]
  simp only [List.mem_map, List.mem_range]
  exact ⟨fun ⟨k, hk, he⟩ => by omega, fun ⟨h1, h2⟩ => ⟨a - addr.toNat, by omega, by omega⟩⟩

/-- The addresses of a host read that does not wrap are consecutive. -/
theorem hostAddrs_eq {addr : Word} {n : Nat} (h : addr.toNat + n ≤ 2 ^ 32) :
    hostAddrs addr n = (List.range n).map (addr.toNat + ·) :=
  List.map_congr_left fun k hk => toNat_add_ofNat (by have := List.mem_range.mp hk; omega)

/-- An access to memory outside the window begins outside it. -/
theorem inWindow_eq_false_of_hostMemory {s : State} {addr : Word} {n : Nat} (h : HostMemory s addr n) :
    inWindow s addr = false := by
  obtain ⟨hn, -, hout⟩ := h
  exact inWindow_of_ge (by simpa using hout 0 hn)

theorem hostAccess_write_memory {s : State} {addr : Word} {bytes : List Byte} (h : HostMemory s addr bytes.length) :
    hostAccess (.write addr bytes) s = .next (hostStore addr bytes s) := by
  simp [hostAccess, inWindow_eq_false_of_hostMemory h]

theorem hostAccess_read_memory {s : State} {addr : Word} {n : Nat} (h : HostMemory s addr n) :
    hostAccess (.read addr n) s = .next (logRead ((List.range n).map fun k => readByte s.mem (addr.toNat + k)) s) := by
  have hout := inWindow_eq_false_of_hostMemory h
  obtain ⟨-, hend, -⟩ := h
  simp [hostAccess, hout, hostAddrs_eq hend, Function.comp_def]

theorem hostStore_unordered_iff {s : State} {addr : Word} {bytes : List Byte} (h : addr.toNat + bytes.length ≤ 2 ^ 32)
    (a : Nat) : a ∈ (hostStore addr bytes s).unordered ↔
      a ∈ s.unordered ∨ (s.engine = .run ∧ addr.toNat ≤ a ∧ a < addr.toNat + bytes.length) := by
  rw [hostStore_unordered]
  split_ifs with hrun
  · refine List.mem_union_iff.trans ?_
    rw [mem_hostCells_addrs h, or_comm]
    simp [hrun]
  · simp [hrun]

theorem readByte_hostStore {s : State} {addr : Word} {bytes : List Byte} (hm : Memory.wf s.mem = true)
    (h : addr.toNat + bytes.length ≤ 2 ^ 32) {k : Nat} (hk : k < bytes.length) :
    readByte (hostStore addr bytes s).mem (addr.toNat + k) = bytes.getD k 0 := by
  rw [hostStore_mem, hostCells_eq_cellsFrom h]
  refine readByte_writeCells_mem hm ?_ (mem_cellsFrom hk)
  rw [cellsFrom_addrs]
  exact List.nodup_range.map fun _ _ => Nat.add_left_cancel

theorem sameOutside_hostStore {s : State} {addr : Word} {bytes : List Byte} (hm : Memory.wf s.mem = true)
    (h : addr.toNat + bytes.length ≤ 2 ^ 32) : SameOutside s (hostStore addr bytes s) addr bytes.length := by
  intro a ha
  refine readByte_writeCells_other hm fun c hc he => ?_
  have hin := (mem_hostCells_addrs h).mp (List.mem_map_of_mem hc)
  omega

end Sys2Proof.Proofs
end

section
/-! SUPPORT. What a command can do, once for all fourteen (R186 steps 4 to 6, R201): the work of each compute command,
the codes its checks report, where its bytes go; and the statement on completions and faults. -/

namespace Sys2Proof.Proofs

open Sys2Proof.Laws Sys2Proof.Machine Sys2Proof.Safety

/-! ### The compute commands -/

/-- The work of a compute command; the three commands of the sequencer have none. -/
def workOf : Instr → Option (Memory → Work)
  | .endCmd => none
  | .jump _ => none
  | .nop => none
  | .bsamp et inp outAddr sx sy => some (bsampWork et inp outAddr sx sy)
  | .affine et inp out offX offY t0 t1 t2 t3 => some (affineWork et inp out offX offY t0 t1 t2 t3)
  | .croprs et inp out left top cropW cropH => some (croprsWork et inp out left top cropW cropH)
  | .conv2d inp filt out => some (conv2dWork inp filt out)
  | .addbias img baddr => some (addbiasWork img baddr)
  | .relu inp out => some (reluWork inp out)
  | .biasrelu inp baddr out => some (biasreluWork inp baddr out)
  | .maxpool2 inp out => some (maxpool2Work inp out)
  | .softmax saddr n paddr => some (softmaxWork saddr n paddr)
  | .histeq inp out => some (histeqWork inp out)
  | .otsu inp raddr => some (otsuWork inp raddr)

/-- A compute command is its footprint's checks and then its work (R186). -/
theorem exec_of_workOf {i : Instr} {work : Memory → Work} (h : workOf i = some work) (s : State) :
    exec i s = runUnit (footprint i) work s := by
  cases i with
  | endCmd | jump | nop => cases h
  | bsamp | affine | croprs | conv2d | addbias | relu | biasrelu | maxpool2 | softmax | histeq | otsu =>
    cases h
    rfl

/-- Everything a command can do: `END`, `NOP`, a `JUMP` to an aligned target, the fault of a failed check, or the work of
a compute command, which completes or reports a denied access (R186, R188, R189, R209). -/
theorem exec_cases {i : Instr} {s t : State} (h : exec i s = .next t) :
    (i = .endCmd ∧ t = endRun (complete (s.cp + 64) s)) ∨ (i = .nop ∧ t = complete (s.cp + 64) s) ∨
    (∃ target, i = .jump target ∧ target.toNat % 64 = 0 ∧ t = complete target s) ∨
    (∃ c, (footprint i).cause = some c ∧ t = takeFault c s) ∨
    (∃ work s', workOf i = some work ∧ (footprint i).cause = none ∧ (s' = s ∨ s' = drawn s) ∧
      (t = finish (work s.mem) s' ∨ ∃ fs, t = busFault (footprint i).outs fs s')) := by
  cases hw : workOf i with
  | some work =>
    rw [exec_of_workOf hw] at h
    rcases runUnit_cases h with ⟨c, hc, ht⟩ | ⟨hc, hrun⟩
    · injection ht with ht
      exact .inr (.inr (.inr (.inl ⟨c, hc, ht⟩)))
    · refine .inr (.inr (.inr (.inr ?_)))
      rcases runWork_cases hrun with ⟨-, -, ht⟩ | ⟨-, -, ht⟩ | ⟨fs, s', hs', -, -, ht⟩ <;> injection ht with ht
      · exact ⟨work, s, rfl, hc, .inl rfl, .inl ht⟩
      · exact ⟨work, drawn s, rfl, hc, .inr rfl, .inl ht⟩
      · exact ⟨work, s', rfl, hc, hs', .inr ⟨fs, ht⟩⟩
  | none =>
    cases i with
    | endCmd =>
      injection h with h
      exact .inl ⟨rfl, h.symm⟩
    | nop =>
      injection h with h
      exact .inr (.inl ⟨rfl, h.symm⟩)
    | jump target =>
      by_cases haligned : target.toNat % 64 = 0
      · simp only [exec, execJump, jumpFootprint, if_pos haligned] at h
        injection h with h
        exact .inr (.inr (.inl ⟨target, rfl, haligned, h.symm⟩))
      · simp only [exec, execJump, jumpFootprint, if_neg haligned] at h
        injection h with h
        exact .inr (.inr (.inr (.inl ⟨_, if_neg haligned, h.symm⟩)))
    | bsamp | affine | croprs | conv2d | addbias | relu | biasrelu | maxpool2 | softmax | histeq | otsu => cases hw

/-! ### The codes of the checks -/

/-- What the checks report is what one of the five kinds reports (R211). -/
theorem preflight_some {dims : List (Nat × Nat)} {rels : List (Nat × Bool)} {bufs : List Buffer}
    {pairs : List (Buffer × Buffer)} {c : Cause} (h : preflight dims rels bufs pairs = some c) :
    dimCheck dims = some c ∨ shapeCheck rels = some c ∨ alignCheck bufs = some c ∨ rangeCheck bufs = some c ∨
      overlapCheck pairs = some c := by
  rw [preflight] at h
  split at h
  next hdim => exact .inl (hdim.trans h)
  split at h
  next hshape => exact .inr (.inl (hshape.trans h))
  split at h
  next halign => exact .inr (.inr (.inl (halign.trans h)))
  split at h
  next hrange => exact .inr (.inr (.inr (.inl (hrange.trans h))))
  exact .inr (.inr (.inr (.inr h)))

/-- The checks report codes 3 to 7 (R201). -/
theorem preflight_code {dims : List (Nat × Nat)} {rels : List (Nat × Bool)} {bufs : List Buffer}
    {pairs : List (Buffer × Buffer)} {c : Cause} (h : preflight dims rels bufs pairs = some c) :
    3 ≤ (errCodeOf c).toNat ∧ (errCodeOf c).toNat ≤ 7 := by
  rcases preflight_some h with hc | hc | hc | hc | hc <;>
    (obtain ⟨_, -, rfl⟩ := Option.map_eq_some_iff.mp hc; simp [errCodeOf])

theorem footprintOf_cause_code {dims : List (Nat × Nat)} {rels : List (Nat × Bool)} {bufs : List Buffer}
    {pairs : List (Buffer × Buffer)} {ins outs : List Buffer} {c : Cause}
    (h : (footprintOf dims rels bufs pairs ins outs).cause = some c) :
    3 ≤ (errCodeOf c).toNat ∧ (errCodeOf c).toNat ≤ 7 := preflight_code h

theorem footprint_cause_code {i : Instr} {c : Cause} (h : (footprint i).cause = some c) :
    3 ≤ (errCodeOf c).toNat ∧ (errCodeOf c).toNat ≤ 7 := by
  cases i with
  | endCmd | nop => cases h
  | jump target =>
    simp only [footprint, jumpFootprint] at h
    split_ifs at h
    cases h
    decide
  | bsamp | affine | croprs | conv2d | addbias | relu | biasrelu | maxpool2 | softmax | histeq | otsu =>
    exact footprintOf_cause_code h

/-! ### Extents -/

theorem inExtents_singleton {e : Extent} {a : Nat} :
    inExtents [e] a = true ↔ e.addr ≤ a ∧ a < e.addr + e.size := by
  simp [inExtents, inExtent]

/-- When its checks pass, an output of a command ends at or below 2^32, being one of the buffers checked (R207). -/
theorem footprintOf_outs_end {dims : List (Nat × Nat)} {rels : List (Nat × Bool)} {bufs : List Buffer}
    {pairs : List (Buffer × Buffer)} {ins outs : List Buffer}
    (h : (footprintOf dims rels bufs pairs ins outs).cause = none) (hsub : outs ⊆ bufs) :
    ∀ e ∈ (footprintOf dims rels bufs pairs ins outs).outs, e.addr + e.size ≤ 2 ^ 32 := by
  obtain ⟨-, -, -, hrange, -⟩ := preflight_none.mp h
  intro e he
  obtain ⟨b, hb, rfl⟩ := List.mem_map.mp he
  exact hrange b (hsub hb)

theorem footprint_outs_end {i : Instr} (h : (footprint i).cause = none) :
    ∀ e ∈ (footprint i).outs, e.addr + e.size ≤ 2 ^ 32 := by
  cases i with
  | endCmd | nop | jump => exact fun e he => absurd he List.not_mem_nil
  | bsamp | affine | croprs | conv2d | addbias | relu | biasrelu | maxpool2 | softmax | histeq | otsu =>
    exact footprintOf_outs_end h (by simp)

theorem bufferCells_inExtents {et : ElemType} {base : Word} {n : Nat} {f : Nat → Word} {c : Host.Cell}
    (h : c ∈ bufferCells et base n f) : inExtents [⟨base.toNat, esize et * n⟩] c.1 = true :=
  inExtents_singleton.mpr (bufferCells_bound h)

/-- Equal shapes have equally many elements (R153, R205). -/
theorem viewCount_of_sameShape {inp out : View} (h : ∀ p ∈ sameShape inp out, p.2 = true) :
    viewCount out = viewCount inp := by
  simp only [sameShape, List.mem_cons, List.not_mem_nil, or_false, forall_eq_or_imp, forall_eq, beq_iff_eq] at h
  obtain ⟨hw, hh, hd⟩ := h
  rw [viewCount, viewCount, hw, hh, hd]

/-- Every byte a compute command stores lies in its output extents, once its checks have passed (R61, R70). -/
theorem stores_inExtents {i : Instr} {work : Memory → Work} (hw : workOf i = some work)
    (hc : (footprint i).cause = none) (m : Memory) {c : Host.Cell} (h : c ∈ (work m).stores) :
    inExtents (footprint i).outs c.1 = true := by
  cases i with
  | endCmd | nop | jump => cases hw
  | bsamp | affine | croprs | conv2d | addbias | biasrelu | maxpool2 | softmax =>
    cases hw
    exact bufferCells_inExtents h
  | relu inp out =>
    cases hw
    obtain ⟨-, hshape, -⟩ := preflight_none.mp hc
    have hin := bufferCells_inExtents h
    rwa [← viewCount_of_sameShape hshape] at hin
  | histeq inp out =>
    cases hw
    obtain ⟨-, hshape, -⟩ := preflight_none.mp ((histeqFootprint_cause inp out).symm.trans hc)
    simp only [List.mem_cons, List.not_mem_nil, or_false, forall_eq_or_imp, forall_eq, beq_iff_eq] at hshape
    obtain ⟨hwidth, hheight, hdepth, hgray⟩ := hshape
    obtain ⟨k, hk, rfl⟩ := List.mem_map.mp h
    have hlt := List.mem_range.mp hk
    have hcount : viewCount out = inp.w * inp.h := by rw [viewCount, hwidth, hheight, hdepth, hgray, Nat.mul_one]
    refine inExtents_singleton.mpr ⟨?_, ?_⟩ <;> simp [elemAddr, extentOf, viewBuffer, esize, hcount, hlt]
  | otsu inp raddr =>
    cases hw
    obtain rfl := List.mem_singleton.mp h
    exact inExtents_singleton.mpr ⟨le_rfl, Nat.lt_succ_self _⟩

/-- The extents of a command in execution are its own, and it has any only when its checks pass (R210). -/
theorem liveFootprint_outs {fp : Footprint} {e : Extent} (h : e ∈ (liveFootprint fp).outs) : fp.cause = none ∧ e ∈ fp.outs := by
  rw [liveFootprint] at h
  split_ifs at h with hc
  · cases h
  · exact ⟨by simpa using hc, h⟩

theorem ne_endCmd_of_workOf {i : Instr} {work : Memory → Work} (h : workOf i = some work) : i ≠ .endCmd := by
  rintro rfl
  cases h

theorem ne_jump_of_workOf {i : Instr} {work : Memory → Work} (h : workOf i = some work) (target : Word) :
    i ≠ .jump target := by
  rintro rfl
  cases h

/-- Settles O17, by what a command can do: only a fault of the checks has a code below 8. -/
theorem commandCompletesOrFaults : Obligations.CommandCompletesOrFaults := by
  intro i s
  obtain ⟨t, h⟩ := exec_next i s
  refine ⟨t, h, ?_⟩
  rcases exec_cases h with ⟨rfl, rfl⟩ | ⟨rfl, rfl⟩ | ⟨target, rfl, -, rfl⟩ | ⟨c, hc, rfl⟩ | ⟨work, s', hw, -, hs', ht⟩
  · simp
  · simp
  · simp
  · obtain ⟨hlow, hhigh⟩ := footprint_cause_code hc
    simp [hlow, Nat.le_succ_of_le hhigh]
  · have hend := ne_endCmd_of_workOf hw
    -- `simp` takes the second arm of the statement's `match` on the command by this.
    have hjump := ne_jump_of_workOf hw
    rcases ht with rfl | ⟨fs, rfl⟩
    · cases hdegen : (work s.mem).degen <;> rcases hs' with rfl | rfl <;> simp [hend, hdegen]
    · rcases hs' with rfl | rfl <;> simp

end Sys2Proof.Proofs
end

section
/-! SUPPORT. Steps of the engine in which the host is silent or makes one access that races with nothing (R185, R186): the
fetch, and the one event that ends the step; and the statements on them. -/

namespace Sys2Proof.Proofs

open Sys2Proof.Laws Sys2Proof.Machine Sys2Proof.Safety

/-! ### The command step as a fetch and one event -/

/-- What the event that ends a command step begun in `s` does to a state: the fault of a denied fetch or of decoding, or
the command, which completes or faults (R186 steps 2 to 6). -/
def commandEvent (s : State) : State → Host.Outcome State Fault Refusal :=
  if fetchDenied s then fun u => .next (takeFault (.busError s.cp) u)
  else
    match decode (fetchDesc [] s s) with
    | .error e => fun u => .next (takeFault (causeOfDecode e) u)
    | .ok i => exec i

/-- The output extents of a command step begun in `s`: the command's, once it has passed its checks (R210). -/
def stepOuts (s : State) : List Extent :=
  if fetchDenied s then []
  else
    match decode (fetchDesc [] s s) with
    | .error _ => []
    | .ok i => (liveFootprint (footprint i)).outs

/-- The state after the fetch event of a command step begun in `s` (R186 step 2): as it was where the fetch is denied. -/
def fetchedState (s : State) : State :=
  if fetchDenied s then s else ordered (stepOuts s) [] (latch (fetchDesc [] s s) (fetchDraws [] s s))

theorem fetchDraws_eq (s : State) : ∃ n, fetchDraws [] s s = { s with draws := n } := by
  rw [fetchDraws]
  split_ifs
  · exact ⟨s.draws, rfl⟩
  · exact ⟨s.draws + 16, rfl⟩

/-- A fetch changes the latches and the model's own records, and nothing else. -/
theorem fetchedState_eq (s : State) : ∃ d l n, fetchedState s = { s with d := d, unordered := l, draws := n } := by
  obtain ⟨n, hn⟩ := fetchDraws_eq s
  rw [fetchedState]
  split_ifs
  · exact ⟨s.d, s.unordered, s.draws, rfl⟩
  · exact ⟨_, _, n, by rw [hn]; rfl⟩

/-- With nothing ordered by no output, the record of unordered writes stays. -/
theorem ordered_nil (racing : List Nat) (s : State) : ordered [] racing s = s := by
  simp [ordered, inExtents]

theorem commandEvent_next (s u : State) : ∃ t, commandEvent s u = .next t := by
  rw [commandEvent]
  split_ifs
  · exact ⟨_, rfl⟩
  · cases decode (fetchDesc [] s s) with
    | error e => exact ⟨_, rfl⟩
    | ok i => exact exec_next i u

/-- A host event after the fetch event that neither resets the block nor stores to memory: the command's event follows it,
and nothing races (R35, R78). -/
theorem commandRest_single {fp : Footprint} {dataFlag : Bool} {act : State → Host.Outcome State Fault Refusal}
    {e : HostEvent} {s u t : State} (he : isResetEvent s e = false) (hm : memoryWrites s [e] = [])
    (hu : duringAccess fp.outs e s = .next u) (ht : act u = .next t) :
    commandRest fp dataFlag [] [e] act s = .next t := by
  simp [commandRest, duringAccesses, he, hm, hu, ht, settleRaces]

/-- The events before the completion that leave a command step simple: none, or one as in `commandRest_single`; `u` is the
state they leave. -/
def QuietEvents (outs : List Extent) (s : State) (es : List HostEvent) (u : State) : Prop :=
  (es = [] ∧ u = s) ∨
    ∃ e, es = [e] ∧ isResetEvent s e = false ∧ memoryWrites s [e] = [] ∧ duringAccess outs e s = .next u

theorem commandRest_quiet {fp : Footprint} {dataFlag : Bool} {act : State → Host.Outcome State Fault Refusal}
    {es : List HostEvent} {s u t : State} (h : QuietEvents fp.outs s es u) (ht : act u = .next t) :
    commandRest fp dataFlag [] es act s = .next t := by
  rcases h with ⟨rfl, rfl⟩ | ⟨e, rfl, he, hm, hu⟩
  · rw [commandRest_nil ht, ht]
  · exact commandRest_single he hm hu ht

/-- The turn of a running engine with no stop request is the fetch, the host's events, and the command's event (R186). -/
theorem engineStep_quiet {s u : State} {es : List HostEvent} (hrun : s.engine = .run) (hr : s.resetPin = false)
    (hs : s.stopReq = false) (h : QuietEvents (stepOuts s) (fetchedState s) es u) :
    engineStep [] es s = commandEvent s u := by
  obtain ⟨t, ht⟩ := commandEvent_next s u
  have hstep : engineStep [] es s = fetchAndRun [] es s s := by
    simp [engineStep, hrun, hr, hs, commandStep, duringAccesses]
  rw [hstep, ht]
  unfold commandEvent at ht
  unfold fetchedState stepOuts at h
  unfold fetchAndRun
  split_ifs at ht h ⊢ with hd
  · exact commandRest_quiet h ht
  · cases hdec : decode (fetchDesc [] s s) with
    | error e =>
      simp only [hdec, ordered_nil] at ht h ⊢
      exact commandRest_quiet h ht
    | ok i =>
      simp only [hdec] at ht h ⊢
      exact commandRest_quiet h ht

/-- A quiet turn of the engine is its step with no host event in it. -/
theorem step_of_quietTurn {s : State} {rest : List Move} (h : QuietTurn s rest) :
    step s = engineStep [] [] { s with schedule := rest } := by
  rcases h with ⟨hs, rfl⟩ | hs
  · have hkeep : { s with schedule := [] } = s := by rw [← hs]
    rw [hkeep, step, systemStep, hs]
  · rw [step, systemStep, hs]

/-! ### The transitions of the engine -/

/-- What decodes to a command has that command's opcode and no reserved bit set, and its fields are the command's
(R106 to R108). -/
theorem decode_ok {d : Desc} {i : Instr} (h : decode d = .ok i) :
    ∃ op, opcodeOf op = d.w0.toNat % 2 ^ 8 ∧ (∀ k < 16, (descWord d k).toNat < 2 ^ usedBits op k) ∧ fieldsOf op d = i := by
  rw [decode] at h
  cases hop : opOf (d.w0.toNat % 2 ^ 8) with
  | none => rw [hop] at h; cases h
  | some op =>
    simp only [hop] at h
    cases hres : firstReserved op d with
    | some k => rw [hres] at h; cases h
    | none =>
      rw [hres] at h
      injection h with h
      refine ⟨op, by simpa using List.find?_some hop, fun k hk => ?_, h⟩
      have hclear := List.find?_eq_none.mp hres k (List.mem_range.mpr hk)
      have hzero : (descWord d k).toNat / 2 ^ usedBits op k = 0 := by simpa [reservedSet] using hclear
      exact (Nat.div_eq_zero_iff_lt (Nat.two_pow_pos _)).mp hzero

/-- Only one descriptor is an `END`: the opcode, and every other bit zero (R107, R188). -/
theorem eq_of_decode_endCmd {d : Desc} (h : decode d = .ok .endCmd) : d = { w0 := 1 } := by
  obtain ⟨op, hopcode, hbits, hfields⟩ := decode_ok h
  obtain rfl : op = .endCmd := by
    cases op with
    | endCmd => rfl
    | _ => cases hfields
  refine desc_ext fun k hk => BitVec.eq_of_toNat_eq ?_
  have hlt := hbits k hk
  cases k with
  | zero =>
    have hbyte : d.w0.toNat < 2 ^ 8 := hlt
    have hone : 1 = d.w0.toNat % 2 ^ 8 := hopcode
    show d.w0.toNat = 1
    omega
  | succ k =>
    have hk' : k < 15 := Nat.lt_of_succ_lt_succ hk
    have hunused : usedBits .endCmd (k + 1) = 0 := by interval_cases k <;> rfl
    have hzero : descWord { w0 := 1 } (k + 1) = 0 := by interval_cases k <;> rfl
    rw [hunused] at hlt
    rw [hzero]
    exact Nat.lt_one_iff.mp hlt

/-- What the event of a command step does to `STATE` and `INTSTAT`: a completion but `END`'s touches neither (R33, R217). -/
theorem commandEvent_transition {s u t : State} (h : commandEvent s u = .next t) :
    (t.engine = u.engine ∧ t.intstat = u.intstat) ∨
    (t.engine = .idle ∧ t.intstat = u.intstat ||| 1 ∧ t.d = u.d ∧ fetchDenied s = false ∧
      decode (fetchDesc [] s s) = .ok .endCmd) ∨
    (t.engine = .faulted ∧ t.intstat = u.intstat ||| 2 ∧ t.errCp = u.cp) := by
  rw [commandEvent] at h
  split_ifs at h with hd
  · injection h with h
    simp [← h]
  · cases hdec : decode (fetchDesc [] s s) with
    | error e =>
      rw [hdec] at h
      injection h with h
      simp [← h]
    | ok i =>
      simp only [hdec] at h
      rcases exec_cases h with ⟨rfl, rfl⟩ | ⟨rfl, rfl⟩ | ⟨target, rfl, -, rfl⟩ | ⟨c, -, rfl⟩ | ⟨work, s', -, -, hs', ht⟩
      · exact .inr (.inl ⟨rfl, rfl, rfl, by simpa using hd, rfl⟩)
      · exact .inl ⟨rfl, rfl⟩
      · exact .inl ⟨rfl, rfl⟩
      · exact .inr (.inr ⟨rfl, rfl, rfl⟩)
      · rcases ht with rfl | ⟨fs, rfl⟩
        · exact .inl (by rcases hs' with rfl | rfl <;> simp)
        · exact .inr (.inr (by rcases hs' with rfl | rfl <;> simp))

theorem fetchedState_d {s : State} (h : fetchDenied s = false) : (fetchedState s).d = fetchDesc [] s s := by
  simp [fetchedState, h]

/-- The turn of a running engine with no stop request and no host event in it. -/
theorem engineStep_noEvents {s : State} (hrun : s.engine = .run) (hr : s.resetPin = false) (hs : s.stopReq = false) :
    engineStep [] [] s = commandEvent s (fetchedState s) := engineStep_quiet hrun hr hs (.inl ⟨rfl, rfl⟩)

/-- The turn of a running engine with a stop request and no host event in it honours the request (R186 step 1). -/
theorem engineStep_stop {s : State} (hrun : s.engine = .run) (hr : s.resetPin = false) (hs : s.stopReq = true) :
    engineStep [] [] s = .next (honourStop s) := by
  simp [engineStep, stopStep, hostAccesses, honourPending, hrun, hr, hs]

/-- How the engine's turn can leave `STATE`, and what it adds to `INTSTAT`, when no host event lands in it (R33, R217). -/
theorem engineStep_transition {s t : State} (h : engineStep [] [] s = .next t) :
    (t.engine = s.engine ∨ s.engine = .run ∧
      (t.engine = .idle ∧ s.stopReq = true ∧ t.intstat = s.intstat ||| 4 ∨
       t.engine = .idle ∧ s.stopReq = false ∧ t.d = { w0 := 1 } ∧ t.intstat = s.intstat ||| 1 ∨
       t.engine = .faulted ∧ t.intstat = s.intstat ||| 2 ∧ t.errCp = s.cp)) ∧
    (t.intstat = s.intstat ∨ t.intstat = s.intstat ||| 1 ∨ t.intstat = s.intstat ||| 2 ∨ t.intstat = s.intstat ||| 4) := by
  by_cases hhalt : s.engine ≠ .run ∨ s.resetPin = true
  · rw [engineStep_halted hhalt] at h
    injection h with h
    simp [← h]
  obtain ⟨hrun, hr⟩ : s.engine = .run ∧ s.resetPin = false := by simpa using hhalt
  cases hs : s.stopReq with
  | true =>
    rw [engineStep_stop hrun hr hs] at h
    injection h with h
    simp [← h, hrun]
  | false =>
    rw [engineStep_noEvents hrun hr hs] at h
    obtain ⟨d, l, n, hfetched⟩ := fetchedState_eq s
    rcases commandEvent_transition h with ⟨hengine, hint⟩ | ⟨hengine, hint, hd, hanswered, hdec⟩ | ⟨hengine, hint, hcp⟩
    · rw [hfetched] at hengine hint
      exact ⟨.inl hengine, .inl hint⟩
    · rw [fetchedState_d hanswered, eq_of_decode_endCmd hdec] at hd
      rw [hfetched] at hint
      exact ⟨.inr ⟨hrun, .inr (.inl ⟨hengine, rfl, hd, hint⟩)⟩, .inr (.inl hint)⟩
    · rw [hfetched] at hint hcp
      exact ⟨.inr ⟨hrun, .inr (.inr ⟨hengine, hint, hcp⟩)⟩, .inr (.inr (.inl hint))⟩

/-- Settles O10: a quiet turn is the engine's turn with no host event in it. -/
theorem engineTransitions : Obligations.EngineTransitions := by
  refine ⟨fun s rest hq h => ?_, fun s t rest hq h => ?_⟩
  · rw [step_of_quietTurn hq]
    exact engineStep_halted h
  · rw [step_of_quietTurn hq] at h
    have htransition := engineStep_transition h
    exact htransition

/-! ### Host reads inside a command -/

/-- An address in an output extent of a command in execution lies in its output buffer (R61, R70). -/
theorem inOutput_of_inExtents {i : Instr} {a : Nat} (h : inExtents (liveFootprint (footprint i)).outs a = true) :
    InOutput i a := by
  obtain ⟨e, he, ha⟩ := List.any_eq_true.mp h
  obtain ⟨-, hmem⟩ := liveFootprint_outs he
  have hin : inExtents (footprint i).outs a = true := List.any_eq_true.mpr ⟨e, hmem, ha⟩
  cases i with
  | endCmd | nop | jump => cases hmem
  | addbias img baddr => exact ⟨_, List.mem_cons_self, rfl, inExtents_singleton.mp hin⟩
  | histeq inp out =>
    have hbounds := inExtents_singleton.mp hin
    simp only [extentOf, viewBuffer, esize, Nat.one_mul] at hbounds
    exact ⟨_, List.mem_cons_of_mem _ List.mem_cons_self, rfl, hbounds⟩
  | bsamp | affine | croprs | conv2d | relu | biasrelu | maxpool2 | softmax | otsu =>
    exact ⟨_, List.mem_cons_of_mem _ List.mem_cons_self, rfl, inExtents_singleton.mp hin⟩

/-- A read of memory inside a command returns what memory holds where the command does not write (R78, R79). -/
theorem duringAccess_read_memory {outs : List Extent} {s : State} {addr : Word} {n : Nat} (h : HostMemory s addr n)
    (hout : ∀ k < n, inExtents outs (addr.toNat + k) = false) :
    duringAccess outs (.read addr n) s =
      .next (drawn (logRead ((List.range n).map fun k => readByte s.mem (addr.toNat + k)) s)) := by
  have hmemory := inWindow_eq_false_of_hostMemory h
  obtain ⟨-, hend, -⟩ := h
  have hbytes : ((hostAddrs addr n).map fun a => if inExtents outs a then Config.freeByte s.draws a else readByte s.mem a) =
      (List.range n).map fun k => readByte s.mem (addr.toNat + k) := by
    rw [hostAddrs_eq hend, List.map_map]
    exact List.map_congr_left fun k hk => by simp [hout k (List.mem_range.mp hk)]
  rw [duringAccess, hmemory, if_neg Bool.false_ne_true, hbytes]

/-- A fetch reads the descriptor that `FetchedAt` names (R90, R186 step 2). -/
theorem fetchDesc_of_fetchedAt {s : State} {d : Desc} (h : FetchedAt s d) : fetchDesc [] s s = d := by
  obtain ⟨hordered, hwords⟩ := h
  have hclean : ∀ k < 16, wordUnordered s k = false := by
    intro k hk
    simp only [wordUnordered, List.any_eq_false, List.mem_range, List.contains_iff_mem]
    intro j hj
    rw [fetchAddr, Nat.add_assoc]
    exact hordered _ (by omega)
  rw [fetchDesc_nil hclean]
  exact desc_ext fun k hk => (descWord_descAt _ _ hk).trans (hwords k hk).symm

section
variable {s : State} {i : Instr} (hd : fetchDenied s = false) (hdec : decode (fetchDesc [] s s) = .ok i)
include hd hdec

theorem commandEvent_of_decode : commandEvent s = exec i := by
  simp [commandEvent, hd, hdec]

theorem stepOuts_of_decode : stepOuts s = (liveFootprint (footprint i)).outs := by
  simp [stepOuts, hd, hdec]

end

/-- A host read of memory inside a running command's step, of bytes the command does not write (R78, R79). -/
theorem engineStep_read_memory {s : State} {d : Desc} {i : Instr} {addr : Word} {n : Nat} (hrun : s.engine = .run)
    (hr : s.resetPin = false) (hs : s.stopReq = false) (hanswered : FetchAnswered s) (hfetched : FetchedAt s d)
    (hdec : decode d = .ok i) (h : HostMemory s addr n) (hout : ∀ k < n, ¬ InOutput i (addr.toNat + k)) :
    ∃ t, engineStep [] [.read addr n] s = .next t ∧
      t.readLog = s.readLog ++ [(List.range n).map fun k => readByte s.mem (addr.toNat + k)] := by
  have hd : fetchDenied s = false := fetchDenied_eq_false hanswered
  have hdec' : decode (fetchDesc [] s s) = .ok i := by rw [fetchDesc_of_fetchedAt hfetched, hdec]
  have hfree : ∀ k < n, inExtents (stepOuts s) (addr.toNat + k) = false := fun k hk => by
    rw [stepOuts_of_decode hd hdec', ← Bool.not_eq_true]
    exact fun hin => hout k hk (inOutput_of_inExtents hin)
  obtain ⟨d', l, m, hstate⟩ := fetchedState_eq s
  have hmemory : HostMemory (fetchedState s) addr n := by rw [hstate]; exact h
  have hread := duringAccess_read_memory hmemory hfree
  rw [engineStep_quiet hrun hr hs (.inr ⟨_, rfl, rfl, rfl, hread⟩), commandEvent_of_decode hd hdec']
  obtain ⟨t, ht, -, -, -, -, -, -, hlog, -⟩ := commandCompletesOrFaults i
    (drawn (logRead ((List.range n).map fun k => readByte (fetchedState s).mem (addr.toNat + k)) (fetchedState s)))
  refine ⟨t, ht, ?_⟩
  rw [hlog, drawn_readLog, logRead_readLog, hstate]

/-- Settles O56: each clause is the rule of its access. -/
theorem hostMovesReachMemory : Obligations.HostMovesReachMemory := by
  refine ⟨fun s e rest h => by rw [step, systemStep, h], fun s addr bytes hm h => ?_, fun s addr n h => ?_, ?_, ?_, ?_⟩
  · have hstore := hostAccess_write_memory h
    obtain ⟨-, hend, -⟩ := h
    exact ⟨_, hstore, rfl, hostStore_unordered_iff hend, fun k hk => readByte_hostStore hm hend hk,
      sameOutside_hostStore hm hend⟩
  · exact hostAccess_read_memory h
  · intro s d i addr n rest hrun hr hs hanswered hfetched hdec hsched h hout
    rw [step, systemStep, hsched]
    exact engineStep_read_memory (s := { s with schedule := rest }) hrun hr hs hanswered hfetched hdec h hout
  · intro s addr bytes n hr hw
    simp [hostAccess, inWindow_of_lt hw, hr]
  · intro s v hr he hreset hstart
    refine ⟨_, writesTo_of_windowWrite hr (by decide) (by decide) (ctrlWrite_idle hreset he), ?_, ?_⟩
    · simp only [if_pos hstart]
    · simp only [if_pos hstart]

end Sys2Proof.Proofs
end

section
/-! SUPPORT. What the event of a command step adds to `INTSTAT`, `FLAGS` and `CMDCNT` does not depend on what they held
(R29, R37, R217), so a bit it sets ends set over a host's clear before it; and the statement on that. -/

namespace Sys2Proof.Proofs

open Sys2Proof.Laws Sys2Proof.Machine Sys2Proof.Safety

/-- `t` is `s` with these bits set in `INTSTAT` and `FLAGS` and `CMDCNT` raised by `n`, so far as these registers go. -/
def Raises (causes degen n : Word) (s t : State) : Prop :=
  t.intstat = s.intstat ||| causes ∧ t.flags = s.flags ||| degen ∧ t.cmdCnt = s.cmdCnt + n

/-- Both outcomes are next states, and they raise the same bits over their own states. -/
def RaiseAlike (s s' : State) (o o' : Host.Outcome State Fault Refusal) : Prop :=
  ∃ causes degen n t t', o = .next t ∧ o' = .next t' ∧ Raises causes degen n s t ∧ Raises causes degen n s' t'

theorem raises_takeFault (c : Cause) (s : State) : Raises 2 0 0 s (takeFault c s) := by simp [Raises]

theorem raises_complete (next : Word) (s : State) : Raises 0 0 1 s (complete next s) := by simp [Raises]

theorem raises_endRun_complete (next : Word) (s : State) : Raises 1 0 1 s (endRun (complete next s)) := by simp [Raises]

theorem raises_busFault (outs : List Extent) (fs : List Access) (s : State) : Raises 2 0 0 s (busFault outs fs s) := by
  simp [Raises]

theorem raises_finish (w : Work) (s : State) : Raises 0 (if w.degen then 1 else 0) 1 s (finish w s) := by
  cases hdegen : w.degen <;> simp [Raises, hdegen]

section
variable {s s' : State} (hmem : s.mem = s'.mem) (hdenied : s.denied = s'.denied) (hdraws : s.draws = s'.draws)
include hdenied hdraws

theorem raiseAlike_runWork (outs : List Extent) (w : Work) :
    RaiseAlike s s' (runWork outs w s) (runWork outs w s') := by
  rw [runWork, runWork, isDenied_congr hdenied, hdraws]
  split_ifs
  · exact ⟨_, _, _, _, _, rfl, rfl, raises_busFault _ _ s, raises_busFault _ _ s'⟩
  · exact ⟨_, _, _, _, _, rfl, rfl, raises_busFault _ _ (drawn s), raises_busFault _ _ (drawn s')⟩
  · exact ⟨_, _, _, _, _, rfl, rfl, raises_finish w (drawn s), raises_finish w (drawn s')⟩
  · exact ⟨_, _, _, _, _, rfl, rfl, raises_finish w s, raises_finish w s'⟩

include hmem

/-- The bits a command sets depend on memory, the platform and the free values alone (R23, R29). -/
theorem raiseAlike_exec (i : Instr) : RaiseAlike s s' (exec i s) (exec i s') := by
  cases hw : workOf i with
  | some work =>
    rw [exec_of_workOf hw, exec_of_workOf hw, runUnit, runUnit]
    cases (footprint i).cause with
    | some c => exact ⟨_, _, _, _, _, rfl, rfl, raises_takeFault c s, raises_takeFault c s'⟩
    | none =>
      rw [← hmem]
      exact raiseAlike_runWork hdenied hdraws _ _
  | none =>
    cases i with
    | endCmd => exact ⟨_, _, _, _, _, rfl, rfl, raises_endRun_complete _ s, raises_endRun_complete _ s'⟩
    | nop => exact ⟨_, _, _, _, _, rfl, rfl, raises_complete _ s, raises_complete _ s'⟩
    | jump target =>
      simp only [exec, execJump]
      cases (jumpFootprint target).cause with
      | some c => exact ⟨_, _, _, _, _, rfl, rfl, raises_takeFault c s, raises_takeFault c s'⟩
      | none => exact ⟨_, _, _, _, _, rfl, rfl, raises_complete _ s, raises_complete _ s'⟩
    | bsamp | affine | croprs | conv2d | addbias | relu | biasrelu | maxpool2 | softmax | histeq | otsu => cases hw

/-- So do those the event of a command step sets. -/
theorem raiseAlike_commandEvent (s₀ : State) : RaiseAlike s s' (commandEvent s₀ s) (commandEvent s₀ s') := by
  unfold commandEvent
  split_ifs
  · exact ⟨_, _, _, _, _, rfl, rfl, raises_takeFault _ s, raises_takeFault _ s'⟩
  · cases decode (fetchDesc [] s₀ s₀) with
    | error e => exact ⟨_, _, _, _, _, rfl, rfl, raises_takeFault _ s, raises_takeFault _ s'⟩
    | ok i => exact raiseAlike_exec hmem hdenied hdraws i

end

/-- A host write of `FLAGS`, `INTEN` or `INTSTAT` inside a step happens and races with nothing. -/
theorem quietEvents_write {outs : List Extent} {s : State} {off : Nat} {v : Word} (hoff : off < 4096) (h4 : off % 4 = 0)
    (hctrl : off ≠ 0x004) (hr : s.resetPin = false) :
    QuietEvents outs s [.write (s.mmioBase + BitVec.ofNat 32 off) (bytesOfWord v)] (windowWrite off v s) := by
  have hwindow : windowOffset s (s.mmioBase + BitVec.ofNat 32 off) = off := windowOffset_base s hoff
  refine .inr ⟨_, rfl, ?_, ?_, hostAccess_writeWord v hoff h4 hr⟩
  · simp [isResetEvent, hwindow, hctrl]
  · simp [memoryWrites, inWindow, hwindow, hoff]

/-- What a host finds of the bits that a step raised: all of them, over whatever it wrote to the register before. -/
theorem bits_of_raiseAlike {s s' t : State} {o' : Host.Outcome State Fault Refusal} (h : RaiseAlike s s' (.next t) o')
    (hcount : s'.cmdCnt = s.cmdCnt) :
    ∃ u, o' = .next u ∧ u.cmdCnt = t.cmdCnt ∧
      (s.intstat = 0 → ∀ k, t.intstat.getLsbD k = true → u.intstat.getLsbD k = true) ∧
      (s.flags = 0 → ∀ k, t.flags.getLsbD k = true → u.flags.getLsbD k = true) := by
  obtain ⟨causes, degen, n, t', u, ht, hu, ⟨hint, hflags, hcnt⟩, ⟨hint', hflags', hcnt'⟩⟩ := h
  injection ht with ht
  subst ht
  have set_of_clear {old new bits : Word} (hold : old = 0) (k : Nat) (hk : (old ||| bits).getLsbD k = true) :
      (new ||| bits).getLsbD k = true := by
    have hbit : bits.getLsbD k = true := by simpa [hold] using hk
    rw [BitVec.getLsbD_or, hbit, Bool.or_true]
  refine ⟨u, hu, by rw [hcnt, hcnt', hcount], ?_, ?_⟩
  · rw [hint, hint']
    exact set_of_clear
  · rw [hflags, hflags']
    exact set_of_clear

/-- `s` with other `FLAGS` and `INTSTAT`. -/
def withBits (flags intstat : Word) (s : State) : State := { s with flags := flags, intstat := intstat }

theorem fetchDenied_withBits (flags intstat : Word) (s : State) :
    fetchDenied (withBits flags intstat s) = fetchDenied s := rfl

theorem wordUnordered_withBits (flags intstat : Word) (s : State) :
    wordUnordered (withBits flags intstat s) = wordUnordered s := rfl

theorem fetchDraws_withBits (flags intstat : Word) (s : State) :
    fetchDraws [] (withBits flags intstat s) (withBits flags intstat s) = withBits flags intstat (fetchDraws [] s s) := by
  have hwrites : memoryWrites (withBits flags intstat s) [] = memoryWrites s [] := rfl
  rw [fetchDraws, fetchDraws, wordUnordered_withBits, hwrites]
  split_ifs <;> rfl

/-- No fetch reads `FLAGS` or `INTSTAT`. -/
theorem fetchedState_withBits (flags intstat : Word) (s : State) :
    fetchedState (withBits flags intstat s) = withBits flags intstat (fetchedState s) := by
  rw [fetchedState, fetchedState, fetchDenied_withBits, fetchDraws_withBits]
  split_ifs <;> rfl

/-- A stop step with one host event in it: the event, then the honoured stop (R186 step 1, log entry 5). -/
theorem engineStep_stop_single {s u : State} {e : HostEvent} (hrun : s.engine = .run) (hr : s.resetPin = false)
    (hs : s.stopReq = true) (h : hostAccess e s = .next u) : engineStep [] [e] s = .next (honourPending u) := by
  simp [engineStep, stopStep, hostAccesses, hrun, hr, hs, h]

/-- A running engine's turn raises the same bits when `FLAGS` and `INTSTAT` hold something else and the host writes one of
them inside the turn; the engine's event comes after the write (log entry 5). -/
theorem raiseAlike_engineStep {s : State} {flags intstat flags' intstat' : Word} {off : Nat} {v : Word}
    (hrun : s.engine = .run) (hr : s.resetPin = false) (hoff : off < 4096) (h4 : off % 4 = 0) (hctrl : off ≠ 0x004)
    (hwrite : ∀ u, windowWrite off v (withBits flags intstat u) = withBits flags' intstat' u) :
    RaiseAlike s (withBits flags' intstat' s) (engineStep [] [] s)
      (engineStep [] [.write (s.mmioBase + BitVec.ofNat 32 off) (bytesOfWord v)] (withBits flags intstat s)) := by
  cases hs : s.stopReq with
  | true =>
    have haccess : hostAccess (.write (s.mmioBase + BitVec.ofNat 32 off) (bytesOfWord v)) (withBits flags intstat s) =
        .next (withBits flags' intstat' s) := by
      rw [← hwrite]
      exact hostAccess_writeWord v hoff h4 hr
    have hpending : honourPending (withBits flags' intstat' s) = honourStop (withBits flags' intstat' s) :=
      if_pos ⟨hrun, hs, hr⟩
    rw [engineStep_stop hrun hr hs, engineStep_stop_single (s := withBits flags intstat s) hrun hr hs haccess, hpending]
    exact ⟨4, 0, 0, _, _, rfl, rfl, by simp [Raises], by simp [Raises]⟩
  | false =>
    obtain ⟨d, l, n, hstate⟩ := fetchedState_eq s
    have hquiet : QuietEvents (stepOuts s) (fetchedState (withBits flags intstat s))
        [.write (s.mmioBase + BitVec.ofNat 32 off) (bytesOfWord v)] (withBits flags' intstat' (fetchedState s)) := by
      rw [← hwrite, fetchedState_withBits, hstate]
      exact quietEvents_write hoff h4 hctrl hr
    rw [engineStep_noEvents hrun hr hs, engineStep_quiet (s := withBits flags intstat s) hrun hr hs hquiet]
    have hraise := raiseAlike_commandEvent (s := fetchedState s) (s' := withBits flags' intstat' (fetchedState s))
      rfl rfl rfl s
    rw [hstate] at hraise ⊢
    exact hraise

/-- Settles O58: the host's write comes first, and the bits the step raises do not depend on what it left. -/
theorem engineSetWinsOverHostClear : Obligations.EngineSetWinsOverHostClear := by
  intro s t v rest hrun hr hsched ht
  rw [step_of_quietTurn (.inr hsched)] at ht
  refine ⟨fun hzero old => ?_, fun hzero old => ?_⟩
  · have hraise := raiseAlike_engineStep (s := { s with schedule := rest }) (flags := s.flags) (intstat := old) (off := 0x018)
      (v := v) (flags' := s.flags) (intstat' := writeOneClear 7 old v) hrun hr (by decide) (by decide) (by decide)
      fun u => windowWrite_intstat v (withBits s.flags old u)
    rw [ht] at hraise
    obtain ⟨u, hu, hcount, hbits, -⟩ := bits_of_raiseAlike hraise rfl
    exact ⟨u, hu, hcount, hbits hzero⟩
  · have hraise := raiseAlike_engineStep (s := { s with schedule := rest }) (flags := old) (intstat := s.intstat) (off := 0x010)
      (v := v) (flags' := writeOneClear 1 old v) (intstat' := s.intstat) hrun hr (by decide) (by decide) (by decide)
      fun u => windowWrite_flags v (withBits old s.intstat u)
    rw [ht] at hraise
    obtain ⟨u, hu, hcount, -, hbits⟩ := bits_of_raiseAlike hraise rfl
    exact ⟨u, hu, hcount, hbits hzero⟩

end Sys2Proof.Proofs
end

section
/-! SUPPORT. Every operation of the machine keeps the invariant (R25, R29, R33, R36 to R38, R60), in the order of the
model: the updates of a state, the host's events, a command, the races it leaves, and the step; and the statements on it. -/

namespace Sys2Proof.Proofs

open Sys2Proof.Laws Sys2Proof.Machine Sys2Proof.Safety

/-! ### Words within a bound -/

theorem toNat_or_lt {a b : Word} {n : Nat} (ha : a.toNat < 2 ^ n) (hb : b.toNat < 2 ^ n) : (a ||| b).toNat < 2 ^ n := by
  rw [BitVec.toNat_or]
  exact Nat.or_lt_two_pow ha hb

theorem toNat_and_le_left (a b : Word) : (a &&& b).toNat ≤ a.toNat := by
  rw [BitVec.toNat_and]
  exact Nat.and_le_left

theorem toNat_and_le_right (a b : Word) : (a &&& b).toNat ≤ b.toNat := by
  rw [BitVec.toNat_and]
  exact Nat.and_le_right

/-- The descriptor after an aligned one is aligned (R26). -/
theorem aligned_add_64 {cp : Word} (h : cp.toNat % 64 = 0) : (cp + 64).toNat % 64 = 0 := by
  rw [BitVec.toNat_add, show (64 : Word).toNat = 64 from rfl]
  omega

/-- Every fault has a code, and the highest is 8 (R201). -/
theorem errCodeOf_bounds (c : Cause) : (errCodeOf c).toNat ≤ 8 ∧ errCodeOf c ≠ 0 := by
  cases c <;> simp [errCodeOf]

/-! ### Updates of a state -/

/-- Every address of these cells is one of the address space (R60). -/
abbrev CellsInSpace (cells : List Host.Cell) : Prop := ∀ c ∈ cells, c.1 < 2 ^ 32

/-- These ranges end at or below 2^32 (R207). -/
abbrev OutsInSpace (outs : List Extent) : Prop := ∀ e ∈ outs, e.addr + e.size ≤ 2 ^ 32

theorem clearFault_resetPin (v : Word) (s : State) : (clearFault v s).resetPin = s.resetPin := by
  rw [clearFault]
  split_ifs <;> rfl

section
variable {s : State} (h : MachineInv s)
include h

theorem machineInv_drawn : MachineInv (drawn s) := h

theorem machineInv_logRead (bytes : List Byte) : MachineInv (logRead bytes s) := h

theorem machineInv_latch (d : Desc) : MachineInv (latch d s) := h

theorem machineInv_ordered (es : List Extent) (racing : List Nat) : MachineInv (ordered es racing s) := h

theorem machineInv_schedule (rest : List Move) : MachineInv { s with schedule := rest } := h

theorem machineInv_fetchDraws (fetching : List HostEvent) (s₀ : State) : MachineInv (fetchDraws fetching s₀ s) := by
  rw [fetchDraws]
  split_ifs <;> exact h

/-- A running block is out of reset. -/
theorem resetPin_of_run (hrun : s.engine = .run) : s.resetPin = false := by
  obtain ⟨-, -, -, -, -, -, -, -, -, hpin, -⟩ := h
  cases hr : s.resetPin with
  | false => rfl
  | true =>
    have hidle := hpin hr
    rw [hrun] at hidle
    cases hidle

theorem machineInv_writeCells {cells : List Host.Cell} (hc : CellsInSpace cells) :
    MachineInv { s with mem := writeCells s.mem cells } := by
  obtain ⟨hwf, hspace, hrest⟩ := h
  exact ⟨wf_writeCells cells hwf, fun c hmem => (mem_writeCells hmem).elim (hc c) (hspace c), hrest⟩

theorem machineInv_hostStore (addr : Word) (bytes : List Byte) : MachineInv (hostStore addr bytes s) :=
  machineInv_writeCells h (hostCells_lt addr bytes)

theorem machineInv_havoc {es : List Extent} (hes : OutsInSpace es) : MachineInv (havoc es s) := by
  refine machineInv_writeCells h fun c hc => ?_
  obtain ⟨a, ha, rfl⟩ := List.mem_map.mp hc
  obtain ⟨e, he, hae⟩ := List.mem_flatMap.mp ha
  have hin := mem_extentAddrs.mp hae
  have hend := hes e he
  simp only [inExtent, Bool.and_eq_true, decide_eq_true_eq] at hin
  show a < 2 ^ 32
  omega

theorem machineInv_takeFault (c : Cause) (hr : s.resetPin = false) : MachineInv (takeFault c s) := by
  obtain ⟨hwf, hspace, hcp, hflags, hinten, hint, -, -, -, -, hbase⟩ := h
  obtain ⟨hcode, hnonzero⟩ := errCodeOf_bounds c
  exact ⟨hwf, hspace, hcp, hflags, hinten, toNat_or_lt (n := 3) hint (by decide), hcode, nofun, fun _ => hnonzero,
    fun hpin => absurd (hr.symm.trans hpin) Bool.false_ne_true, hbase⟩

theorem machineInv_complete {next : Word} (hnext : next.toNat % 64 = 0) : MachineInv (complete next s) := by
  obtain ⟨hwf, hspace, -, hrest⟩ := h
  exact ⟨hwf, hspace, hnext, hrest⟩

theorem machineInv_completeNext : MachineInv (complete (s.cp + 64) s) := by
  obtain ⟨-, -, hcp, -⟩ := id h
  exact machineInv_complete h (aligned_add_64 hcp)

theorem machineInv_flags {flags : Word} (hflags : flags.toNat < 2) : MachineInv { s with flags := flags } := by
  obtain ⟨hwf, hspace, hcp, -, hrest⟩ := h
  exact ⟨hwf, hspace, hcp, hflags, hrest⟩

theorem machineInv_setDegen (degen : Bool) : MachineInv (setDegen degen s) := by
  cases degen with
  | false => exact h
  | true =>
    obtain ⟨-, -, -, hflags, -⟩ := id h
    exact machineInv_flags h (toNat_or_lt (n := 1) hflags (by decide))

theorem machineInv_endRun : MachineInv (endRun s) := by
  obtain ⟨hwf, hspace, hcp, hflags, hinten, hint, herr, -, -, -, hbase⟩ := h
  exact ⟨hwf, hspace, hcp, hflags, hinten, toNat_or_lt (n := 3) hint (by decide), herr, nofun, nofun, fun _ => rfl, hbase⟩

theorem machineInv_honourStop : MachineInv (honourStop s) := by
  obtain ⟨hwf, hspace, hcp, hflags, hinten, hint, herr, -, -, -, hbase⟩ := h
  exact ⟨hwf, hspace, hcp, hflags, hinten, toNat_or_lt (n := 3) hint (by decide), herr, nofun, nofun, fun _ => rfl, hbase⟩

/-! ### Reset and the register window -/

/-- A reset block is within the invariant, whatever the level of the reset input (R48, R240). -/
theorem machineInv_registersReset (pin : Bool) : MachineInv { registersReset s with resetPin := pin } := by
  obtain ⟨hwf, hspace, -, -, -, -, -, -, -, -, hbase⟩ := h
  exact ⟨hwf, hspace, rfl, Nat.zero_lt_succ 1, Nat.zero_lt_succ 7, Nat.zero_lt_succ 7, Nat.zero_le 8, nofun, nofun, fun _ => rfl, hbase⟩

theorem machineInv_driveReset (asserted : Bool) : MachineInv (driveReset asserted s) := by
  rw [driveReset]
  split_ifs
  · exact machineInv_registersReset h asserted
  · exact h

theorem machineInv_clearFault (v : Word) : MachineInv (clearFault v s) := by
  rw [clearFault]
  split_ifs with hc
  · obtain ⟨hwf, hspace, hcp, hflags, hinten, hint, herr, hstop, -, -, hbase⟩ := h
    refine ⟨hwf, hspace, hcp, hflags, hinten, hint, herr, fun hreq => ?_, nofun, fun _ => rfl, hbase⟩
    exact absurd (hstop hreq) (by simp [hc.2])
  · exact h

theorem machineInv_startEngine (v : Word) (hr : s.resetPin = false) : MachineInv (startEngine v s) := by
  rw [startEngine]
  split_ifs
  · obtain ⟨hwf, hspace, hcp, hflags, hinten, hint, herr, -, -, -, hbase⟩ := h
    exact ⟨hwf, hspace, hcp, hflags, hinten, hint, herr, nofun, nofun,
      fun hpin => absurd (hr.symm.trans hpin) Bool.false_ne_true, hbase⟩
  · exact h

theorem machineInv_requestStop (v : Word) : MachineInv (requestStop v s) := by
  rw [requestStop]
  split_ifs with hc
  · obtain ⟨hwf, hspace, hcp, hflags, hinten, hint, herr, -, hrest⟩ := h
    exact ⟨hwf, hspace, hcp, hflags, hinten, hint, herr, fun _ => hc.2, hrest⟩
  · exact h

theorem machineInv_ctrlWrite (v : Word) (hr : s.resetPin = false) : MachineInv (ctrlWrite v s) := by
  rw [ctrlWrite]
  split_ifs
  · exact machineInv_registersReset h s.resetPin
  · have hr' : (clearFault v s).resetPin = false := by rw [clearFault_resetPin, hr]
    exact machineInv_requestStop (machineInv_startEngine (machineInv_clearFault h v) v hr') v

theorem machineInv_cpWrite (v : Word) : MachineInv (cpWrite v s) := by
  by_cases hrun : s.engine = .run
  · rw [cpWrite_run hrun]
    exact h
  · rw [cpWrite_halted hrun]
    obtain ⟨hwf, hspace, -, hrest⟩ := h
    refine ⟨hwf, hspace, ?_, hrest⟩
    show (BitVec.ofNat 32 (v.toNat / 64 * 64)).toNat % 64 = 0
    rw [BitVec.toNat_ofNat]
    omega

theorem machineInv_windowWrite (off : Nat) (v : Word) (hr : s.resetPin = false) : MachineInv (windowWrite off v s) := by
  rcases windowWrite_cases off v s with ⟨-, hw⟩ | hw | hw | hw | hw | hw <;> rw [hw]
  · exact machineInv_ctrlWrite h v hr
  · exact machineInv_cpWrite h v
  · obtain ⟨-, -, -, hflags, -⟩ := id h
    exact machineInv_flags h ((toNat_and_le_left _ _).trans_lt hflags)
  · obtain ⟨hwf, hspace, hcp, hflags, -, hrest⟩ := h
    exact ⟨hwf, hspace, hcp, hflags, (toNat_and_le_right v 7).trans_lt (by decide), hrest⟩
  · obtain ⟨hwf, hspace, hcp, hflags, hinten, hint, hrest⟩ := h
    exact ⟨hwf, hspace, hcp, hflags, hinten, (toNat_and_le_left _ _).trans_lt hint, hrest⟩
  · exact h

end

/-! ### Host events -/

theorem machineInv_hostAccess {e : HostEvent} {s t : State} (h : MachineInv s) (ht : hostAccess e s = .next t) : MachineInv t := by
  rcases hostAccess_cases ht with ⟨off, v, -, hr, ht⟩ | ht | ⟨addr, bytes, -, ht⟩ | ⟨_, _, bytes, -, ht⟩ | ⟨b, -, ht⟩ | ⟨-, ht⟩
  · cases ht
    exact machineInv_windowWrite h off v hr
  · cases ht
    exact h
  · cases ht
    exact machineInv_hostStore h addr bytes
  · cases ht
    exact machineInv_logRead h bytes
  · cases ht
    exact machineInv_driveReset h b
  · cases ht

/-- The first of several host accesses, and those after it. -/
theorem hostAccesses_cons {e : HostEvent} {es : List HostEvent} {s t : State} (h : hostAccesses (e :: es) s = .next t) :
    ∃ u, hostAccess e s = .next u ∧ hostAccesses es u = .next t := by
  rw [hostAccesses] at h
  cases hu : hostAccess e s with
  | next u => rw [hu] at h; exact ⟨u, rfl, h⟩
  | fault f => cases f
  | refused r => rw [hu] at h; cases h

theorem machineInv_hostAccesses {es : List HostEvent} {s t : State} (h : MachineInv s) (ht : hostAccesses es s = .next t) :
    MachineInv t := by
  induction es generalizing s with
  | nil =>
    injection ht with ht
    exact ht ▸ h
  | cons e es ih =>
    obtain ⟨u, hu, ht⟩ := hostAccesses_cons ht
    exact ih (machineInv_hostAccess h hu) ht

/-- An event that resets nothing leaves a running engine running (R32). -/
theorem hostAccess_run {e : HostEvent} {s t : State} (hrun : s.engine = .run) (hr : s.resetPin = false)
    (he : isResetEvent s e = false) (ht : hostAccess e s = .next t) : t.engine = .run := by
  rcases hostAccess_cases_of_not_reset ht he with ⟨off, v, hv, rfl⟩ | rfl | ⟨_, _, rfl⟩ | ⟨_, rfl⟩ | ⟨-, rfl⟩
  · rcases windowWrite_cases off v s with ⟨hoff, hw⟩ | hw | hw | hw | hw | hw <;> rw [hw]
    · rw [ctrlWrite_run (hv hoff) hrun, requestStop]
      split_ifs <;> exact hrun
    · rw [cpWrite_run hrun]
      exact hrun
    all_goals exact hrun
  · exact hrun
  · exact hrun
  · exact hrun
  · simpa [driveReset, hr] using hrun

/-- The first of several host events inside a command, and those after it: a reset, which abandons the command, or an event
that does not (R241). -/
theorem duringAccesses_cons {outs : List Extent} {e : HostEvent} {es : List HostEvent} {s : State} {p : State × Bool}
    (h : duringAccesses outs (e :: es) s = .next p) :
    (∃ t, hostAccesses (e :: es) (havoc outs s) = .next t ∧ p = (t, true)) ∨
    (isResetEvent s e = false ∧ ∃ u, duringAccess outs e s = .next u ∧ duringAccesses outs es u = .next p) := by
  rw [duringAccesses] at h
  split_ifs at h with he
  · left
    cases ht : hostAccesses (e :: es) (havoc outs s) with
    | next t =>
      rw [ht] at h
      injection h with h
      exact ⟨t, rfl, h.symm⟩
    | fault f => cases f
    | refused r => rw [ht] at h; cases h
  · right
    refine ⟨by simpa using he, ?_⟩
    cases hu : duringAccess outs e s with
    | next u => rw [hu] at h; exact ⟨u, rfl, h⟩
    | fault f => cases f
    | refused r => rw [hu] at h; cases h

/-- Host events inside a command keep the invariant, and without a reset among them the engine runs on. -/
theorem machineInv_duringAccesses {outs : List Extent} {es : List HostEvent} {s t : State} {abandoned : Bool}
    (hout : OutsInSpace outs) (h : MachineInv s) (hrun : s.engine = .run)
    (ht : duringAccesses outs es s = .next (t, abandoned)) : MachineInv t ∧ (abandoned = false → t.engine = .run) := by
  induction es generalizing s with
  | nil =>
    cases ht
    exact ⟨h, fun _ => hrun⟩
  | cons e es ih =>
    rcases duringAccesses_cons ht with ⟨t', ht', hp⟩ | ⟨he, u, hu, ht'⟩
    · cases hp
      exact ⟨machineInv_hostAccesses (machineInv_havoc h hout) ht', nofun⟩
    · rcases duringAccess_cases hu with hu | ⟨_, _, bytes, -, hu⟩
      · exact ih (machineInv_hostAccess h hu.symm) (hostAccess_run hrun (resetPin_of_run h hrun) he hu.symm) ht'
      · injection hu with hu
        subst hu
        exact ih (machineInv_drawn (machineInv_logRead h bytes)) hrun ht'

/-! ### Commands -/

theorem outsInSpace_live (fp : Footprint) (h : fp.cause = none → OutsInSpace fp.outs) : OutsInSpace (liveFootprint fp).outs :=
  fun e he => by
    obtain ⟨hc, hmem⟩ := liveFootprint_outs he
    exact h hc e hmem

theorem machineInv_finish {w : Work} {s : State} (h : MachineInv s) (hc : CellsInSpace w.stores) : MachineInv (finish w s) := by
  have hset := machineInv_setDegen (machineInv_writeCells h hc) w.degen
  have hcp : (setDegen w.degen { s with mem := writeCells s.mem w.stores }).cp = s.cp := setDegen_cp _ _
  have hdone := machineInv_completeNext hset
  rwa [hcp] at hdone

/-- An address in a range that ends at or below 2^32 is one of the address space. -/
theorem lt_of_inExtents {outs : List Extent} (h : OutsInSpace outs) {a : Nat} (ha : inExtents outs a = true) : a < 2 ^ 32 := by
  obtain ⟨e, he, hae⟩ := List.any_eq_true.mp ha
  have hend := h e he
  simp only [inExtent, Bool.and_eq_true, decide_eq_true_eq] at hae
  omega

theorem machineInv_exec {i : Instr} {s t : State} (h : MachineInv s) (hrun : s.engine = .run) (ht : exec i s = .next t) :
    MachineInv t := by
  have hr := resetPin_of_run h hrun
  rcases exec_cases ht with ⟨-, rfl⟩ | ⟨-, rfl⟩ | ⟨target, -, haligned, rfl⟩ | ⟨c, -, rfl⟩ | ⟨work, s', hw, hc, hs', ht⟩
  · exact machineInv_endRun (machineInv_completeNext h)
  · exact machineInv_completeNext h
  · exact machineInv_complete h haligned
  · exact machineInv_takeFault h c hr
  · have houts : OutsInSpace (footprint i).outs := footprint_outs_end hc
    have h' : MachineInv s' := by rcases hs' with rfl | rfl <;> exact h
    have hr' : s'.resetPin = false := by rcases hs' with rfl | rfl <;> exact hr
    rcases ht with rfl | ⟨fs, rfl⟩
    · exact machineInv_finish h' fun c hmem => lt_of_inExtents houts (stores_inExtents hw hc s.mem hmem)
    · exact machineInv_takeFault (machineInv_havoc h' houts) _ hr'

/-! ### Races -/

theorem cellsInSpace_memoryWrites (s : State) (es : List HostEvent) : CellsInSpace (memoryWrites s es).flatten := by
  intro c hc
  obtain ⟨cells, hcells, hmem⟩ := List.mem_flatten.mp hc
  obtain ⟨e, -, he⟩ := List.mem_filterMap.mp hcells
  cases e with
  | write addr bytes =>
    simp only at he
    split_ifs at he
    cases he
    exact hostCells_lt addr bytes c hmem
  | read => cases he
  | resetPin => cases he

theorem machineInv_settleByte {outs : List Extent} {s : State} {c : Host.Cell} (h : MachineInv s) (hc : c.1 < 2 ^ 32) :
    MachineInv (settleByte outs s c) := by
  rw [settleByte]
  split_ifs
  · exact machineInv_writeCells (cells := [c]) h fun d hd => List.mem_singleton.mp hd ▸ hc
  · exact h
  · exact h

theorem machineInv_settleInputRace {fp : Footprint} {dataFlag : Bool} {before after : State} (hout : OutsInSpace fp.outs)
    (hb : MachineInv before) (ha : MachineInv after) : MachineInv (settleInputRace fp dataFlag before after) := by
  have hhavoc := machineInv_havoc ha hout
  obtain ⟨-, -, -, hflags, -⟩ := hb
  rw [settleInputRace]
  split_ifs
  · exact machineInv_flags hhavoc (toNat_or_lt (n := 1) hflags (by decide))
  · exact machineInv_flags hhavoc hflags
  · exact hhavoc

theorem machineInv_settleRaces {fp : Footprint} {dataFlag : Bool} {cells : List Host.Cell} {before after : State}
    (hout : OutsInSpace fp.outs) (hc : CellsInSpace cells) (hb : MachineInv before) (ha : MachineInv after) :
    MachineInv (settleRaces fp dataFlag cells before after) := by
  have settle : ∀ {cs : List Host.Cell} {s : State}, CellsInSpace cs → MachineInv s →
      MachineInv (cs.foldl (settleByte fp.outs) s) := by
    intro cs
    induction cs with
    | nil => exact fun _ h => h
    | cons c cs ih =>
      intro s hcs h
      exact ih (fun d hd => hcs d (List.mem_cons_of_mem _ hd)) (machineInv_settleByte h (hcs c List.mem_cons_self))
  cases cells with
  | nil => exact ha
  | cons c cs =>
    refine settle hc ?_
    split_ifs
    · exact machineInv_settleInputRace hout hb ha
    · exact ha

/-! ### The step -/

theorem machineInv_commandRest {fp : Footprint} {dataFlag : Bool} {early : List Host.Cell} {during : List HostEvent}
    {act : State → Host.Outcome State Fault Refusal} {s t : State} (hout : OutsInSpace fp.outs)
    (hearly : CellsInSpace early) (hact : ∀ u u', MachineInv u → u.engine = .run → act u = .next u' → MachineInv u')
    (h : MachineInv s) (hrun : s.engine = .run) (ht : commandRest fp dataFlag early during act s = .next t) :
    MachineInv t := by
  rcases commandRest_cases ht with hreset | ⟨u, u', hu, hu', rfl⟩
  · exact (machineInv_duringAccesses hout h hrun hreset).1
  · obtain ⟨hinv, hengine⟩ := machineInv_duringAccesses hout h hrun hu
    refine machineInv_settleRaces hout (fun c hc => ?_) hinv (hact u u' hinv (hengine rfl) hu')
    exact (List.mem_append.mp hc).elim (hearly c) (cellsInSpace_memoryWrites s during c)

/-- The fault entry as the event that ends a step. -/
theorem machineInv_faultEvent (c : Cause) (u u' : State) (h : MachineInv u) (hrun : u.engine = .run)
    (hu : Host.Outcome.next (φ := Fault) (ρ := Refusal) (takeFault c u) = .next u') : MachineInv u' := by
  injection hu with hu
  exact hu ▸ machineInv_takeFault h c (resetPin_of_run h hrun)

theorem machineInv_commandStep {fetching executing : List HostEvent} {s t : State} (h : MachineInv s) (hrun : s.engine = .run)
    (ht : commandStep fetching executing s = .next t) : MachineInv t := by
  have hnone : OutsInSpace [] := fun e he => absurd he List.not_mem_nil
  have hnoCells : CellsInSpace [] := fun c hc => absurd hc List.not_mem_nil
  rcases commandStep_cases ht with ⟨u, hu, ht⟩ | ⟨u, hu, hrest⟩
  · exact machineInv_hostAccesses (machineInv_duringAccesses hnone h hrun hu).1 ht
  obtain ⟨hinv, hengine⟩ := machineInv_duringAccesses hnone h hrun hu
  have hfetched : MachineInv (latch (fetchDesc fetching s u) (fetchDraws fetching s u)) :=
    machineInv_latch (machineInv_fetchDraws hinv fetching s) _
  have hfetchedRun : (latch (fetchDesc fetching s u) (fetchDraws fetching s u)).engine = .run := by
    rw [latch_engine, fetchDraws]
    split_ifs <;> exact hengine rfl
  rcases hrest with ⟨-, ht⟩ | ⟨-, e, -, ht⟩ | ⟨-, i, -, ht⟩
  · exact machineInv_commandRest hnone hnoCells (machineInv_faultEvent _) hinv (hengine rfl) ht
  · exact machineInv_commandRest hnone hnoCells (machineInv_faultEvent _) hfetched hfetchedRun ht
  · exact machineInv_commandRest (outsInSpace_live _ footprint_outs_end) (cellsInSpace_memoryWrites s fetching)
      (fun _ _ => machineInv_exec) (machineInv_ordered hfetched _ _) hfetchedRun ht

theorem machineInv_engineStep {fetching executing : List HostEvent} {s t : State} (h : MachineInv s)
    (ht : engineStep fetching executing s = .next t) : MachineInv t := by
  rcases engineStep_cases ht with ⟨-, ht⟩ | ⟨-, -, -, ht⟩ | ⟨-, hrun, -, ht⟩
  · exact machineInv_hostAccesses h ht.symm
  · obtain ⟨u, hu, ⟨-, -, -, rfl⟩ | ⟨-, rfl⟩⟩ := stopStep_cases ht.symm
    · exact machineInv_honourStop (machineInv_hostAccesses h hu)
    · exact machineInv_hostAccesses h hu
  · exact machineInv_commandStep h hrun ht.symm

/-- Settles O48: a step is one move, and every kind of move keeps the invariant. -/
theorem stepKeepsInvariant : Obligations.StepKeepsInvariant := by
  intro s t h ht
  rw [step, systemStep] at ht
  split at ht
  · exact machineInv_engineStep h ht
  · exact machineInv_hostAccess (machineInv_schedule h _) ht
  · exact machineInv_engineStep (machineInv_schedule h _) ht

/-- Settles O47, by evaluation of the one state. -/
theorem resetSatisfiesInvariant : Obligations.ResetSatisfiesInvariant := by
  unfold Obligations.ResetSatisfiesInvariant
  decide

end Sys2Proof.Proofs
end

section
/-! SUPPORT. What a command and its races may write (R61, R72, R78, R210): no byte of memory outside the output extents of
the command in execution; and the statements on that. -/

namespace Sys2Proof.Proofs

open Sys2Proof.Laws Sys2Proof.Machine Sys2Proof.Safety

/-! ### Memory changed within extents only -/

/-- `m'` is canonical and reads as `m` at every address outside these ranges. -/
structure ChangesOnly (es : List Extent) (m m' : Memory) : Prop where
  wf : Memory.wf m' = true
  frame : ∀ a, inExtents es a = false → readByte m' a = readByte m a

section
variable {es : List Extent} {m m' m'' : Memory}

theorem changesOnly_refl (es : List Extent) (h : Memory.wf m = true) : ChangesOnly es m m := ⟨h, fun _ _ => rfl⟩

theorem ChangesOnly.trans (h : ChangesOnly es m m') (h' : ChangesOnly es m' m'') : ChangesOnly es m m'' :=
  ⟨h'.wf, fun a ha => (h'.frame a ha).trans (h.frame a ha)⟩

theorem changesOnly_writeCells {cells : List Host.Cell} (h : Memory.wf m = true)
    (hc : ∀ c ∈ cells, inExtents es c.1 = true) : ChangesOnly es m (writeCells m cells) := by
  refine ⟨wf_writeCells cells h, fun a ha => readByte_writeCells_other h fun c hmem he => ?_⟩
  have hin := hc c hmem
  rw [he, ha] at hin
  cases hin

theorem changesOnly_havoc (es : List Extent) {s : State} (h : Memory.wf s.mem = true) :
    ChangesOnly es s.mem (havoc es s).mem := ⟨wf_havoc es h, fun _ ha => readByte_havoc h ha⟩

end

/-! ### Commands -/

theorem liveFootprint_of_none {fp : Footprint} (h : fp.cause = none) : liveFootprint fp = fp := by
  simp [liveFootprint, h]

/-- A command changes no byte outside the extents it has in execution (R61, R72, R210). -/
theorem changesOnly_exec {i : Instr} {s t : State} (h : Memory.wf s.mem = true) (ht : exec i s = .next t) :
    ChangesOnly (liveFootprint (footprint i)).outs s.mem t.mem := by
  rcases exec_cases ht with ⟨-, rfl⟩ | ⟨-, rfl⟩ | ⟨_, -, -, rfl⟩ | ⟨c, -, rfl⟩ | ⟨work, s', hw, hc, hs', ht⟩
  · exact changesOnly_refl _ h
  · exact changesOnly_refl _ h
  · exact changesOnly_refl _ h
  · exact changesOnly_refl _ h
  · have hmem : s'.mem = s.mem := by rcases hs' with rfl | rfl <;> rfl
    rw [liveFootprint_of_none hc, ← hmem]
    rw [← hmem] at h ht
    rcases ht with rfl | ⟨fs, rfl⟩
    · rw [finish_mem]
      exact changesOnly_writeCells h fun c hmem => stores_inExtents hw hc s'.mem hmem
    · exact changesOnly_havoc _ h

/-- A running command that takes a fault of its checks leaves memory as it was: a completion does not halt the engine in
`FAULTED`, and a denied access has code 8 (R210). -/
theorem exec_mem_of_precise_fault {i : Instr} {s t : State} (ht : exec i s = .next t) (hrun : s.engine = .run)
    (hfaulted : t.engine = .faulted) (hcode : t.errCode.toNat < 8) : t.mem = s.mem := by
  rcases exec_cases ht with ⟨-, rfl⟩ | ⟨-, rfl⟩ | ⟨_, -, -, rfl⟩ | ⟨c, -, rfl⟩ | ⟨work, s', -, -, hs', rfl | ⟨fs, rfl⟩⟩
  · rfl
  · rfl
  · rfl
  · rfl
  · have hengine : s'.engine = .run := by rcases hs' with rfl | rfl <;> exact hrun
    rw [finish_engine, hengine] at hfaulted
    cases hfaulted
  · exact absurd hcode (by simp)

theorem inExtents_of_not_inOutput {i : Instr} {a : Nat} (h : ¬ InOutput i a) :
    inExtents (liveFootprint (footprint i)).outs a = false :=
  Bool.eq_false_iff.mpr fun hin => h (inOutput_of_inExtents hin)

/-- Settles O18, by what a command can do. -/
theorem commandWritesOnlyItsOutput : Obligations.CommandWritesOnlyItsOutput := by
  intro i s t hm ht
  exact ⟨fun a ha => (changesOnly_exec hm ht).frame a (inExtents_of_not_inOutput ha), exec_mem_of_precise_fault ht⟩

/-! ### What races leave -/

theorem changesOnly_settleByte (es : List Extent) {s : State} (c : Host.Cell) (h : Memory.wf s.mem = true) :
    ChangesOnly es s.mem (settleByte es s c).mem := by
  rw [settleByte]
  split_ifs with hin
  · exact changesOnly_writeCells (cells := [c]) h fun d hd => List.mem_singleton.mp hd ▸ hin
  · exact changesOnly_refl es h
  · exact changesOnly_refl es h

theorem changesOnly_settleBytes (es : List Extent) {s : State} (cells : List Host.Cell) (h : Memory.wf s.mem = true) :
    ChangesOnly es s.mem (cells.foldl (settleByte es) s).mem := by
  induction cells generalizing s with
  | nil => exact changesOnly_refl es h
  | cons c cells ih =>
    have hbyte := changesOnly_settleByte es c h
    exact hbyte.trans (ih hbyte.wf)

theorem settleInputRace_mem (fp : Footprint) (dataFlag : Bool) (before after : State) :
    (settleInputRace fp dataFlag before after).mem = (havoc fp.outs after).mem := by
  rw [settleInputRace]
  split_ifs <;> rfl

/-- Whatever the host's writes race with, what the race leaves unspecified lies in the command's output extents (R78). -/
theorem changesOnly_settleRaces (fp : Footprint) (dataFlag : Bool) (cells : List Host.Cell) (before : State) {after : State}
    (h : Memory.wf after.mem = true) :
    ChangesOnly fp.outs after.mem (settleRaces fp dataFlag cells before after).mem := by
  cases cells with
  | nil => exact changesOnly_refl _ h
  | cons c cs =>
    rw [settleRaces]
    split_ifs
    · have hinput : ChangesOnly fp.outs after.mem (settleInputRace fp dataFlag before after).mem := by
        rw [settleInputRace_mem]
        exact changesOnly_havoc _ h
      exact hinput.trans (changesOnly_settleBytes _ _ hinput.wf)
    · exact changesOnly_settleBytes _ _ h

/-! ### A step with one byte written inside it -/

/-- `t` is what a step of the command `i` leaves that began with memory `m`, where the host wrote this byte inside the step:
the byte is stored, the command executes, and their race settles (R78). -/
def RacedWith (i : Instr) (m : Memory) (c : Host.Cell) (t : State) : Prop :=
  ∃ u v, u.mem = writeByte m c.1 c.2 ∧ exec i u = .next v ∧
    t = settleRaces (liveFootprint (footprint i)) (flagFromData i) [c] u v

theorem changesOnly_of_racedWith {i : Instr} {m : Memory} {c : Host.Cell} {t : State} (hm : Memory.wf m = true)
    (h : RacedWith i m c t) : ChangesOnly (liveFootprint (footprint i)).outs (writeByte m c.1 c.2) t.mem := by
  obtain ⟨u, v, hu, hv, rfl⟩ := h
  have hcommand := changesOnly_exec (hu ▸ wf_writeByte c.1 c.2 hm) hv
  rw [← hu]
  exact hcommand.trans (changesOnly_settleRaces _ _ _ u hcommand.wf)

/-- The state after the fetch event of a command step begun in `s`, in which these host events land before that event and
leave `t`, and the command `i` is fetched (R186 step 2, R74, R78). -/
def fetchedAfter (fetching : List HostEvent) (i : Instr) (s t : State) : State :=
  ordered (liveFootprint (footprint i)).outs ((memoryWrites s fetching).flatten.map (·.1))
    (latch (fetchDesc fetching s t) (fetchDraws fetching s t))

/-- A fetch changes neither memory nor where the window lies. -/
theorem fetchedAfter_surroundings (fetching : List HostEvent) (i : Instr) (s t : State) :
    (fetchedAfter fetching i s t).mem = t.mem ∧ (fetchedAfter fetching i s t).mmioBase = t.mmioBase := by
  rw [fetchedAfter, fetchDraws]
  split_ifs <;> exact ⟨rfl, rfl⟩

/-- A command step in which host events but no reset land, whose fetch is answered and decodes: the events before the fetch
event, the fetch, the events after it, the command, and what its races leave (R35, R78, R186). -/
theorem engineStep_settles {fetching executing : List HostEvent} {s t u : State} {i : Instr} (hrun : s.engine = .run)
    (hr : s.resetPin = false) (hs : s.stopReq = false) (hanswered : FetchAnswered s)
    (ht : duringAccesses [] fetching s = .next (t, false)) (hdec : decode (fetchDesc fetching s t) = .ok i)
    (hu : duringAccesses (liveFootprint (footprint i)).outs executing (fetchedAfter fetching i s t) = .next (u, false)) :
    ∃ v, exec i u = .next v ∧ engineStep fetching executing s = .next
      (settleRaces (liveFootprint (footprint i)) (flagFromData i)
        ((memoryWrites s fetching).flatten ++ (memoryWrites (fetchedAfter fetching i s t) executing).flatten) u v) := by
  obtain ⟨v, hv⟩ := exec_next i u
  refine ⟨v, hv, ?_⟩
  have hstep : engineStep fetching executing s = fetchAndRun fetching executing s t := by
    simp [engineStep, hrun, hr, hs, commandStep, ht]
  rw [hstep, fetchAndRun, fetchDenied_eq_false hanswered, if_neg Bool.false_ne_true]
  rw [fetchedAfter] at hu ⊢
  simp only [hdec, commandRest, hu, hv]

/-- What `FetchedAt` names has no word that the host left unordered (R75, R245 H3). -/
theorem wordUnordered_of_fetchedAt {s : State} {d : Desc} {k : Nat} (h : FetchedAt s d) (hk : k < 16) :
    wordUnordered s k = false := by
  obtain ⟨hordered, -⟩ := h
  simp only [wordUnordered, List.any_eq_false, List.mem_range, List.contains_iff_mem]
  intro j hj
  rw [fetchAddr, Nat.add_assoc]
  exact hordered _ (by omega)

theorem duringAccesses_nil (outs : List Extent) (s : State) : duringAccesses outs [] s = .next (s, false) := rfl

section
variable {s : State} {addr : Word} (b : Byte) (hout : inWindow s addr = false)
include hout

/-- A byte the host writes outside the window is stored and resets nothing (R47). -/
theorem duringAccesses_writeByte (outs : List Extent) :
    duringAccesses outs [.write addr [b]] s = .next (hostStore addr [b] s, false) := by
  simp [duringAccesses, duringAccess, isResetEvent, hostAccess, hout]

theorem memoryWrites_writeByte : memoryWrites s [.write addr [b]] = [[(addr.toNat, b)]] := by
  simp [memoryWrites, hout, hostCells]

/-- A word of the fetch that the host's one byte before the fetch event misses is memory's, whether or not the fetch sees
that byte (R64, R80). -/
theorem fetchWord_writeByte {k : Nat} (t : State) (hm : Memory.wf s.mem = true) (hclean : wordUnordered s k = false)
    (haway : ∀ j < 4, fetchAddr s.cp k + j ≠ addr.toNat) :
    fetchWord [.write addr [b]] s t k = readWord s.mem (fetchAddr s.cp k) := by
  rw [fetchWord, hclean, if_neg Bool.false_ne_true, memoryWrites_writeByte b hout]
  refine readWord_congr fun j hj => readByte_writeCells_other hm fun c hc he => ?_
  obtain ⟨cells, hcells, hmem⟩ := List.mem_flatten.mp hc
  obtain rfl := List.mem_singleton.mp (List.mem_of_mem_take hcells)
  obtain rfl := List.mem_singleton.mp hmem
  exact haway j hj he.symm

/-- A byte written before the fetch event and outside the descriptor does not change what is fetched (R64, R80). -/
theorem fetchDesc_writeByte {d : Desc} (t : State) (hm : Memory.wf s.mem = true) (hfetched : FetchedAt s d)
    (haway : ∀ k < 64, s.cp.toNat + k ≠ addr.toNat) : fetchDesc [.write addr [b]] s t = d := by
  have ⟨_, hwords⟩ := hfetched
  refine desc_ext fun k hk => ?_
  have hmiss : ∀ j < 4, fetchAddr s.cp k + j ≠ addr.toNat := fun j hj => by
    rw [fetchAddr, Nat.add_assoc]
    exact haway _ (by omega)
  rw [fetchDesc, descWord_descOfFn _ _ hk,
    fetchWord_writeByte b hout t hm (wordUnordered_of_fetchedAt hfetched hk) hmiss]
  exact (hwords k hk).symm

end

section
variable {s : State} {d : Desc} {i : Instr} {addr : Word} {b : Byte} (hrun : s.engine = .run) (hr : s.resetPin = false)
  (hs : s.stopReq = false) (hout : inWindow s addr = false) (hanswered : FetchAnswered s) (hfetched : FetchedAt s d)
  (hdec : decode d = .ok i)
include hrun hr hs hout hanswered hfetched hdec

/-- A byte written after the fetch event races with the command fetched (R78). -/
theorem engineStep_write_executing :
    ∃ t, engineStep [] [.write addr [b]] s = .next t ∧ RacedWith i s.mem (addr.toNat, b) t := by
  obtain ⟨hmem, hbase⟩ := fetchedAfter_surroundings [] i s s
  have hout' : inWindow (fetchedAfter [] i s s) addr = false := by rwa [inWindow, windowOffset, hbase]
  have hdec' : decode (fetchDesc [] s s) = .ok i := by rw [fetchDesc_of_fetchedAt hfetched, hdec]
  obtain ⟨v, hv, hstep⟩ := engineStep_settles hrun hr hs hanswered rfl hdec' (duringAccesses_writeByte b hout' _)
  rw [memoryWrites_writeByte b hout'] at hstep
  exact ⟨_, hstep, _, v, by rw [hostStore_mem, hmem]; rfl, hv, rfl⟩

/-- A byte written before the fetch event and outside the descriptor races with the command fetched (R78; log entry 11). -/
theorem engineStep_write_fetching (hm : Memory.wf s.mem = true) (haway : ∀ k < 64, s.cp.toNat + k ≠ addr.toNat) :
    ∃ t, engineStep [.write addr [b]] [] s = .next t ∧ RacedWith i s.mem (addr.toNat, b) t := by
  have hdec' : decode (fetchDesc [.write addr [b]] s (hostStore addr [b] s)) = .ok i := by
    rw [fetchDesc_writeByte b hout _ hm hfetched haway, hdec]
  obtain ⟨v, hv, hstep⟩ := engineStep_settles hrun hr hs hanswered (duringAccesses_writeByte b hout []) hdec'
    (duringAccesses_nil _ _)
  obtain ⟨hmem, -⟩ := fetchedAfter_surroundings [.write addr [b]] i s (hostStore addr [b] s)
  rw [memoryWrites_writeByte b hout] at hstep
  exact ⟨_, hstep, _, v, hmem, hv, rfl⟩

end

/-- Settles O60: in either place the write is stored, and all that follows changes the output extents only. -/
theorem racingWriteIsConfined : Obligations.RacingWriteIsConfined := by
  intro s d i addr b rest hm hrun hr hs hsched hwindow hanswered hfetched hdec
  have hout := inWindow_of_ge hwindow
  obtain ⟨t, ht, hraced⟩ : ∃ t, step s = .next t ∧ RacedWith i s.mem (addr.toNat, b) t := by
    rcases hsched with hsched | ⟨hsched, haway⟩ <;> rw [step, systemStep, hsched]
    · exact engineStep_write_executing (s := { s with schedule := rest }) hrun hr hs hout hanswered hfetched hdec
    · exact engineStep_write_fetching (s := { s with schedule := rest }) hrun hr hs hout hanswered hfetched hdec hm haway
  have honly := changesOnly_of_racedWith hm hraced
  refine ⟨t, ht, fun a ha hne => ?_, fun ha => ?_⟩
  · rw [honly.frame a (inExtents_of_not_inOutput ha), readByte_writeByte_other b hm hne]
  · rw [honly.frame _ (inExtents_of_not_inOutput ha), readByte_writeByte_same _ b hm]

end Sys2Proof.Proofs
end

section
/-! SUPPORT. Descriptors (R90 to R108): the halves of a word, the fields of a format, the bits that a row of the opcode
table reserves, and that decoding and encoding are inverse; the statements on them. -/

namespace Sys2Proof.Proofs

open Sys2Proof.Laws Sys2Proof.Machine Sys2Proof.Safety

/-! ### Words whose high bits are zero -/

/-- No bit of the word is set but its `n` low ones (R107). -/
def FitsIn (w : Word) (n : Nat) : Prop := w.toNat < 2 ^ n

@[simp] theorem fitsIn_zero {w : Word} : FitsIn w 0 ↔ w = 0 := by
  rw [FitsIn, pow_zero, Nat.lt_one_iff, BitVec.toNat_eq]
  rfl

@[simp] theorem fitsIn_word (w : Word) : FitsIn w 32 := w.isLt

theorem fitsIn_iff_div {w : Word} {n : Nat} : FitsIn w n ↔ w.toNat / 2 ^ n = 0 :=
  (Nat.div_eq_zero_iff_lt (Nat.two_pow_pos n)).symm

theorem and_not_eq_zero_iff {w m : Word} : w &&& ~~~m = 0 ↔ w &&& m = w := by
  simp only [BitVec.eq_of_getLsbD_eq_iff, BitVec.getLsbD_and, BitVec.getLsbD_not]
  refine forall₂_congr fun j hj => ?_
  cases w.getLsbD j <;> cases m.getLsbD j <;> simp [hj]

/-- A word fits in `n` bits when it has no bit outside the mask of the `n` low ones (R103, R107). -/
theorem fitsIn_iff_mask {w : Word} {n : Nat} (hn : n ≤ 32) :
    FitsIn w n ↔ w &&& ~~~BitVec.ofNat 32 (2 ^ n - 1) = 0 := by
  have hmask : (BitVec.ofNat 32 (2 ^ n - 1)).toNat = 2 ^ n - 1 := by
    have hle : 2 ^ n ≤ 2 ^ 32 := Nat.pow_le_pow_right (by decide) hn
    exact Nat.mod_eq_of_lt (Nat.sub_one_lt_of_le (Nat.two_pow_pos n) hle)
  rw [and_not_eq_zero_iff, BitVec.toNat_eq, BitVec.toNat_and, hmask, Nat.and_two_pow_sub_one_eq_mod, FitsIn,
    Nat.mod_eq_iff_lt (Nat.two_pow_pos n).ne']

/-! ### The halves of a word (R92) -/

theorem dimFits_iff {n : Nat} : dimFits n = true ↔ n < 2 ^ 16 := decide_eq_true_iff

@[simp] theorem dimFits_lowHalf (w : Word) : dimFits (lowHalf w) = true :=
  dimFits_iff.mpr (Nat.mod_lt _ (by decide))

@[simp] theorem dimFits_highHalf (w : Word) : dimFits (highHalf w) = true :=
  dimFits_iff.mpr (Nat.div_lt_of_lt_mul w.isLt)

section
variable {lo hi : Nat} (hlo : dimFits lo = true) (hhi : dimFits hi = true)
include hlo hhi

theorem toNat_wordOfHalves : (wordOfHalves lo hi).toNat = lo + hi * 2 ^ 16 := by
  rw [dimFits_iff] at hlo hhi
  rw [wordOfHalves, BitVec.toNat_ofNat]
  omega

theorem lowHalf_wordOfHalves : lowHalf (wordOfHalves lo hi) = lo := by
  rw [lowHalf, toNat_wordOfHalves hlo hhi, Nat.add_mul_mod_self_right, Nat.mod_eq_of_lt (dimFits_iff.mp hlo)]

theorem highHalf_wordOfHalves : highHalf (wordOfHalves lo hi) = hi := by
  rw [highHalf, toNat_wordOfHalves hlo hhi, Nat.add_mul_div_right _ _ (by decide),
    Nat.div_eq_of_lt (dimFits_iff.mp hlo), Nat.zero_add]

end

@[simp] theorem wordOfHalves_halves (w : Word) : wordOfHalves (lowHalf w) (highHalf w) = w := by
  refine BitVec.eq_of_toNat_eq ?_
  rw [toNat_wordOfHalves (dimFits_lowHalf w) (dimFits_highHalf w)]
  exact Nat.mod_add_div' w.toNat (2 ^ 16)

/-- A word that fits in its low half is that half. -/
theorem wordOfHalves_lowHalf {w : Word} (h : FitsIn w 16) : wordOfHalves (lowHalf w) 0 = w := by
  have hhigh : highHalf w = 0 := fitsIn_iff_div.mp h
  rw [← hhigh, wordOfHalves_halves]

/-! ### Offsets and the count (R5, R104) -/

@[simp] theorem offsetFits_toInt (w : Word) : offsetFits w.toInt = true :=
  decide_eq_true ⟨BitVec.le_toInt w, BitVec.toInt_lt⟩

theorem toInt_ofInt_of_offsetFits {x : Int} (h : offsetFits x = true) : (BitVec.ofInt 32 x).toInt = x := by
  obtain ⟨hlow, hhigh⟩ := of_decide_eq_true h
  exact BitVec.toInt_ofInt_eq_self (by decide) hlow hhigh

@[simp] theorem countFits_toNat (w : Word) : countFits w.toNat = true := decide_eq_true w.isLt

theorem toNat_ofNat_of_countFits {n : Nat} (h : countFits n = true) : (BitVec.ofNat 32 n).toNat = n :=
  Nat.mod_eq_of_lt (of_decide_eq_true h)

/-! ### Views and filters (R92, R97): what is read of the words written, and what is written of the words read -/

theorem viewFits_iff {v : View} : v.fits = true ↔ dimFits v.w = true ∧ dimFits v.h = true ∧ dimFits v.d = true := by
  simp only [View.fits, Bool.and_eq_true, and_assoc]

theorem filterFits_iff {f : Filter} : f.fits = true ↔
    dimFits f.fh = true ∧ dimFits f.fw = true ∧ dimFits f.ci = true ∧ dimFits f.co = true := by
  simp only [Filter.fits, Bool.and_eq_true, and_assoc]

theorem inView_of_words {d : Desc} {v : View} (hv : v.fits = true) (haddr : d.w1 = v.addr) (hsize : d.w2 = sizeWord v)
    (hdepth : d.w3 = depthWord v) : inView d = v := by
  obtain ⟨hw, hh, hd⟩ := viewFits_iff.mp hv
  rw [inView, haddr, hsize, hdepth, sizeWord, depthWord, lowHalf_wordOfHalves hw hh, highHalf_wordOfHalves hw hh,
    lowHalf_wordOfHalves hd (by decide)]

/-- The view in `W4..W6` is laid out as the one in `W1..W3`. -/
theorem outView_of_words {d : Desc} {v : View} (hv : v.fits = true) (haddr : d.w4 = v.addr) (hsize : d.w5 = sizeWord v)
    (hdepth : d.w6 = depthWord v) : outView d = v :=
  inView_of_words (d := { w1 := d.w4, w2 := d.w5, w3 := d.w6 }) hv haddr hsize hdepth

theorem filterOf_of_words {d : Desc} {f : Filter} (hf : f.fits = true) (haddr : d.w7 = f.addr)
    (hsize : d.w8 = wordOfHalves f.fw f.fh) (hchannels : d.w9 = wordOfHalves f.ci f.co) : filterOf d = f := by
  obtain ⟨hh, hw, hi, ho⟩ := filterFits_iff.mp hf
  rw [filterOf, haddr, hsize, hchannels, lowHalf_wordOfHalves hw hh, highHalf_wordOfHalves hw hh,
    lowHalf_wordOfHalves hi ho, highHalf_wordOfHalves hi ho]

theorem fitsIn_depthWord {v : View} (h : v.fits = true) : FitsIn (depthWord v) 16 := by
  obtain ⟨-, -, hd⟩ := viewFits_iff.mp h
  rw [fitsIn_iff_div]
  exact highHalf_wordOfHalves hd (by decide)

section
variable (d : Desc)

@[simp] theorem inView_fits : (inView d).fits = true := by simp [inView, viewFits_iff]
@[simp] theorem outView_fits : (outView d).fits = true := by simp [outView, viewFits_iff]
@[simp] theorem filterOf_fits : (filterOf d).fits = true := by simp [filterOf, filterFits_iff]

@[simp] theorem inView_addr : (inView d).addr = d.w1 := rfl
@[simp] theorem outView_addr : (outView d).addr = d.w4 := rfl
@[simp] theorem filterOf_addr : (filterOf d).addr = d.w7 := rfl

@[simp] theorem sizeWord_inView : sizeWord (inView d) = d.w2 := wordOfHalves_halves d.w2
@[simp] theorem sizeWord_outView : sizeWord (outView d) = d.w5 := wordOfHalves_halves d.w5
@[simp] theorem wordOfHalves_filterOf_size : wordOfHalves (filterOf d).fw (filterOf d).fh = d.w8 :=
  wordOfHalves_halves d.w8
@[simp] theorem wordOfHalves_filterOf_channels : wordOfHalves (filterOf d).ci (filterOf d).co = d.w9 :=
  wordOfHalves_halves d.w9

@[simp] theorem depthWord_inView (h : FitsIn d.w3 16) : depthWord (inView d) = d.w3 := wordOfHalves_lowHalf h
@[simp] theorem depthWord_outView (h : FitsIn d.w6 16) : depthWord (outView d) = d.w6 := wordOfHalves_lowHalf h

end

/-! ### The header (R91, R105) -/

theorem toNat_headerOf_u8 (op : Op) : (headerOf op .u8).toNat = opcodeOf op := by
  cases op <;> rfl

theorem toNat_headerOf_f32 (op : Op) : (headerOf op .f32).toNat = opcodeOf op + 2 ^ 8 := by
  cases op <;> rfl

theorem elemTypeOf_of_header {d : Desc} {op : Op} {et : ElemType} (h : d.w0 = headerOf op et) : elemTypeOf d = et := by
  rw [elemTypeOf, h]
  cases op <;> cases et <;> rfl

section
variable {d : Desc} {op : Op} (hop : opcodeOf op = d.w0.toNat % 2 ^ 8)
include hop

theorem headerOf_u8 (h : FitsIn d.w0 8) : headerOf op .u8 = d.w0 := by
  refine BitVec.eq_of_toNat_eq ?_
  rw [toNat_headerOf_u8, hop]
  exact Nat.mod_eq_of_lt h

/-- Where bit 8 is used, it and the opcode are the whole header. -/
theorem headerOf_elemTypeOf (h : FitsIn d.w0 9) : headerOf op (elemTypeOf d) = d.w0 := by
  have hlt : d.w0.toNat < 2 ^ 9 := h
  refine BitVec.eq_of_toNat_eq ?_
  rw [elemTypeOf]
  split_ifs with hbit
  · rw [toNat_headerOf_f32, hop]
    omega
  · rw [toNat_headerOf_u8, hop]
    omega

end

/-! ### Reserved bits (R103, R107) -/

/-- What holds of each of sixteen words (R90). -/
theorem forall_lt_sixteen {p : Nat → Prop} : (∀ k < 16, p k) ↔
    p 0 ∧ p 1 ∧ p 2 ∧ p 3 ∧ p 4 ∧ p 5 ∧ p 6 ∧ p 7 ∧ p 8 ∧ p 9 ∧ p 10 ∧ p 11 ∧ p 12 ∧ p 13 ∧ p 14 ∧ p 15 := by
  simp only [Nat.forall_lt_succ_right, and_assoc, Nat.not_lt_zero, false_imp_iff, forall_const, true_and]

theorem desc_eq_iff {d e : Desc} : d = e ↔ d.w0 = e.w0 ∧ d.w1 = e.w1 ∧ d.w2 = e.w2 ∧ d.w3 = e.w3 ∧ d.w4 = e.w4 ∧
    d.w5 = e.w5 ∧ d.w6 = e.w6 ∧ d.w7 = e.w7 ∧ d.w8 = e.w8 ∧ d.w9 = e.w9 ∧ d.w10 = e.w10 ∧ d.w11 = e.w11 ∧
    d.w12 = e.w12 ∧ d.w13 = e.w13 ∧ d.w14 = e.w14 ∧ d.w15 = e.w15 :=
  ⟨fun h => forall_lt_sixteen.mp fun k _ => congrArg (descWord · k) h, fun h => desc_ext (forall_lt_sixteen.mpr h)⟩

/-- Every bit outside the fields of the row is zero. -/
def NoReserved (op : Op) (d : Desc) : Prop := ∀ k < 16, FitsIn (descWord d k) (usedBits op k)

theorem noReserved_iff {op : Op} {d : Desc} : NoReserved op d ↔
    FitsIn d.w0 (usedBits op 0) ∧ FitsIn d.w1 (usedBits op 1) ∧ FitsIn d.w2 (usedBits op 2) ∧
    FitsIn d.w3 (usedBits op 3) ∧ FitsIn d.w4 (usedBits op 4) ∧ FitsIn d.w5 (usedBits op 5) ∧
    FitsIn d.w6 (usedBits op 6) ∧ FitsIn d.w7 (usedBits op 7) ∧ FitsIn d.w8 (usedBits op 8) ∧
    FitsIn d.w9 (usedBits op 9) ∧ FitsIn d.w10 (usedBits op 10) ∧ FitsIn d.w11 (usedBits op 11) ∧
    FitsIn d.w12 (usedBits op 12) ∧ FitsIn d.w13 (usedBits op 13) ∧ FitsIn d.w14 (usedBits op 14) ∧
    FitsIn d.w15 (usedBits op 15) := forall_lt_sixteen

theorem reservedSet_eq_false {op : Op} {d : Desc} {k : Nat} :
    reservedSet op d k = false ↔ FitsIn (descWord d k) (usedBits op k) := by
  rw [reservedSet, decide_eq_false_iff_not, not_not, fitsIn_iff_div]

theorem reservedSet_eq_true {op : Op} {d : Desc} {k : Nat} :
    reservedSet op d k = true ↔ ¬ FitsIn (descWord d k) (usedBits op k) := by
  rw [← reservedSet_eq_false, Bool.not_eq_false]

theorem firstReserved_eq_none {op : Op} {d : Desc} (h : NoReserved op d) : firstReserved op d = none := by
  refine List.find?_eq_none.mpr fun k hk hset => ?_
  exact reservedSet_eq_true.mp hset (h k (List.mem_range.mp hk))

theorem firstReserved_eq_some {op : Op} {d : Desc} {k : Nat} (hk : k < 16)
    (hset : ¬ FitsIn (descWord d k) (usedBits op k)) (hlow : ∀ j < k, FitsIn (descWord d j) (usedBits op j)) :
    firstReserved op d = some k := by
  refine List.find?_range_eq_some.mpr ⟨reservedSet_eq_true.mpr hset, List.mem_range.mpr hk, fun j hj => ?_⟩
  rw [reservedSet_eq_false.mpr (hlow j hj), Bool.not_false]

/-! ### The three answers of decoding (R106 to R108) -/

theorem opOf_opcodeOf (op : Op) : opOf (opcodeOf op) = some op := by
  cases op <;> rfl

theorem decode_of_noReserved {op : Op} {d : Desc} (hop : opcodeOf op = d.w0.toNat % 2 ^ 8) (h : NoReserved op d) :
    decode d = .ok (fieldsOf op d) := by
  rw [decode, ← hop, opOf_opcodeOf]
  simp only [firstReserved_eq_none h]

theorem decode_of_reserved {op : Op} {d : Desc} {k : Nat} (hop : opcodeOf op = d.w0.toNat % 2 ^ 8) (hk : k < 16)
    (hset : ¬ FitsIn (descWord d k) (usedBits op k)) (hlow : ∀ j < k, FitsIn (descWord d j) (usedBits op j)) :
    decode d = .error (.reservedField k) := by
  rw [decode, ← hop, opOf_opcodeOf]
  simp only [firstReserved_eq_some hk hset hlow]

theorem decode_of_unassigned {d : Desc} (h : ∀ op, opcodeOf op ≠ d.w0.toNat % 2 ^ 8) :
    decode d = .error (.illegalOpcode d.w0) := by
  have hnone : opOf (d.w0.toNat % 2 ^ 8) = none := List.find?_eq_none.mpr fun op _ => by simpa using h op
  rw [decode, hnone]

/-! ### Decoding an encoding -/

theorem encodeSelectsRow : ∀ i : Instr, EncodeSelectsRow.Statement i
  | .endCmd => EncodeSelectsRow.endCmd
  | .jump t => EncodeSelectsRow.jump t
  | .nop => EncodeSelectsRow.nop
  | .bsamp et i o sx sy => EncodeSelectsRow.bsamp et i o sx sy
  | .affine et i o x y t0 t1 t2 t3 => EncodeSelectsRow.affine et i o x y t0 t1 t2 t3
  | .croprs et i o l t w h => EncodeSelectsRow.croprs et i o l t w h
  | .conv2d i f o => EncodeSelectsRow.conv2d i f o
  | .addbias i b => EncodeSelectsRow.addbias i b
  | .relu i o => EncodeSelectsRow.relu i o
  | .biasrelu i b o => EncodeSelectsRow.biasrelu i b o
  | .maxpool2 i o => EncodeSelectsRow.maxpool2 i o
  | .softmax a n p => EncodeSelectsRow.softmax a n p
  | .histeq i o => EncodeSelectsRow.histeq i o
  | .otsu i r => EncodeSelectsRow.otsu i r

theorem opcodeOf_rowOf (i : Instr) : opcodeOf (rowOf i) = (encode i).w0.toNat % 2 ^ 8 := by
  obtain ⟨hrow, -⟩ := encodeSelectsRow i
  simpa using List.find?_some hrow

/-- Beside the header, a word of an encoding is a whole field, zero, or the depth of a view, which fits (R103). -/
theorem noReserved_encode {i : Instr} (h : i.wf = true) : NoReserved (rowOf i) (encode i) := by
  obtain ⟨-, hheader⟩ := encodeSelectsRow i
  refine noReserved_iff.mpr ⟨reservedSet_eq_false.mp hheader, ?_⟩
  cases i <;> simp only [Instr.wf, Bool.and_eq_true] at h <;>
    simp [rowOf, encode, usedBits, formatOf, formatBits, fitsIn_depthWord, h]

/-- Operand by operand: an address or a binary32 word is the field itself, and any other operand fits its field. -/
theorem fieldsOf_encode {i : Instr} (h : i.wf = true) : fieldsOf (rowOf i) (encode i) = i := by
  cases i with
  | endCmd | jump | nop => rfl
  | bsamp et inp outAddr sx sy =>
    exact (Instr.bsamp.injEq ..).mpr ⟨elemTypeOf_of_header rfl, inView_of_words h rfl rfl rfl, rfl, rfl, rfl⟩
  | affine et inp out offX offY t0 t1 t2 t3 =>
    simp only [Instr.wf, Bool.and_eq_true] at h
    obtain ⟨⟨⟨hin, hout⟩, hx⟩, hy⟩ := h
    exact (Instr.affine.injEq ..).mpr ⟨elemTypeOf_of_header rfl, inView_of_words hin rfl rfl rfl,
      outView_of_words hout rfl rfl rfl, toInt_ofInt_of_offsetFits hx, toInt_ofInt_of_offsetFits hy, rfl, rfl, rfl, rfl⟩
  | croprs et inp out left top cropW cropH =>
    simp only [Instr.wf, Bool.and_eq_true] at h
    obtain ⟨⟨⟨⟨⟨hin, hout⟩, hleft⟩, htop⟩, hw⟩, hh⟩ := h
    exact (Instr.croprs.injEq ..).mpr ⟨elemTypeOf_of_header rfl, inView_of_words hin rfl rfl rfl,
      outView_of_words hout rfl rfl rfl, toInt_ofInt_of_offsetFits hleft, toInt_ofInt_of_offsetFits htop,
      lowHalf_wordOfHalves hw hh, highHalf_wordOfHalves hw hh⟩
  | conv2d inp filt out =>
    simp only [Instr.wf, Bool.and_eq_true] at h
    obtain ⟨⟨hin, hfilt⟩, hout⟩ := h
    exact (Instr.conv2d.injEq ..).mpr ⟨inView_of_words hin rfl rfl rfl, filterOf_of_words hfilt rfl rfl rfl,
      outView_of_words hout rfl rfl rfl⟩
  | addbias img baddr => exact (Instr.addbias.injEq ..).mpr ⟨inView_of_words h rfl rfl rfl, rfl⟩
  | biasrelu inp baddr out =>
    obtain ⟨hin, hout⟩ := Bool.and_eq_true_iff.mp h
    exact (Instr.biasrelu.injEq ..).mpr ⟨inView_of_words hin rfl rfl rfl, rfl, outView_of_words hout rfl rfl rfl⟩
  | relu inp out | maxpool2 inp out | histeq inp out =>
    obtain ⟨hin, hout⟩ := Bool.and_eq_true_iff.mp h
    exact congrArg₂ _ (inView_of_words hin rfl rfl rfl) (outView_of_words hout rfl rfl rfl)
  | softmax saddr n paddr => exact (Instr.softmax.injEq ..).mpr ⟨rfl, toNat_ofNat_of_countFits h, rfl⟩
  | otsu inp raddr => exact (Instr.otsu.injEq ..).mpr ⟨inView_of_words h rfl rfl rfl, rfl⟩

/-- Settles O1: the encoding has the command's opcode and no reserved bit, so it decodes to the fields read back. -/
theorem decodeEncodeRoundTrip : Obligations.DecodeEncodeRoundTrip := by
  intro i h
  rw [decode_of_noReserved (opcodeOf_rowOf i) (noReserved_encode h), fieldsOf_encode h]

/-! ### Encoding what was decoded -/

/-- A used word is rebuilt from its fields, and every other word is zero on both sides (R107). -/
theorem encode_fieldsOf {op : Op} {d : Desc} (hop : opcodeOf op = d.w0.toNat % 2 ^ 8) (h : NoReserved op d) :
    encode (fieldsOf op d) = d := by
  rw [noReserved_iff] at h
  rw [desc_eq_iff]
  cases op with
  | bsamp | affine | croprs =>
    simp [usedBits, formatOf, formatBits] at h
    simp [fieldsOf, encode, h, headerOf_elemTypeOf hop]
  | _ =>
    simp [usedBits, formatOf, formatBits] at h
    simp [fieldsOf, encode, h, headerOf_u8 hop]

/-- What a field holds fits it. -/
theorem wf_fieldsOf (op : Op) (d : Desc) : (fieldsOf op d).wf = true := by
  cases op <;> simp [fieldsOf, Instr.wf]

/-- Settles O2: what decodes has no reserved bit set, and its command is made of its fields. -/
theorem encodeDecodeRoundTrip : Obligations.EncodeDecodeRoundTrip := by
  intro d i hdec
  obtain ⟨op, hop, hbits, rfl⟩ := decode_ok hdec
  exact ⟨encode_fieldsOf hop hbits, wf_fieldsOf op d⟩

/-! ### The opcode table (R103, R105) -/

/-- The row of masks that the decoder's used bits make. -/
def maskRow (op : Op) : Nat × List Word :=
  (opcodeOf op, (List.range 16).map fun k => BitVec.ofNat 32 (2 ^ usedBits op k - 1))

/-- The decoder's used bits are the table's masks. -/
theorem usedMasks_eq : usedMasks = allOps.map maskRow := by rfl

theorem mem_allOps (op : Op) : op ∈ allOps := by
  cases op <;> decide

theorem mem_usedMasks {row : Nat × List Word} : row ∈ usedMasks ↔ ∃ op, maskRow op = row := by
  simp [usedMasks_eq, mem_allOps]

theorem usedBits_le (op : Op) : ∀ k < 16, usedBits op k ≤ 32 := by
  cases op <;> decide

theorem not_reservedSet_maskRow {op : Op} {d : Desc} {k : Nat} (hk : k < 16) :
    ¬ ReservedSet (maskRow op) d k ↔ FitsIn (descWord d k) (usedBits op k) := by
  have hmask : (maskRow op).2.getD k 0 = BitVec.ofNat 32 (2 ^ usedBits op k - 1) := by simp [maskRow, hk]
  rw [ReservedSet, hmask, not_not, fitsIn_iff_mask (usedBits_le op k hk)]

theorem opcodeNumber_fieldsOf (op : Op) (d : Desc) : opcodeNumber (fieldsOf op d) = opcodeOf op := by
  cases op <;> rfl

/-- Settles O3: a row of masks is a row of the decoder's, and each clause is the answer of decoding in its case. -/
theorem decodeFollowsOpcodeTable : Obligations.DecodeFollowsOpcodeTable := by
  refine ⟨fun row hrow d hop hclear => ?_, fun row hrow d k hop hk hset hlow => ?_, fun d hnone => ?_⟩
  · obtain ⟨op, rfl⟩ := mem_usedMasks.mp hrow
    have hbits : NoReserved op d := fun k hk => (not_reservedSet_maskRow hk).mp (hclear k hk)
    exact ⟨fieldsOf op d, decode_of_noReserved hop.symm hbits, opcodeNumber_fieldsOf op d⟩
  · obtain ⟨op, rfl⟩ := mem_usedMasks.mp hrow
    refine decode_of_reserved hop.symm hk (fun hfits => (not_reservedSet_maskRow hk).mpr hfits hset) fun j hj => ?_
    exact (not_reservedSet_maskRow (hj.trans hk)).mp (hlow j hj)
  · exact decode_of_unassigned fun op hop => hnone (maskRow op) (mem_usedMasks.mpr ⟨op, rfl⟩) hop.symm

/-! ### The descriptors of the spec -/

theorem decode_of_encode {d : Desc} {i : Instr} (hwf : i.wf = true) (henc : encode i = d) : decode d = .ok i := by
  rw [← henc, decodeEncodeRoundTrip i hwf]

/-- Settles O4: each descriptor is the encoding of its command, which is well formed. -/
theorem specWordsDecode : Obligations.SpecWordsDecode := by
  refine ⟨?_, ?_, ?_, ?_, ?_, ?_, ?_, ?_, ?_, ?_, ?_, ?_, ?_, ?_⟩ <;>
    exact decode_of_encode (by decide) (by decide)

end Sys2Proof.Proofs
end

section
/-! SUPPORT. Binary32 results that are exact (R10): a value that is already a binary32 is rounded to itself, and with it
sums with a zero, products with one, integers and floors. -/

namespace Sys2Proof.Proofs

open Sys2Proof.Laws Sys2Proof.Machine Sys2Proof.Safety

/-- A finite magnitude, given as a quotient, is rounded to itself. -/
theorem roundUnits_magUnits_mul {m den : Nat} (hden : 0 < den) (hm : m < infMag) :
    roundUnits (magUnits m * den) den = m := by
  have hnear := (wideMag_nearest (num := magUnits m * den) hden (Int.natAbs_natCast (magUnits m))).1
  rw [Nat.cast_mul, sub_self, abs_zero, abs_nonpos_iff, sub_eq_zero] at hnear
  have hunits : magUnits (wideMag (magUnits m * den) den) = magUnits m :=
    Nat.eq_of_mul_eq_mul_right hden (by exact_mod_cast hnear)
  rw [roundUnits_eq_min, magUnits_strictMono.injective hunits, min_eq_left hm.le]

section
variable {a z : Word}

theorem roundUnits_unitsOf_mul {den : Nat} (hden : 0 < den) (ha : isFinite a = true) :
    roundUnits (unitsOf a * den) den = magBits a :=
  roundUnits_magUnits_mul hden (of_decide_eq_true ha)

theorem signedUnits_eq_zero : signedUnits a = 0 ↔ isZero a = true := by
  rw [← Int.natAbs_eq_zero, natAbs_signedUnits, unitsOf_eq_zero]

theorem decide_signedUnits_neg (hz : isZero a = false) : decide (signedUnits a < 0) = isNeg a := by
  have hpos := unitsOf_pos hz
  cases hs : isNeg a <;> simp [signedUnits, hs, hpos]

theorem eq_signedZero_of_isZero (hz : isZero a = true) : a = signedZero (isNeg a) := by
  rw [← packFloat_zero, ← of_decide_eq_true hz, packFloat_isNeg_magBits]

/-- A sign and the units of a finite value are that value. -/
theorem packFloat_of_signedUnits (ha : isFinite a = true) (hz : isZero a = false) :
    packFloat (decide (signedUnits a < 0)) (roundUnits (signedUnits a).natAbs 1) = a := by
  have hround := roundUnits_unitsOf_mul Nat.one_pos ha
  rw [Nat.mul_one] at hround
  rw [natAbs_signedUnits, hround, decide_signedUnits_neg hz, packFloat_isNeg_magBits]

/-! ### Sums and products -/

theorem fadd_comm_of_finite (ha : isFinite a = true) (hz : isFinite z = true) : fadd a z = fadd z a := by
  rw [fadd_of_finite ha hz, fadd_of_finite hz ha, add_comm, Bool.and_comm]

/-- Adding a zero of either sign changes no finite value but `-0.0`. -/
theorem fadd_of_isZero (ha : isFinite a = true) (hne : a ≠ 0x80000000) (hz : isZero z = true) : fadd a z = a := by
  rw [fadd_of_finite ha (isFinite_of_isZero hz), signedUnits_eq_zero.mpr hz, add_zero]
  split_ifs with hunits
  · have hzero := eq_signedZero_of_isZero (signedUnits_eq_zero.mp hunits)
    have hpos : isNeg a = false := Bool.eq_false_iff.mpr fun hs => hne (by rwa [hs] at hzero)
    rw [hpos] at hzero ⊢
    rw [Bool.false_and, packFloat_zero, hzero]
  · exact packFloat_of_signedUnits ha (Bool.eq_false_iff.mpr fun h => hunits (signedUnits_eq_zero.mpr h))

theorem zero_fadd (ha : isFinite a = true) : fadd 0 a = if a = 0x80000000 then 0 else a := by
  split_ifs with hne
  · rw [hne]
    decide
  · rw [fadd_comm_of_finite (by decide) ha, fadd_of_isZero ha hne (by decide)]

theorem zero_fadd_isFinite_and_ne_negZero (ha : isFinite a = true) :
    isFinite (fadd 0 a) = true ∧ fadd 0 a ≠ 0x80000000 := by
  rw [zero_fadd ha]
  split_ifs with hne
  · decide
  · exact ⟨ha, hne⟩

theorem fsub_self_of_finite (ha : isFinite a = true) : fsub a a = 0 := by
  rw [fsub, fadd_of_sum_zero ha ((isFinite_fneg a).trans ha) (by rw [signedUnits_fneg, add_neg_cancel]), isNeg_fneg,
    Bool.and_not_self]
  rfl

theorem one_fmul (ha : isFinite a = true) : fmul fone a = a := by
  have hone : unitsOf fone = oneUnits := by decide
  have hpos : isNeg fone = false := by decide
  rw [fmul_of_finite (by decide) ha, hone, hpos, mul_comm,
    roundUnits_unitsOf_mul (den := oneUnits) (Nat.two_pow_pos 149) ha, Bool.false_bne, packFloat_isNeg_magBits]

theorem isZero_zero_fmul (ha : isFinite a = true) : isZero (fmul 0 a) = true := by
  have hzero : unitsOf 0 = 0 := by decide
  rw [fmul_of_finite (by decide) ha, hzero, zero_mul, roundUnits_zero, packFloat_zero]
  cases isNeg 0 != isNeg a <;> decide

/-! ### Integers and floors -/

/-- A finite value that is an integer is the conversion of that integer. -/
theorem i2f_of_signedUnits {n : Int} (ha : isFinite a = true) (hz : isZero a = false)
    (hn : signedUnits a = n * 2 ^ 149) : i2f n = a := by
  have hpos : (0 : Int) < 2 ^ 149 := by positivity
  have hsign : n < 0 ↔ signedUnits a < 0 := by
    rw [hn]
    exact ⟨fun h => mul_neg_of_neg_of_pos h hpos, fun h => neg_of_mul_neg_left h hpos.le⟩
  have habs : n.natAbs * oneUnits = (signedUnits a).natAbs := by rw [hn, Int.natAbs_mul]; rfl
  rw [i2f_eq, habs, decide_eq_decide.mpr hsign, packFloat_of_signedUnits ha hz]

theorem isFinite_i2f {n : Int} (hn : |n| ≤ 2 ^ 24) : isFinite (i2f n) = true := by
  obtain ⟨hnan, hinf, -⟩ := nearestEven_i2f n
  refine isFinite_of_not hnan (Bool.eq_false_iff.mpr fun h => ?_)
  have hover := hinf.mp h
  rw [abs_mul] at hover
  have hle : |n| * |(2 : Int) ^ 149| ≤ 2 ^ 24 * 2 ^ 149 := by gcongr; simp
  norm_num at hover hle
  omega

theorem floorInt_of_signedUnits {n : Int} (hn : signedUnits a = n * 2 ^ 149) : floorInt a = n := by
  rw [floorInt, hn]
  exact Int.mul_ediv_cancel n (by decide)

theorem floorInt_i2f {n : Int} (hn : |n| ≤ 2 ^ 24) : floorInt (i2f n) = n :=
  floorInt_of_signedUnits (signedUnits_i2f hn)

theorem ffloor_i2f {n : Int} (hn : |n| ≤ 2 ^ 24) : ffloor (i2f n) = i2f n := by
  rw [ffloor, floorInt_i2f hn, ite_self]

/-- `floor_int` is the greatest integer not above the value (R10). -/
theorem floorInt_bounds (a : Word) :
    floorInt a * 2 ^ 149 ≤ signedUnits a ∧ signedUnits a < (floorInt a + 1) * 2 ^ 149 :=
  ⟨Int.ediv_mul_le _ (by decide), Int.lt_ediv_add_one_mul_self _ (by decide)⟩

/-- A finite value is an integer, or its floor is small enough to be converted exactly. -/
theorem signedUnits_eq_floorInt_or (a : Word) : signedUnits a = floorInt a * 2 ^ 149 ∨ |floorInt a| ≤ 2 ^ 24 := by
  rcases dvd_or_magUnits_lt 149 (magBits a) with hdvd | ⟨-, hlt⟩
  · rw [← unitsOf_eq_magUnits, ← natAbs_signedUnits] at hdvd
    exact .inl (Int.ediv_mul_cancel (Int.natCast_dvd.mpr hdvd)).symm
  · right
    obtain ⟨hlow, hhigh⟩ := floorInt_bounds a
    rw [← unitsOf_eq_magUnits, ← natAbs_signedUnits] at hlt
    generalize signedUnits a = t at *
    rw [abs_le]
    norm_num at *
    omega

/-- `ffloor` is exact (R10). -/
theorem ffloor_exact (ha : isFinite a = true) :
    isFinite (ffloor a) = true ∧ signedUnits (ffloor a) = floorInt a * 2 ^ 149 := by
  cases hz : isZero a with
  | true =>
    have hunits := signedUnits_eq_zero.mpr hz
    have hfloor : floorInt a = 0 := floorInt_of_signedUnits (by rw [hunits, zero_mul])
    rw [ffloor, if_pos hz, hunits, hfloor, zero_mul]
    exact ⟨ha, rfl⟩
  | false =>
    rw [ffloor, hz, if_neg Bool.false_ne_true]
    rcases signedUnits_eq_floorInt_or a with hint | hsmall
    · rw [i2f_of_signedUnits ha hz hint]
      exact ⟨ha, hint⟩
    · exact ⟨isFinite_i2f hsmall, signedUnits_i2f hsmall⟩

end

end Sys2Proof.Proofs
end

section
/-! SUPPORT. The shared bilinear sample (R121 to R123): a sum over the four neighbours that passes over those outside
the image, and the statements on it. -/

namespace Sys2Proof.Proofs

open Sys2Proof.Laws Sys2Proof.Machine Sys2Proof.Safety

theorem inBounds_eq_decide (v : View) (x y : Int) :
    inBounds v x y = decide (0 ≤ x ∧ x < v.w ∧ 0 ≤ y ∧ y < v.h) := by
  simp [inBounds, Bool.decide_and, Bool.and_assoc]

/-- One turn of R121's loop: a neighbour in bounds adds its weighted pixel, another one nothing. -/
def addNeighbour (et : ElemType) (m : Memory) (v : View) (c : Nat) (acc : Word) (p : Word × Int × Int) : Word :=
  if inBounds v p.2.1 p.2.2 then fadd acc (fmul p.1 (pix et m v p.2.1.toNat p.2.2.toNat c)) else acc

section
variable {et : ElemType} {m : Memory} {v : View} {sx sy : Word} {c : Nat}

/-- The sample is the sum over all the neighbours, those outside the image passed over in turn. -/
theorem bilinear_eq_foldl :
    bilinear et m v sx sy c = (neighbours sx sy).foldl (addNeighbour et m v c) fzero :=
  List.foldl_filter

theorem neighbours_of_finite (hx : isFinite sx = true) (hy : isFinite sy = true) :
    neighbours sx sy =
      [(fmul (fsub fone (fsub sx (ffloor sx))) (fsub fone (fsub sy (ffloor sy))), floorInt sx, floorInt sy),
       (fmul (fsub sx (ffloor sx)) (fsub fone (fsub sy (ffloor sy))), floorInt sx + 1, floorInt sy),
       (fmul (fsub fone (fsub sx (ffloor sx))) (fsub sy (ffloor sy)), floorInt sx, floorInt sy + 1),
       (fmul (fsub sx (ffloor sx)) (fsub sy (ffloor sy)), floorInt sx + 1, floorInt sy + 1)] := by
  simp [neighbours, hx, hy]

theorem neighbours_of_not_finite (h : isFinite sx = false ∨ isFinite sy = false) : neighbours sx sy = [] := by
  rcases h with h | h <;> simp [neighbours, h]

/-- A neighbour lies at the floor of the coordinate or one above it, along each axis. -/
theorem mem_neighbours {p : Word × Int × Int} (h : p ∈ neighbours sx sy) :
    (p.2.1 = floorInt sx ∨ p.2.1 = floorInt sx + 1) ∧ (p.2.2 = floorInt sy ∨ p.2.2 = floorInt sy + 1) := by
  rw [neighbours] at h
  split_ifs at h
  · simp only [List.mem_cons, List.not_mem_nil, or_false] at h
    rcases h with rfl | rfl | rfl | rfl <;> simp
  · cases h

theorem bilinear_of_not_finite (h : isFinite sx = false ∨ isFinite sy = false) : bilinear et m v sx sy c = 0 := by
  rw [bilinear_eq_foldl, neighbours_of_not_finite h]
  rfl

/-- A sample whose neighbours all lie outside the image adds nothing (R122). -/
theorem bilinear_of_outside (h : ∀ p ∈ neighbours sx sy, inBounds v p.2.1 p.2.2 = false) :
    bilinear et m v sx sy c = 0 := by
  have hnone : samplePoints v sx sy = [] := List.filter_eq_nil_iff.mpr fun p hp => by simp [h p hp]
  rw [bilinear, hnone]
  rfl

end

/-- Settles O23, by the address of an element, the exact floor and the loop over the neighbours. -/
theorem bilinearFollowsPseudocode : Obligations.BilinearFollowsPseudocode := by
  refine ⟨fun m v x y c => ⟨?_, rfl⟩, fun a ha => ?_, fun et m v sx sy c => ⟨bilinear_of_not_finite, fun hx hy => ?_⟩⟩
  · simp [pix, loadElem, u8f, elemAddr, esize, elemIndex]
  · obtain ⟨hlow, hhigh⟩ := floorInt_bounds a
    obtain ⟨hfin, hexact⟩ := ffloor_exact ha
    exact ⟨hlow, hhigh, hfin, hexact, fun hz => if_pos hz⟩
  · rw [bilinear_eq_foldl, neighbours_of_finite hx hy]
    simp only [← inBounds_eq_decide]
    rfl

/-- Settles O24: a neighbour lies at the floor or one above it, and so outside the image. -/
theorem zeroPadOutsideImage : Obligations.ZeroPadOutsideImage := by
  intro et m v sx sy c h
  rcases h with h | h | h
  · exact bilinear_of_not_finite (.inl h)
  · exact bilinear_of_not_finite (.inr h)
  · refine bilinear_of_outside fun p hp => ?_
    obtain ⟨hpx, hpy⟩ := mem_neighbours hp
    rw [inBounds_eq_decide, decide_eq_false_iff_not]
    omega

/-! ### Integer coordinates -/

/-- At integer coordinates the first neighbour has weight one and the others have weight zero. -/
theorem neighbours_i2f {x y : Int} (hx : |x| ≤ 2 ^ 24) (hy : |y| ≤ 2 ^ 24) :
    neighbours (i2f x) (i2f y) = [(fone, x, y), (0, x + 1, y), (0, x, y + 1), (0, x + 1, y + 1)] := by
  have hone : fmul (fsub fone 0) (fsub fone 0) = fone := by decide
  have hright : fmul 0 (fsub fone 0) = 0 := by decide
  have hbelow : fmul (fsub fone 0) 0 = 0 := by decide
  have hboth : fmul 0 0 = 0 := by decide
  rw [neighbours_of_finite (isFinite_i2f hx) (isFinite_i2f hy), ffloor_i2f hx, ffloor_i2f hy, floorInt_i2f hx,
    floorInt_i2f hy, fsub_self_of_finite (isFinite_i2f hx), fsub_self_of_finite (isFinite_i2f hy), hone, hright, hbelow,
    hboth]

theorem addNeighbour_of_inBounds {et : ElemType} {m : Memory} {v : View} {c : Nat} {acc wt : Word} {x y : Int}
    (hin : inBounds v x y = true) :
    addNeighbour et m v c acc (wt, x, y) = fadd acc (fmul wt (pix et m v x.toNat y.toNat c)) := if_pos hin

/-- A finite neighbour of weight zero changes no sum but `-0.0`. -/
theorem addNeighbour_weight_zero {et : ElemType} {m : Memory} {v : View} {c : Nat} {acc : Word} {x y : Int}
    (hacc : isFinite acc = true) (hne : acc ≠ 0x80000000)
    (hpix : inBounds v x y = true → isFinite (pix et m v x.toNat y.toNat c) = true) :
    addNeighbour et m v c acc (0, x, y) = acc := by
  rw [addNeighbour]
  split_ifs with hin
  · exact fadd_of_isZero hacc hne (isZero_zero_fmul (hpix hin))
  · rfl

/-- Settles O25: the pixel is added with weight one, the other neighbours with weight zero. -/
theorem integerAlignedSampleIsPixel : Obligations.IntegerAlignedSampleIsPixel := by
  intro et m v x y c hx hy hw hh hfinite
  have hbound {n k : Nat} (hn : n < k) (hk : k ≤ 2 ^ 16) : |(n : Int)| ≤ 2 ^ 24 := by
    rw [abs_of_nonneg (by omega)]
    omega
  have hpix (x' y' : Int) (hlow : (x : Int) ≤ x' ∧ (y : Int) ≤ y') (hhigh : x' ≤ x + 1 ∧ y' ≤ y + 1)
      (hin : inBounds v x' y' = true) : isFinite (pix et m v x'.toNat y'.toNat c) = true := by
    obtain ⟨hinx, hiny⟩ := inBounds_toNat hin
    exact hfinite _ _ hinx hiny (by omega) (by omega) (by omega) (by omega)
  have hself := hfinite x y hx hy le_rfl (by omega) le_rfl (by omega)
  have hin : inBounds v x y = true := by
    rw [inBounds_eq_decide, decide_eq_true_eq]
    omega
  have hfirst : addNeighbour et m v c fzero (fone, x, y) = fadd 0 (pix et m v x y c) := by
    rw [addNeighbour_of_inBounds hin, Int.toNat_natCast, Int.toNat_natCast, one_fmul hself]
    rfl
  obtain ⟨hacc, hne⟩ := zero_fadd_isFinite_and_ne_negZero hself
  rw [bilinear_eq_foldl, neighbours_i2f (hbound hx hw) (hbound hy hh), List.foldl_cons, hfirst, List.foldl_cons,
    addNeighbour_weight_zero hacc hne (hpix _ _ (by omega) (by omega)), List.foldl_cons,
    addNeighbour_weight_zero hacc hne (hpix _ _ (by omega) (by omega)), List.foldl_cons,
    addNeighbour_weight_zero hacc hne (hpix _ _ (by omega) (by omega)), List.foldl_nil,
    zero_fadd hself]

end Sys2Proof.Proofs
end

section
/-! SUPPORT. Compute commands that complete (R186): when a command whose output is one buffer or view completes, what it
leaves, and with that the statements on `BSAMP`, `AFFINE` and `CROPRS` (R126, R128, R131). -/

namespace Sys2Proof.Proofs

open Sys2Proof.Laws Sys2Proof.Machine Sys2Proof.Safety

/-! ### Completion -/

/-- Element `i` of a stored buffer holds what was stored to it, for both element types. -/
theorem holds_bufferCells {m : Memory} {et : ElemType} {base : Word} {n i : Nat} {f : Nat → Word}
    (hm : Memory.wf m = true) (hi : i < n) : Holds et (writeCells m (bufferCells et base n f)) base i (f i) := by
  cases et with
  | u8 => exact readByte_bufferCells hm hi
  | f32 => exact readWord_bufferCells hm hi

section
variable {i : Instr} {work : Memory → Work} {s : State}

/-- A compute command without a fallback whose checks pass and whose accesses are answered completes, its bytes
stored. -/
theorem exec_completes (hwork : workOf i = some work) (hcause : (footprint i).cause = none)
    (hneeds : ∀ x ∈ (work s.mem).needs, isDenied s x = false) (hmay : ∀ x ∈ (work s.mem).may, isDenied s x = false)
    (hplain : (work s.mem).degen = false) :
    ∃ t, exec i s = .next t ∧ Completed s t ∧ t.mem = writeCells s.mem (work s.mem).stores := by
  refine ⟨finish (work s.mem) s, ?_, ?_, finish_mem _ _⟩
  · rw [exec_of_workOf hwork, runUnit_completes hcause hneeds hmay]
  · rw [Completed, finish_mem]
    exact finish_plain hplain

/-- The same for a command that stores one buffer. -/
theorem exec_completes_buffer {et : ElemType} {base : Word} {n : Nat} {f : Nat → Word} (hm : Memory.wf s.mem = true)
    (hwork : workOf i = some work) (hcause : (footprint i).cause = none)
    (hneeds : ∀ x ∈ (work s.mem).needs, isDenied s x = false) (hmay : ∀ x ∈ (work s.mem).may, isDenied s x = false)
    (hplain : (work s.mem).degen = false) (hstores : (work s.mem).stores = bufferCells et base n f) :
    ∃ t, exec i s = .next t ∧ Completed s t ∧ SameOutside s t base (esize et * n) ∧
      ∀ k < n, Holds et t.mem base k (f k) := by
  obtain ⟨t, hexec, hdone, hmem⟩ := exec_completes hwork hcause hneeds hmay hplain
  rw [hstores] at hmem
  refine ⟨t, hexec, hdone, fun a ha => ?_, fun k hk => ?_⟩ <;> rw [hmem]
  · exact readByte_bufferCells_outside hm ha
  · exact holds_bufferCells hm hk

/-- The same for a command that stores one view. -/
theorem exec_completes_view {et : ElemType} {out : View} {f : Nat → Nat → Nat → Word} (hm : Memory.wf s.mem = true)
    (hwork : workOf i = some work) (hcause : (footprint i).cause = none)
    (hneeds : ∀ x ∈ (work s.mem).needs, isDenied s x = false) (hmay : ∀ x ∈ (work s.mem).may, isDenied s x = false)
    (hplain : (work s.mem).degen = false) (hstores : (work s.mem).stores = viewCells et out f) :
    ∃ t, exec i s = .next t ∧ Completed s t ∧ SameOutside s t out.addr (esize et * count out) ∧
      ∀ x < out.w, ∀ y < out.h, ∀ c < out.d, Holds et t.mem out.addr (offset out x y c) (f x y c) := by
  obtain ⟨t, hexec, hdone, hsame, hholds⟩ := exec_completes_buffer hm hwork hcause hneeds hmay hplain hstores
  refine ⟨t, hexec, hdone, hsame, fun x hx y hy c hc => ?_⟩
  obtain ⟨hcolumn, hrow, hchannel⟩ := elemIndex_coords (y := y) hx hc
  have helem := hholds _ (elemIndex_lt hx hy hc)
  rw [hcolumn, hrow, hchannel] at helem
  exact helem

/-- The accesses to an answered buffer are answered. -/
theorem answered_bufferAccesses {kind : AccessKind} {et : ElemType} {base : Word} {n : Nat}
    (h : Answered s kind et base n) : ∀ x ∈ bufferAccesses kind et base n, isDenied s x = false := by
  intro x hx
  obtain ⟨k, hk, rfl⟩ := mem_bufferAccesses.mp hx
  exact h k hk

/-- The accesses to an answered view are answered. -/
theorem answered_viewAccesses {kind : AccessKind} {et : ElemType} {v : View}
    (h : Answered s kind et v.addr (count v)) : ∀ x ∈ viewAccesses kind et v, isDenied s x = false :=
  answered_bufferAccesses h

end

/-! ### BSAMP -/

theorem bsampFootprint_passes {et : ElemType} {inp : View} {outAddr : Word} (hinp : Nonzero inp)
    (hinAligned : Aligned et inp.addr) (houtAligned : Aligned et outAddr) (hinRange : InRange et inp.addr (count inp))
    (houtRange : InRange et outAddr inp.d)
    (hapart : Apart outAddr.toNat (esize et * inp.d) inp.addr.toNat (esize et * count inp)) :
    (bsampFootprint et inp outAddr).cause = none := by
  obtain ⟨hw, hh, hd⟩ := hinp
  rw [bsampFootprint_cause, preflight_none]
  refine ⟨?_, ?_, ?_, ?_, ?_⟩
  · simp [viewDims, hw.ne', hh.ne', hd.ne']
  · simp
  · simpa [viewBuffer, vectorBuffer] using ⟨hinAligned, houtAligned⟩
  · simpa [viewBuffer, vectorBuffer] using ⟨hinRange, houtRange⟩
  · exact List.forall_mem_singleton.mpr (overlaps_false.mpr hapart)

/-- Settles O26: every read of a sample is a read of the view. -/
theorem bsampCompletes : Obligations.BsampCompletes := by
  intro et inp outAddr sx sy s hm hinp hinAligned houtAligned hinRange houtRange hapart hread hwrite
  refine exec_completes_buffer hm rfl
    (bsampFootprint_passes hinp hinAligned houtAligned hinRange houtRange hapart)
    (List.forall_mem_append.mpr ⟨fun x hx => ?_, answered_bufferAccesses hwrite⟩) (fun x hx => ?_)
    (bsampWork_degen ..) (bsampWork_stores ..)
  · exact answered_viewAccesses hread x (neededAccesses_subset hx)
  · exact answered_viewAccesses hread x (sampleAccesses_subset hx)

/-! ### AFFINE and CROPRS -/

section
variable {et : ElemType} {inp out : View} {s : State}

theorem warpFootprint_passes {more : List (Nat × Nat)} (hinp : Nonzero inp) (hout : Nonzero out)
    (hmore : ∀ p ∈ more, p.2 ≠ 0) (hd : inp.d = out.d) (hinAligned : Aligned et inp.addr)
    (houtAligned : Aligned et out.addr) (hinRange : InRange et inp.addr (count inp))
    (houtRange : InRange et out.addr (count out))
    (hapart : Apart out.addr.toNat (esize et * count out) inp.addr.toNat (esize et * count inp)) :
    (warpFootprint et inp out more).cause = none := by
  obtain ⟨hiw, hih, hid⟩ := hinp
  obtain ⟨how, hoh, hod⟩ := hout
  refine preflight_none.mpr ⟨?_, ?_, ?_, ?_, ?_⟩
  · refine List.forall_mem_append.mpr ⟨?_, hmore⟩
    simp [viewDims, hiw.ne', hih.ne', hid.ne', how.ne', hoh.ne', hod.ne']
  · simpa using hd
  · simpa [viewBuffer] using ⟨hinAligned, houtAligned⟩
  · simpa [viewBuffer] using ⟨hinRange, houtRange⟩
  · exact List.forall_mem_singleton.mpr (overlaps_false.mpr hapart)

/-- The accesses a warp needs are answered where its input can be read and its output written. -/
theorem answered_warpNeeds {samples : Nat → Nat → List (Word × Word)} (hread : Answered s .read et inp.addr (count inp))
    (hwrite : Answered s .write et out.addr (count out)) :
    ∀ x ∈ warpAccesses et inp out samples ++ viewAccesses .write et out, isDenied s x = false :=
  List.forall_mem_append.mpr
    ⟨fun x hx => answered_viewAccesses hread x (warpAccesses_subset hx), answered_viewAccesses hwrite⟩

end

/-- Settles O27: the stored view holds the sample at `affineCoord`. -/
theorem affineCompletes : Obligations.AffineCompletes := by
  intro et inp out offX offY t0 t1 t2 t3 s hm hinp hout hd hinAligned houtAligned hinRange houtRange hapart hread hwrite
  exact exec_completes_view hm rfl
    (warpFootprint_passes hinp hout (by simp) hd hinAligned houtAligned hinRange houtRange hapart)
    (answered_warpNeeds hread hwrite) (answered_viewAccesses hread) (affineWork_degen ..) (affineWork_stores ..)

/-- The samples of an output pixel are added row by row, `j` outer and `i` inner (R131). -/
theorem cropValue_eq (et : ElemType) (m : Memory) (inp out : View) (left top : Int) (cropW cropH ox oy c : Nat) :
    cropValue et m inp out left top cropW cropH ox oy c =
      fdiv ((List.range (decimation out cropW cropH)).foldl (fun acc j =>
        (List.range (decimation out cropW cropH)).foldl (fun acc i =>
          fadd acc (bilinear et m inp
            (cropCoord left cropW (out.w * decimation out cropW cropH) (ox * decimation out cropW cropH + i))
            (cropCoord top cropH (out.h * decimation out cropW cropH) (oy * decimation out cropW cropH + j)) c)) acc)
          fzero)
        (i2f ((decimation out cropW cropH * decimation out cropW cropH : Nat) : Int)) := by
  simp only [cropValue, cropSamples, List.foldl_flatMap, List.foldl_map]

/-- Settles O28: the stored view holds the average of each block. -/
theorem croprsCompletes : Obligations.CroprsCompletes := by
  intro et inp out left top cropW cropH s hm hinp hout hcw hch hd hinAligned houtAligned hinRange houtRange hapart hread
    hwrite
  obtain ⟨t, hexec, hdone, hsame, hholds⟩ := exec_completes_view (i := .croprs et inp out left top cropW cropH) hm rfl
    (warpFootprint_passes hinp hout (by simp [hcw.ne', hch.ne']) hd hinAligned houtAligned hinRange houtRange hapart)
    (answered_warpNeeds hread hwrite) (answered_viewAccesses hread) (croprsWork_degen ..) (croprsWork_stores ..)
  refine ⟨t, hexec, hdone, hsame, fun ox hox oy hoy c hc => ?_⟩
  have hvalue := hholds ox hox oy hoy c hc
  rw [cropValue_eq] at hvalue
  exact hvalue

end Sys2Proof.Proofs
end

section
/-! SUPPORT. `CONV2D` completes (R141, R142, R144): its checks pass, its accesses are answered, and the fold over the list
of taps is the three nested sums. -/

namespace Sys2Proof.Proofs

open Sys2Proof.Laws Sys2Proof.Machine Sys2Proof.Safety

section
variable {inp out : View} {f : Filter} {s : State}

theorem conv2dFootprint_passes (hinp : Nonzero inp) (hout : Nonzero out) (hfw : 0 < f.fw) (hfh : 0 < f.fh)
    (hci : 0 < f.ci) (hco : 0 < f.co) (hwidth : (out.w : Int) = inp.w - f.fw + 1)
    (hheight : (out.h : Int) = inp.h - f.fh + 1) (hcin : f.ci = inp.d) (hcout : f.co = out.d)
    (hinAligned : Aligned .f32 inp.addr) (houtAligned : Aligned .f32 out.addr) (hfiltAligned : Aligned .f32 f.addr)
    (hinRange : InRange .f32 inp.addr (count inp)) (houtRange : InRange .f32 out.addr (count out))
    (hfiltRange : InRange .f32 f.addr (filterCount f))
    (hinApart : Apart out.addr.toNat (4 * count out) inp.addr.toNat (4 * count inp))
    (hfiltApart : Apart out.addr.toNat (4 * count out) f.addr.toNat (4 * filterCount f)) :
    (conv2dFootprint inp f out).cause = none := by
  obtain ⟨hiw, hih, hid⟩ := hinp
  obtain ⟨how, hoh, hod⟩ := hout
  rw [conv2dFootprint_cause, preflight_none]
  refine ⟨?_, ?_, ?_, ?_, ?_⟩
  · simp [viewDims, hiw.ne', hih.ne', hid.ne', how.ne', hoh.ne', hod.ne', hfw.ne', hfh.ne', hci.ne', hco.ne']
  · simp [hwidth, hheight, hcin, hcout]
  · simpa [viewBuffer, filterBuffer] using ⟨hinAligned rfl, houtAligned rfl, hfiltAligned rfl⟩
  · simpa [viewBuffer, filterBuffer] using ⟨hinRange, houtRange, hfiltRange⟩
  · exact List.forall_mem_cons.mpr ⟨overlaps_false.mpr hinApart,
      List.forall_mem_singleton.mpr (overlaps_false.mpr hfiltApart)⟩

/-- `CONV2D` reads the whole input and the whole filter and writes the whole output (R61). -/
theorem answered_conv2dNeeds (hread : Answered s .read .f32 inp.addr (count inp))
    (hfilter : Answered s .read .f32 f.addr (filterCount f)) (hwrite : Answered s .write .f32 out.addr (count out)) :
    ∀ x ∈ (conv2dWork inp f out s.mem).needs, isDenied s x = false := by
  rw [conv2dWork_needs]
  exact List.forall_mem_append.mpr ⟨List.forall_mem_append.mpr
    ⟨answered_viewAccesses hread, answered_bufferAccesses hfilter⟩, answered_viewAccesses hwrite⟩

/-- The taps in the order of `convTaps` are three nested sums: `fy` outermost, `ci` innermost (R144). -/
theorem convValue_eq (m : Memory) (inp : View) (f : Filter) (x y co : Nat) :
    convValue m inp f x y co =
      (List.range f.fh).foldl (fun acc fy => (List.range f.fw).foldl (fun acc fx => (List.range f.ci).foldl
        (fun acc ci => fadd acc (fmul (pix .f32 m inp (x + fx) (y + fy) ci) (filtElem m f fy fx ci co))) acc) acc)
        fzero := by
  simp only [convValue, convTaps, List.foldl_flatMap, List.foldl_map]

end

/-- Settles O29: the stored view holds the sum over the taps, whose binary32 elements `pix` and `filtElem` are the words
at the offsets of R66 and R68. -/
theorem convCompletes : Obligations.ConvCompletes := by
  intro inp f out s hm hinp hout hfw hfh hci hco hwidth hheight hcin hcout hinAligned houtAligned hfiltAligned hinRange
    houtRange hfiltRange hinApart hfiltApart hread hfilter hwrite
  obtain ⟨t, hexec, hdone, hsame, hholds⟩ := exec_completes_view (i := .conv2d inp f out) hm rfl
    (conv2dFootprint_passes hinp hout hfw hfh hci hco hwidth hheight hcin hcout hinAligned houtAligned hfiltAligned
      hinRange houtRange hfiltRange hinApart hfiltApart)
    (answered_conv2dNeeds hread hfilter hwrite) (List.forall_mem_nil _) (conv2dWork_degen ..) (conv2dWork_stores ..)
  refine ⟨t, hexec, hdone, hsame, fun x hx y hy co hc => ?_⟩
  exact (hholds x hx y hy co hc).trans (convValue_eq s.mem inp f x y co)

end Sys2Proof.Proofs
end

section
/-! SUPPORT. The bias and ReLU unit (R150 to R156): when the checks of its commands pass, that each completes, and that
`BIASRELU` leaves what `ADDBIAS` and then `RELU` leave. -/

namespace Sys2Proof.Proofs

open Sys2Proof.Laws Sys2Proof.Machine Sys2Proof.Safety

/-! ### The checks -/

/-- A view of another's shape is that view at an address of its own. -/
theorem exists_readdressed {inp out : View} (hw : out.w = inp.w) (hh : out.h = inp.h) (hd : out.d = inp.d) :
    ∃ a, out = { inp with addr := a } := ⟨out.addr, by rw [← hw, ← hh, ← hd]⟩

/-- The relations of equal shapes hold exactly of such a view (R153, R155, R205). -/
theorem sameShape_holds_iff {inp out : View} :
    (∀ p ∈ sameShape inp out, p.2 = true) ↔ ∃ a, out = { inp with addr := a } := by
  constructor
  · intro h
    simp only [sameShape, List.mem_cons, List.not_mem_nil, or_false, forall_eq_or_imp, forall_eq, beq_iff_eq] at h
    obtain ⟨hw, hh, hd⟩ := h
    exact exists_readdressed hw hh hd
  · rintro ⟨a, rfl⟩
    simp [sameShape]

section
variable {inp : View} {baddr outAddr : Word} (hinp : Nonzero inp) (hinAligned : Aligned .f32 inp.addr)
  (hinRange : InRange .f32 inp.addr (count inp))
include hinp hinAligned hinRange

theorem addbiasFootprint_passes (hbiasAligned : Aligned .f32 baddr) (hbiasRange : InRange .f32 baddr inp.d)
    (hapart : Apart inp.addr.toNat (4 * count inp) baddr.toNat (4 * inp.d)) :
    (addbiasFootprint inp baddr).cause = none := by
  obtain ⟨hw, hh, hd⟩ := hinp
  rw [addbiasFootprint_cause, preflight_none]
  refine ⟨?_, ?_, ?_, ?_, ?_⟩
  · simp [viewDims, hw.ne', hh.ne', hd.ne']
  · simp
  · simpa [viewBuffer, vectorBuffer] using ⟨hinAligned rfl, hbiasAligned rfl⟩
  · simpa [viewBuffer, vectorBuffer] using ⟨hinRange, hbiasRange⟩
  · exact List.forall_mem_singleton.mpr (overlaps_false.mpr hapart)

variable (houtAligned : Aligned .f32 outAddr) (houtRange : InRange .f32 outAddr (count inp))
include houtAligned houtRange

theorem reluFootprint_passes (hapart : Apart outAddr.toNat (4 * count inp) inp.addr.toNat (4 * count inp)) :
    (reluFootprint inp { inp with addr := outAddr }).cause = none := by
  obtain ⟨hw, hh, hd⟩ := hinp
  rw [reluFootprint_cause, preflight_none]
  refine ⟨?_, sameShape_holds_iff.mpr ⟨_, rfl⟩, ?_, ?_, ?_⟩
  · simp [viewDims, hw.ne', hh.ne', hd.ne']
  · simpa [viewBuffer] using ⟨hinAligned rfl, houtAligned rfl⟩
  · simpa [viewBuffer] using ⟨hinRange, houtRange⟩
  · exact List.forall_mem_singleton.mpr (overlaps_false.mpr hapart)

/-- The pair `OUT` against `IN` is checked only where they begin at different addresses (R208). -/
theorem biasreluFootprint_passes (hbiasAligned : Aligned .f32 baddr) (hbiasRange : InRange .f32 baddr inp.d)
    (hplace : outAddr = inp.addr ∨ Apart outAddr.toNat (4 * count inp) inp.addr.toNat (4 * count inp))
    (hbiasApart : Apart outAddr.toNat (4 * count inp) baddr.toNat (4 * inp.d)) :
    (biasreluFootprint inp baddr { inp with addr := outAddr }).cause = none := by
  obtain ⟨hw, hh, hd⟩ := hinp
  rw [biasreluFootprint_cause, preflight_none]
  refine ⟨?_, sameShape_holds_iff.mpr ⟨_, rfl⟩, ?_, ?_, List.forall_mem_append.mpr ⟨?_, ?_⟩⟩
  · simp [viewDims, hw.ne', hh.ne', hd.ne']
  · simpa [viewBuffer, vectorBuffer] using ⟨hinAligned rfl, houtAligned rfl, hbiasAligned rfl⟩
  · simpa [viewBuffer, vectorBuffer] using ⟨hinRange, houtRange, hbiasRange⟩
  · split_ifs with hsame
    · exact List.forall_mem_nil _
    · exact List.forall_mem_singleton.mpr (overlaps_false.mpr (hplace.resolve_left hsame))
  · exact List.forall_mem_singleton.mpr (overlaps_false.mpr hbiasApart)

end

/-- The output of a `RELU` whose checks pass has its input's shape and lies apart from it (R153). -/
theorem reluFootprint_passed {inp out : View} (h : (reluFootprint inp out).cause = none) :
    (∃ a, out = { inp with addr := a }) ∧ Apart out.addr.toNat (4 * count out) inp.addr.toNat (4 * count inp) := by
  rw [reluFootprint_cause, preflight_none] at h
  obtain ⟨-, hshape, -, -, hapart⟩ := h
  exact ⟨sameShape_holds_iff.mp hshape, overlaps_false.mp (hapart _ List.mem_cons_self)⟩

/-- The output of a `BIASRELU` whose checks pass has its input's shape (R155). -/
theorem biasreluFootprint_passed {inp out : View} {baddr : Word} (h : (biasreluFootprint inp baddr out).cause = none) :
    ∃ a, out = { inp with addr := a } := by
  rw [biasreluFootprint_cause, preflight_none] at h
  obtain ⟨-, hshape, -⟩ := h
  exact sameShape_holds_iff.mp hshape

/-! ### Completion -/

/-- The commands with a bias read the whole input and the whole bias and write the whole output (R61). -/
theorem answered_biasNeeds {inp out : View} {baddr : Word} {s : State}
    (hread : Answered s .read .f32 inp.addr (count inp)) (hbias : Answered s .read .f32 baddr inp.d)
    (hwrite : Answered s .write .f32 out.addr (count out)) :
    ∀ x ∈ viewAccesses .read .f32 inp ++ bufferAccesses .read .f32 baddr inp.d ++ viewAccesses .write .f32 out,
      isDenied s x = false :=
  List.forall_mem_append.mpr ⟨List.forall_mem_append.mpr
    ⟨answered_viewAccesses hread, answered_bufferAccesses hbias⟩, answered_viewAccesses hwrite⟩

/-- Settles O30: every element is read before any is stored, so the sum is of the image as it was. -/
theorem addbiasCompletes : Obligations.AddbiasCompletes := by
  intro img baddr s hm himg himgAligned hbiasAligned himgRange hbiasRange hapart hread hbias hwrite
  exact exec_completes_view (i := .addbias img baddr) hm rfl
    (addbiasFootprint_passes himg himgAligned himgRange hbiasAligned hbiasRange hapart)
    (answered_biasNeeds hread hbias hwrite) (List.forall_mem_nil _) (addbiasWork_degen ..) (addbiasWork_stores ..)

/-- Settles O31: the stored buffer holds `Relu1` of the input, element by element. -/
theorem reluCompletes : Obligations.ReluCompletes := by
  intro inp out s hm hinp hw hh hd hinAligned houtAligned hinRange houtRange hapart hread hwrite
  obtain ⟨a, rfl⟩ := exists_readdressed hw hh hd
  exact exec_completes_buffer (i := .relu inp { inp with addr := a }) hm rfl
    (reluFootprint_passes hinp hinAligned hinRange houtAligned houtRange hapart)
    (List.forall_mem_append.mpr ⟨answered_viewAccesses hread, answered_viewAccesses hwrite⟩)
    (List.forall_mem_nil _) (reluWork_degen ..) (reluWork_stores ..)

/-- Settles O32: the stored view holds `Relu1` of each sum, wherever it lies. -/
theorem biasreluCompletes : Obligations.BiasreluCompletes := by
  intro inp baddr out s hm hinp hw hh hd hinAligned houtAligned hbiasAligned hinRange houtRange hbiasRange hplace
    hbiasApart hread hbias hwrite
  obtain ⟨a, rfl⟩ := exists_readdressed hw hh hd
  exact exec_completes_view (i := .biasrelu inp baddr { inp with addr := a }) hm rfl
    (biasreluFootprint_passes hinp hinAligned hinRange houtAligned houtRange hbiasAligned hbiasRange hplace hbiasApart)
    (answered_biasNeeds hread hbias hwrite) (List.forall_mem_nil _) (biasreluWork_degen ..) (biasreluWork_stores ..)

/-! ### The fused command and the pair (R156) -/

/-- A compute command that `CMDCNT` counts has passed its checks and stored its bytes (R41, R186, R212). -/
theorem exec_counted {i : Instr} {work : Memory → Work} {s t : State} (hwork : workOf i = some work)
    (h : exec i s = .next t) (hcount : t.cmdCnt = s.cmdCnt + 1) :
    (footprint i).cause = none ∧ t.mem = writeCells s.mem (work s.mem).stores := by
  rw [exec_of_workOf hwork] at h
  rcases runUnit_cases h with ⟨c, -, ht⟩ | ⟨hcause, hrun⟩
  · cases ht
    simp at hcount
  · refine ⟨hcause, ?_⟩
    rcases runWork_cases hrun with ⟨-, -, ht⟩ | ⟨-, -, ht⟩ | ⟨fs, s', hs', -, -, ht⟩ <;> cases ht
    · exact finish_mem _ _
    · exact finish_mem _ _
    · rcases hs' with rfl | rfl <;> simp at hcount

/-- Storing a binary32 buffer leaves the elements of a buffer apart from it alone. -/
theorem word_bufferCells_apart {m : Memory} {base other : Word} {n l k : Nat} {f : Nat → Word} (hm : Memory.wf m = true)
    (hapart : Apart base.toNat (4 * n) other.toNat (4 * l)) (hk : k < l) :
    word (writeCells m (bufferCells .f32 base n f)) other k = word m other k := by
  refine readWord_congr fun j hj => readByte_bufferCells_outside hm ?_
  simp only [esize]
  omega

/-- The sum at linear offset `i` of a view and its bias (R66, R151). -/
def biasedAt (m : Memory) (v : View) (baddr : Word) (i : Nat) : Word :=
  biasedPix m v baddr (i / v.d % v.w) (i / v.d / v.w) (i % v.d)

theorem biasedAt_elemIndex (m : Memory) {v : View} (baddr : Word) {x y c : Nat} (hx : x < v.w) (hc : c < v.d) :
    biasedAt m v baddr (elemIndex v x y c) = biasedPix m v baddr x y c := by
  obtain ⟨hcolumn, hrow, hchannel⟩ := elemIndex_coords (y := y) hx hc
  rw [biasedAt, hcolumn, hrow, hchannel]

section
variable {inp out : View} {baddr : Word} {s t : State} (hm : Memory.wf s.mem = true)
  (hcount : t.cmdCnt = s.cmdCnt + 1)
include hm hcount

theorem addbias_leaves (h : exec (.addbias inp baddr) s = .next t) :
    Memory.wf t.mem = true ∧ ∀ i < count inp, word t.mem inp.addr i = biasedAt s.mem inp baddr i := by
  obtain ⟨-, hmem⟩ := exec_counted rfl h hcount
  rw [hmem]
  exact ⟨wf_writeCells _ hm, fun i hi => readWord_bufferCells hm hi⟩

theorem relu_leaves (h : exec (.relu inp out) s = .next t) :
    Apart out.addr.toNat (4 * count inp) inp.addr.toNat (4 * count inp) ∧
      ∀ i < count inp, word t.mem out.addr i = relu1 (word s.mem inp.addr i) ∧
        word t.mem inp.addr i = word s.mem inp.addr i := by
  obtain ⟨hcause, hmem⟩ := exec_counted rfl h hcount
  obtain ⟨⟨a, rfl⟩, hapart⟩ := reluFootprint_passed hcause
  rw [hmem]
  exact ⟨hapart, fun i hi =>
    ⟨readWord_bufferCells (f := fun i => relu1 (word s.mem inp.addr i)) hm hi, word_bufferCells_apart hm hapart hi⟩⟩

theorem biasrelu_leaves (h : exec (.biasrelu inp baddr out) s = .next t) :
    ∀ i < count inp, word t.mem out.addr i = relu1 (biasedAt s.mem inp baddr i) ∧
      (Apart out.addr.toNat (4 * count inp) inp.addr.toNat (4 * count inp) →
        word t.mem inp.addr i = word s.mem inp.addr i) := by
  obtain ⟨hcause, hmem⟩ := exec_counted rfl h hcount
  obtain ⟨a, rfl⟩ := biasreluFootprint_passed hcause
  rw [hmem]
  exact fun i hi => ⟨readWord_bufferCells (f := fun i => relu1 (biasedAt s.mem inp baddr i)) hm hi,
    fun hapart => word_bufferCells_apart hm hapart hi⟩

end

/-- Settles O33: at each linear offset the output is `Relu1` of the sum either way, and the check of `RELU` that its output
lies apart from its input keeps the input as each command finds it. -/
theorem biasreluEqualsAddbiasThenRelu : Obligations.BiasreluEqualsAddbiasThenRelu := by
  intro inp baddr out s t t1 hm hfused hfusedCount hadd haddCount
  obtain ⟨hm1, hsums⟩ := addbias_leaves hm haddCount hadd
  have hleft := biasrelu_leaves hm hfusedCount hfused
  have hclamped : ∀ i < count inp, word t.mem out.addr i = relu1 (word t1.mem inp.addr i) := fun i hi => by
    obtain ⟨hfusedOut, -⟩ := hleft i hi
    rw [hsums i hi]
    exact hfusedOut
  refine ⟨fun t2 hrelu hreluCount => ?_, fun _ => hclamped⟩
  obtain ⟨hapart, hpair⟩ := relu_leaves hm1 hreluCount hrelu
  refine ⟨fun i hi => ?_, fun i hi => ?_, fun x hx y hy c hc => ?_⟩
  · obtain ⟨hpairOut, -⟩ := hpair i hi
    exact (hclamped i hi).trans hpairOut.symm
  · obtain ⟨-, hkept⟩ := hleft i hi
    exact hkept hapart
  · have hi : offset inp x y c < count inp := elemIndex_lt hx hy hc
    obtain ⟨-, hpairIn⟩ := hpair _ hi
    calc word t2.mem inp.addr (offset inp x y c)
        = word t1.mem inp.addr (offset inp x y c) := hpairIn
      _ = biasedAt s.mem inp baddr (offset inp x y c) := hsums _ hi
      _ = fadd (word s.mem inp.addr (offset inp x y c)) (word s.mem baddr c) := biasedAt_elemIndex s.mem baddr hx hc

end Sys2Proof.Proofs
end

section
/-! SUPPORT. `MAXPOOL2` completes (R161): its checks pass, the elements it reads are those of whole 2x2 blocks (R61), and
each output element is the running maximum of its block. -/

namespace Sys2Proof.Proofs

open Sys2Proof.Laws Sys2Proof.Machine Sys2Proof.Safety

section
variable {inp out : View} {s : State}

theorem maxpool2Footprint_passes (hinp : Nonzero inp) (hout : Nonzero out) (hwidth : out.w = inp.w / 2)
    (hheight : out.h = inp.h / 2) (hdepth : out.d = inp.d) (hinAligned : Aligned .f32 inp.addr)
    (houtAligned : Aligned .f32 out.addr) (hinRange : InRange .f32 inp.addr (count inp))
    (houtRange : InRange .f32 out.addr (count out))
    (hapart : Apart out.addr.toNat (4 * count out) inp.addr.toNat (4 * count inp)) :
    (maxpool2Footprint inp out).cause = none := by
  obtain ⟨hiw, hih, hid⟩ := hinp
  obtain ⟨how, hoh, hod⟩ := hout
  rw [maxpool2Footprint_cause, preflight_none]
  refine ⟨?_, ?_, ?_, ?_, ?_⟩
  · simp [viewDims, hiw.ne', hih.ne', hid.ne', how.ne', hoh.ne', hod.ne']
  · simp [hwidth, hheight, hdepth]
  · simpa [viewBuffer] using ⟨hinAligned rfl, houtAligned rfl⟩
  · simpa [viewBuffer] using ⟨hinRange, houtRange⟩
  · exact List.forall_mem_singleton.mpr (overlaps_false.mpr hapart)

/-- An odd last column or row is not among the elements read (R61, R162). -/
theorem mem_poolReads {a : Access} :
    a ∈ poolReads inp out ↔ ∃ y < 2 * out.h, ∃ x < 2 * out.w, ∃ c < inp.d,
      a = ⟨.read, 4, elemAddr .f32 inp.addr (elemIndex inp x y c)⟩ := by
  simp only [poolReads, List.mem_flatMap, List.mem_map, List.mem_range, eq_comm]

/-- `MAXPOOL2` reads the elements of its blocks and writes the whole output (R61). -/
theorem answered_maxpool2Needs
    (hread : ∀ x < 2 * out.w, ∀ y < 2 * out.h, ∀ c < inp.d,
      isDenied s ⟨.read, 4, inp.addr.toNat + 4 * offset inp x y c⟩ = false)
    (hwrite : Answered s .write .f32 out.addr (count out)) :
    ∀ a ∈ (maxpool2Work inp out s.mem).needs, isDenied s a = false := by
  rw [maxpool2Work_needs]
  refine List.forall_mem_append.mpr ⟨fun a ha => ?_, answered_viewAccesses hwrite⟩
  obtain ⟨y, hy, x, hx, c, hc, rfl⟩ := mem_poolReads.mp ha
  exact hread x hx y hy c hc

end

/-- Settles O34: the stored view holds `poolValue`, three turns of `fmaxStep` over the block in the order of R161, each of
which keeps the maximum so far unless the next element is strictly greater. -/
theorem maxpoolCompletes : Obligations.MaxpoolCompletes := by
  intro inp out s hm hinp hout hwidth hheight hdepth hinAligned houtAligned hinRange houtRange hapart hread hwrite
  exact exec_completes_view (i := .maxpool2 inp out) hm rfl
    (maxpool2Footprint_passes hinp hout hwidth hheight hdepth hinAligned houtAligned hinRange houtRange hapart)
    (answered_maxpool2Needs hread hwrite) (List.forall_mem_nil _) (maxpool2Work_degen ..) (maxpool2Work_stores ..)

end Sys2Proof.Proofs
end

section
/-! SUPPORT. Bounds that rounding keeps (R10): a bound that is itself a binary32 holds of the rounded result too, and with it
the sums and quotients of values that are not below zero; and the exponential, case by case (R166). -/

namespace Sys2Proof.Proofs

open Sys2Proof.Laws Sys2Proof.Machine Sys2Proof.Safety

/-! ### Rounding against a bound -/

section
variable {num den m : Nat}

theorem roundUnits_le_of_le (hden : 0 < den) (h : num ≤ magUnits m * den) : roundUnits num den ≤ m := by
  by_contra hlt
  have hwide : m < wideMag num den := (not_le.mp hlt).trans_le (min_le_left _ _)
  have hfar : magUnits m * den < magUnits (wideMag num den) * den :=
    Nat.mul_lt_mul_of_pos_right (magUnits_strictMono hwide) hden
  have hnear := (wideMag_nearest (num := num) hden (Int.natAbs_natCast (magUnits m))).1
  zify at h hfar
  rw [abs_of_pos (by linarith), abs_of_nonneg (by linarith)] at hnear
  linarith

theorem le_roundUnits (hden : 0 < den) (hm : m ≤ infMag) (h : magUnits m * den ≤ num) : m ≤ roundUnits num den := by
  refine le_min (not_lt.mp fun hwide => ?_) hm
  have hfar : magUnits (wideMag num den) * den < magUnits m * den :=
    Nat.mul_lt_mul_of_pos_right (magUnits_strictMono hwide) hden
  have hnear := (wideMag_nearest (num := num) hden (Int.natAbs_natCast (magUnits m))).1
  zify at h hfar
  rw [abs_of_neg (by linarith), abs_of_nonpos (by linarith)] at hnear
  linarith

end

/-! ### The order of values -/

theorem orderKey_packFloat (s : Bool) {m : Nat} (hm : m < 2 ^ 31) :
    orderKey (packFloat s m) = if s then -(m : Int) else m := by
  rw [orderKey, isNeg_packFloat s hm, magBits_packFloat s hm]

theorem orderKey_fone : orderKey fone = magBits fone := by decide

theorem unitsOf_fone : unitsOf fone = oneUnits := by decide

/-- Not a NaN and not below zero; `-0.0` is one of these (R10). -/
structure NonNegative (x : Word) : Prop where
  notNaN : isNaN x = false
  nonneg : 0 ≤ orderKey x

/-- From zero to one: what R169 (f) promises of a probability. -/
structure InUnitInterval (x : Word) : Prop extends NonNegative x where
  le_one : orderKey x ≤ orderKey fone

section
variable {a b : Word}

theorem nonNegative_iff : NonNegative a ↔ isNaN a = false ∧ 0 ≤ orderKey a :=
  ⟨fun ⟨hnan, hlow⟩ => ⟨hnan, hlow⟩, fun ⟨hnan, hlow⟩ => ⟨hnan, hlow⟩⟩

theorem fgt_eq_false_iff (ha : isNaN a = false) (hb : isNaN b = false) :
    fgt a b = false ↔ orderKey a ≤ orderKey b := by
  rw [← Bool.not_eq_true, fgt_of_not_nan ha hb, not_lt]

theorem orderKey_le_iff_signedUnits_le : orderKey a ≤ orderKey b ↔ signedUnits a ≤ signedUnits b := by
  rw [← not_lt, ← not_lt, orderKey_lt_iff_signedUnits_lt]

theorem inUnitInterval_fone : InUnitInterval fone := ⟨⟨by decide, by decide⟩, le_rfl⟩

/-- In the terms of the comparison `fgt` (R10). -/
theorem inUnitInterval_iff :
    InUnitInterval a ↔ isNaN a = false ∧ fgt 0x00000000 a = false ∧ fgt a 0x3F800000 = false := by
  constructor
  · rintro ⟨⟨hnan, hlow⟩, hhigh⟩
    exact ⟨hnan, (fgt_eq_false_iff (by decide) hnan).mpr hlow, (fgt_eq_false_iff hnan (by decide)).mpr hhigh⟩
  · rintro ⟨hnan, hlow, hhigh⟩
    exact ⟨⟨hnan, (fgt_eq_false_iff (by decide) hnan).mp hlow⟩, (fgt_eq_false_iff hnan (by decide)).mp hhigh⟩

/-- The sign of a value that is not below zero adds nothing to its magnitude. -/
theorem orderKey_eq_magBits (ha : NonNegative a) : orderKey a = magBits a := by
  have hlow := ha.nonneg
  rw [orderKey] at hlow ⊢
  split_ifs at hlow ⊢ <;> omega

theorem signedUnits_eq_unitsOf (ha : NonNegative a) : signedUnits a = unitsOf a := by
  have hunits : signedUnits 0 ≤ signedUnits a := orderKey_le_iff_signedUnits_le.mp ha.nonneg
  rw [← natAbs_signedUnits, Int.natAbs_of_nonneg hunits]

theorem orderKey_le_infMag (ha : isNaN a = false) : orderKey a ≤ infMag := by
  have hmag : magBits a ≤ infMag := not_lt.mp (of_decide_eq_false ha)
  rw [orderKey]
  split_ifs <;> omega

theorem orderKey_eq_infMag (ha : NonNegative a) (hinf : isInf a = true) : orderKey a = infMag := by
  rw [orderKey_eq_magBits ha, of_decide_eq_true hinf]

theorem isFinite_of_inUnitInterval (h : InUnitInterval a) : isFinite a = true := by
  obtain ⟨hlow, hhigh⟩ := h
  refine isFinite_of_not hlow.notNaN (Bool.eq_false_iff.mpr fun hinf => ?_)
  rw [orderKey_eq_infMag hlow hinf] at hhigh
  exact absurd hhigh (by decide)

/-! ### Sums, differences and quotients -/

theorem orderKey_fadd_of_finite (ha : NonNegative a) (hb : NonNegative b) (hfa : isFinite a = true)
    (hfb : isFinite b = true) : orderKey (fadd a b) = roundUnits (unitsOf a + unitsOf b) 1 := by
  rw [fadd_of_finite hfa hfb, signedUnits_eq_unitsOf ha, signedUnits_eq_unitsOf hb, ← Nat.cast_add, Int.natAbs_natCast]
  split_ifs with hzero
  · rw [Int.natCast_eq_zero.mp hzero, roundUnits_zero, orderKey_packFloat _ (by decide)]
    split_ifs <;> rfl
  · rw [decide_eq_false (not_lt.mpr (Int.natCast_nonneg _)), orderKey_packFloat _ (roundUnits_lt _ _)]
    rfl

theorem fadd_inf_nonNegative (ha : NonNegative a) (hb : NonNegative b) (hia : isInf a = true) : fadd a b = a := by
  have hsign {x : Word} (hx : NonNegative x) (hinf : isInf x = true) : isNeg x = false := by
    have hpos : 0 < orderKey x := by
      rw [orderKey_eq_infMag hx hinf]
      decide
    exact (orderKey_pos_iff.mp hpos).1
  cases hib : isInf b with
  | false => exact fadd_inf_finite hia (isFinite_of_not hb.notNaN hib)
  | true => exact fadd_inf_inf hia hib ((hsign ha hia).trans (hsign hb hib).symm)

/-- A finite value that is at most the exact result is at most the rounded one. -/
theorem magBits_le_roundUnits {t : Nat} (ha : isFinite a = true) (h : unitsOf a ≤ t) : magBits a ≤ roundUnits t 1 :=
  le_roundUnits Nat.one_pos (of_decide_eq_true ha).le (by rwa [mul_one, ← unitsOf_eq_magUnits])

/-- A sum of values that are not below zero is not below either of them. -/
theorem fadd_bounds (ha : NonNegative a) (hb : NonNegative b) :
    isNaN (fadd a b) = false ∧ orderKey a ≤ orderKey (fadd a b) ∧ orderKey b ≤ orderKey (fadd a b) := by
  cases hia : isInf a with
  | true =>
    rw [fadd_inf_nonNegative ha hb hia, orderKey_eq_infMag ha hia]
    exact ⟨ha.notNaN, le_rfl, orderKey_le_infMag hb.notNaN⟩
  | false =>
    have hfa := isFinite_of_not ha.notNaN hia
    cases hib : isInf b with
    | true =>
      rw [fadd_finite_inf hfa hib, orderKey_eq_infMag hb hib]
      exact ⟨hb.notNaN, orderKey_le_infMag ha.notNaN, le_rfl⟩
    | false =>
      have hfb := isFinite_of_not hb.notNaN hib
      rw [orderKey_fadd_of_finite ha hb hfa hfb, orderKey_eq_magBits ha, orderKey_eq_magBits hb, Int.ofNat_le,
        Int.ofNat_le]
      exact ⟨(nearestEven_fadd hfa hfb).1, magBits_le_roundUnits hfa (Nat.le_add_right _ _),
        magBits_le_roundUnits hfb (Nat.le_add_left _ _)⟩

/-- The difference to a finite value that is not below is not above zero. -/
theorem fsub_of_le (ha : isFinite a = true) (hb : isFinite b = true) (hle : orderKey a ≤ orderKey b) :
    isNaN (fsub a b) = false ∧ orderKey (fsub a b) ≤ 0 := by
  have hfb : isFinite (fneg b) = true := (isFinite_fneg b).trans hb
  have hunits : signedUnits a + signedUnits (fneg b) ≤ 0 := by
    rw [signedUnits_fneg, ← sub_eq_add_neg, sub_nonpos]
    exact orderKey_le_iff_signedUnits_le.mp hle
  refine ⟨(nearestEven_fadd ha hfb).1, ?_⟩
  rw [fsub, fadd_of_finite ha hfb]
  split_ifs with hzero
  · rw [orderKey_packFloat _ (by decide)]
    split_ifs <;> rfl
  · rw [decide_eq_true (lt_of_le_of_ne hunits hzero), orderKey_packFloat _ (roundUnits_lt _ _), if_pos rfl]
    omega

theorem orderKey_fdiv_of_finite (ha : NonNegative a) (hfa : isFinite a = true) (hfb : isFinite b = true)
    (hpos : 0 < orderKey b) : orderKey (fdiv a b) = roundUnits (unitsOf a * oneUnits) (unitsOf b) := by
  obtain ⟨hsb, hzb⟩ := orderKey_pos_iff.mp hpos
  rw [fdiv_of_finite hfa hfb hzb, hsb, Bool.bne_false, orderKey_packFloat _ (roundUnits_lt _ _)]
  split_ifs with hsa
  · have hzero : unitsOf a = 0 := by
      have hunits := signedUnits_eq_unitsOf ha
      rw [signedUnits, if_pos hsa] at hunits
      omega
    rw [hzero, zero_mul, roundUnits_zero]
    rfl
  · rfl

/-- A part over a positive whole is between zero and one, the whole infinite or not. -/
theorem inUnitInterval_fdiv (ha : NonNegative a) (hfa : isFinite a = true) (hb : isNaN b = false)
    (hpos : 0 < orderKey b) (hle : orderKey a ≤ orderKey b) : InUnitInterval (fdiv a b) := by
  obtain ⟨hsb, hzb⟩ := orderKey_pos_iff.mp hpos
  cases hib : isInf b with
  | false =>
    have hfb := isFinite_of_not hb hib
    have hunits : unitsOf a ≤ unitsOf b := by
      rw [orderKey_le_iff_signedUnits_le, signedUnits_eq_unitsOf ha, signedUnits_eq_unitsOf ⟨hb, hpos.le⟩] at hle
      exact_mod_cast hle
    have hround : roundUnits (unitsOf a * oneUnits) (unitsOf b) ≤ magBits fone := by
      refine roundUnits_le_of_le (unitsOf_pos hzb) ?_
      rw [← unitsOf_eq_magUnits, unitsOf_fone, mul_comm oneUnits]
      exact Nat.mul_le_mul_right _ hunits
    have hkey := orderKey_fdiv_of_finite ha hfa hfb hpos
    refine ⟨⟨(nearestEven_fdiv hfa hfb hzb).1, ?_⟩, ?_⟩ <;> rw [hkey]
    · exact Int.natCast_nonneg _
    · rw [orderKey_fone]
      exact_mod_cast hround
  | true =>
    rw [fdiv_finite_inf hfa hib]
    cases isNeg a != isNeg b <;> exact ⟨⟨by decide, by decide⟩, by decide⟩

end

/-! ### The exponential -/

section
variable {x y : Word}

theorem exp32_of_isNaN (h : isNaN x = true) : exp32 x = canonicalNaN := by simp [exp32, h]

theorem exp32_of_isZero (h : isZero x = true) : exp32 x = fone := by
  simp [exp32, h, kind_of_isFinite (isFinite_of_isZero h)]

theorem exp32_of_negInf (hinf : isInf x = true) (hneg : isNeg x = true) : exp32 x = fzero := by
  simp [exp32, hinf, hneg, kind_of_isInf hinf]

/-- What E4 and E5 ask, in the order of values (R166). -/
theorem expAllowed_iff (hx : isNaN x = false) :
    expAllowed x y = true ↔ NonNegative y ∧ (orderKey x ≤ 0 → orderKey y ≤ orderKey fone) := by
  have hbelow : fgt x fzero = false ↔ orderKey x ≤ 0 := fgt_eq_false_iff hx (by decide)
  rw [nonNegative_iff, ← hbelow]
  simp only [expAllowed, Bool.and_eq_true, Bool.not_eq_true', decide_eq_true_eq, Bool.or_eq_true]
  refine and_congr_right fun ⟨hy, _⟩ => ?_
  rw [fgt_eq_false_iff hy (by decide), ← Bool.not_eq_false, ← imp_iff_not_or]

/-- The value for a NaN apart, the model's exponential takes only values that E4 and E5 allow (R166). -/
theorem expAllowed_exp32 (hx : isNaN x = false) : expAllowed x (exp32 x) = true := by
  have hone : expAllowed x fone = true := (expAllowed_iff hx).mpr ⟨inUnitInterval_fone.toNonNegative, fun _ => le_rfl⟩
  have hzero : expAllowed x fzero = true :=
    (expAllowed_iff hx).mpr ⟨⟨by decide, by decide⟩, fun _ => by decide⟩
  rw [exp32, if_neg (by simp [hx])]
  split_ifs with hz hinf hraw
  · exact hone
  · exact hzero
  · exact hraw
  · exact hzero

/-- Not above zero, the exponential is between zero and one (R166 E4, E5). -/
theorem inUnitInterval_exp32 (hx : isNaN x = false) (hle : orderKey x ≤ 0) : InUnitInterval (exp32 x) := by
  obtain ⟨hlow, hhigh⟩ := (expAllowed_iff hx).mp (expAllowed_exp32 hx)
  exact ⟨hlow, hhigh hle⟩

end

/-- Settles O38: E1 to E3 are the first branches, E4 and E5 are what is allowed in every other. -/
theorem exponentialKeepsItsPromises : Obligations.ExponentialKeepsItsPromises := by
  refine ⟨exp32_of_isZero (by decide), exp32_of_isZero (by decide), exp32_of_negInf (by decide) (by decide),
    fun x => exp32_of_isNaN, fun x hx => ?_, fun x hx hle => ?_⟩
  · obtain ⟨⟨hnan, hlow⟩, -⟩ := (expAllowed_iff hx).mp (expAllowed_exp32 hx)
    exact ⟨hnan, (fgt_eq_false_iff (by decide) hnan).mpr hlow⟩
  · obtain ⟨-, -, hhigh⟩ :=
      inUnitInterval_iff.mp (inUnitInterval_exp32 hx ((fgt_eq_false_iff hx (by decide)).mp hle))
    exact hhigh

end Sys2Proof.Proofs
end

section
/-! SUPPORT. `SOFTMAX` (R167 to R169): its checks pass and its accesses are answered, an empty vector included, and over
finite scores each exponential is between zero and one and is at most their sum, which is at least one. -/

namespace Sys2Proof.Proofs

open Sys2Proof.Laws Sys2Proof.Machine Sys2Proof.Safety

/-! ### Completion -/

theorem softmaxFootprint_passes {saddr paddr : Word} {n : Nat} (hinAligned : Aligned .f32 saddr)
    (houtAligned : Aligned .f32 paddr) (hinRange : InRange .f32 saddr n) (houtRange : InRange .f32 paddr n)
    (hapart : Apart paddr.toNat (4 * n) saddr.toNat (4 * n)) : (softmaxFootprint saddr n paddr).cause = none := by
  rw [softmaxFootprint_cause, preflight_none]
  refine ⟨by simp, by simp, ?_, ?_, ?_⟩
  · simpa [vectorBuffer] using ⟨hinAligned rfl, houtAligned rfl⟩
  · simpa [vectorBuffer] using ⟨hinRange, houtRange⟩
  · exact List.forall_mem_singleton.mpr (overlaps_false.mpr hapart)

/-- Settles O37: an empty vector passes every check but alignment wherever it lies, and has no access and no byte. -/
theorem softmaxEmptyIsDegenerate : Obligations.SoftmaxEmptyIsDegenerate := by
  intro saddr paddr s hinAligned houtAligned
  have hcause : (softmaxFootprint saddr 0 paddr).cause = none :=
    softmaxFootprint_passes hinAligned houtAligned saddr.isLt.le paddr.isLt.le (.inl rfl)
  calc exec (.softmax saddr 0 paddr) s
      = .next (finish (softmaxWork saddr 0 paddr s.mem) s) :=
        runUnit_completes hcause (List.forall_mem_nil _) (List.forall_mem_nil _)
    _ = .next { s with cp := s.cp + 64, cmdCnt := s.cmdCnt + 1, flags := s.flags ||| 1 } := by
        rw [finish_degen (softmaxWork_degen ..)]
        rfl

/-- The maximum is a scan over the scores after the first, with the step of `MAXPOOL2` (R161, R167). -/
theorem softmaxMax_eq (m : Memory) (saddr : Word) {n : Nat} (hn : 0 < n) :
    softmaxMax m saddr n = ((List.range n).drop 1).foldl (fun mx i => fmaxStep mx (word m saddr i)) (word m saddr 0) := by
  obtain ⟨k, rfl⟩ := Nat.exists_eq_succ_of_ne_zero hn.ne'
  rw [List.range_succ_eq_map, List.drop_one, List.tail_cons, List.foldl_map]
  rfl

/-- Settles O35: the stored vector holds `softmaxProb`, whose maximum is the scan of R167. -/
theorem softmaxCompletes : Obligations.SoftmaxCompletes := by
  intro saddr n paddr s hm hn hinAligned houtAligned hinRange houtRange hapart hread hwrite
  obtain ⟨t, hexec, hdone, hsame, hholds⟩ := exec_completes_buffer (i := .softmax saddr n paddr) hm rfl
    (softmaxFootprint_passes hinAligned houtAligned hinRange houtRange hapart)
    (List.forall_mem_append.mpr ⟨answered_bufferAccesses hread, answered_bufferAccesses hwrite⟩)
    (List.forall_mem_nil _) ((softmaxWork_degen ..).trans (beq_false_of_ne hn.ne')) (softmaxWork_stores ..)
  refine ⟨t, hexec, hdone, hsame, ?_⟩
  intro sc mx e total i hi
  have hmax : softmaxMax s.mem saddr n = mx := softmaxMax_eq s.mem saddr hn
  calc word t.mem paddr i = softmaxProb s.mem saddr n i := hholds i hi
    _ = fdiv (e i) total := by rw [softmaxProb, hmax]; rfl

/-! ### The scan for the maximum and the sum -/

section
variable {f : Nat → Word} {l : List Nat} {acc : Word}

/-- The scan ends at its start or at one of the values it passes, and at none below any of them. -/
theorem foldl_fmaxStep_bounds {mx : Word} (hmx : l.foldl (fun mx i => fmaxStep mx (f i)) acc = mx)
    (hacc : isNaN acc = false) (hl : ∀ i ∈ l, isNaN (f i) = false) :
    (mx = acc ∨ ∃ i ∈ l, mx = f i) ∧ orderKey acc ≤ orderKey mx ∧ ∀ i ∈ l, orderKey (f i) ≤ orderKey mx := by
  induction l generalizing acc with
  | nil =>
    obtain rfl : acc = mx := hmx
    exact ⟨.inl rfl, le_rfl, List.forall_mem_nil _⟩
  | cons k l ih =>
    obtain ⟨hk, hl⟩ := List.forall_mem_cons.mp hl
    rw [List.foldl_cons] at hmx
    cases hgt : fgt (f k) acc with
    | true =>
      have hless : orderKey acc < orderKey (f k) := (fgt_of_not_nan hk hacc).mp hgt
      rw [fmaxStep, if_pos hgt] at hmx
      obtain ⟨hmem, hstart, hrest⟩ := ih hmx hk hl
      refine ⟨.inr ?_, hless.le.trans hstart, List.forall_mem_cons.mpr ⟨hstart, hrest⟩⟩
      exact hmem.elim (fun he => ⟨k, List.mem_cons_self, he⟩) fun ⟨i, hi, he⟩ => ⟨i, List.mem_cons_of_mem _ hi, he⟩
    | false =>
      have hle : orderKey (f k) ≤ orderKey acc := (fgt_eq_false_iff hk hacc).mp hgt
      rw [fmaxStep, hgt, if_neg Bool.false_ne_true] at hmx
      obtain ⟨hmem, hstart, hrest⟩ := ih hmx hacc hl
      refine ⟨hmem.imp_right ?_, hstart, List.forall_mem_cons.mpr ⟨hle.trans hstart, hrest⟩⟩
      exact fun ⟨i, hi, he⟩ => ⟨i, List.mem_cons_of_mem _ hi, he⟩

/-- A running sum of values that are not below zero is not below any of them. -/
theorem foldl_fadd_bounds {total : Word} (htotal : l.foldl (fun acc i => fadd acc (f i)) acc = total)
    (hacc : NonNegative acc) (hl : ∀ i ∈ l, NonNegative (f i)) :
    isNaN total = false ∧ orderKey acc ≤ orderKey total ∧ ∀ i ∈ l, orderKey (f i) ≤ orderKey total := by
  induction l generalizing acc with
  | nil =>
    obtain rfl : acc = total := htotal
    exact ⟨hacc.notNaN, le_rfl, List.forall_mem_nil _⟩
  | cons k l ih =>
    obtain ⟨hk, hl⟩ := List.forall_mem_cons.mp hl
    obtain ⟨hnan, hleft, hright⟩ := fadd_bounds hacc hk
    obtain ⟨htotalNaN, hstart, hrest⟩ := ih htotal ⟨hnan, hacc.nonneg.trans hleft⟩ hl
    exact ⟨htotalNaN, hleft.trans hstart, List.forall_mem_cons.mpr ⟨hright.trans hstart, hrest⟩⟩

end

/-! ### Finite scores -/

section
variable {m : Memory} {saddr : Word} {n : Nat} (hn : 0 < n) (hfinite : ∀ i < n, isFinite (word m saddr i) = true)
include hn hfinite

/-- The maximum of finite scores is one of them, and none is above it. -/
theorem softmaxMax_attained :
    (∃ j < n, softmaxMax m saddr n = word m saddr j) ∧
      ∀ i < n, orderKey (word m saddr i) ≤ orderKey (softmaxMax m saddr n) := by
  have hlater {i : Nat} : i ∈ (List.range n).drop 1 ↔ 0 < i ∧ i < n := by
    rw [List.range_eq_range', List.drop_range', List.mem_range'_1]
    omega
  have hnan : ∀ i < n, isNaN (word m saddr i) = false := fun i hi => (kind_of_isFinite (hfinite i hi)).1
  obtain ⟨hmem, hfirst, hrest⟩ := foldl_fmaxStep_bounds (softmaxMax_eq m saddr hn).symm (hnan 0 hn)
    fun i hi => hnan i (hlater.mp hi).2
  refine ⟨?_, fun i hi => ?_⟩
  · rcases hmem with he | ⟨i, hi, he⟩
    · exact ⟨0, hn, he⟩
    · exact ⟨i, (hlater.mp hi).2, he⟩
  · rcases Nat.eq_zero_or_pos i with rfl | hpos
    · exact hfirst
    · exact hrest i (hlater.mpr ⟨hpos, hi⟩)

theorem isFinite_softmaxMax : isFinite (softmaxMax m saddr n) = true := by
  obtain ⟨⟨j, hj, hmax⟩, -⟩ := softmaxMax_attained hn hfinite
  rw [hmax]
  exact hfinite j hj

/-- No score exceeds the maximum, so every exponential is between zero and one (R166 E4, E5). -/
theorem inUnitInterval_softmaxExp {i : Nat} (hi : i < n) :
    InUnitInterval (softmaxExp m saddr (softmaxMax m saddr n) i) := by
  obtain ⟨-, hle⟩ := softmaxMax_attained hn hfinite
  obtain ⟨hnan, hneg⟩ := fsub_of_le (hfinite i hi) (isFinite_softmaxMax hn hfinite) (hle i hi)
  exact inUnitInterval_exp32 hnan hneg

/-- The exponential of the score that attains the maximum is one (R166 E1, R169 a). -/
theorem exists_softmaxExp_eq_fone : ∃ j < n, softmaxExp m saddr (softmaxMax m saddr n) j = fone := by
  obtain ⟨⟨j, hj, hmax⟩, -⟩ := softmaxMax_attained hn hfinite
  refine ⟨j, hj, ?_⟩
  have hself : fsub (word m saddr j) (softmaxMax m saddr n) = 0 := by
    rw [hmax]
    exact fsub_self_of_finite (hfinite j hj)
  exact (congrArg exp32 hself).trans (exp32_of_isZero (by decide))

/-- The sum is at least one and not below any of the exponentials, so it is never zero (R169 a). -/
theorem softmaxSum_bounds :
    isNaN (softmaxSum m saddr n (softmaxMax m saddr n)) = false ∧
      0 < orderKey (softmaxSum m saddr n (softmaxMax m saddr n)) ∧
      ∀ i < n, orderKey (softmaxExp m saddr (softmaxMax m saddr n) i) ≤
        orderKey (softmaxSum m saddr n (softmaxMax m saddr n)) := by
  obtain ⟨hnan, -, hparts⟩ := foldl_fadd_bounds (total := softmaxSum m saddr n (softmaxMax m saddr n)) rfl
    ⟨by decide, by decide⟩ fun i hi => (inUnitInterval_softmaxExp hn hfinite (List.mem_range.mp hi)).toNonNegative
  obtain ⟨j, hj, hone⟩ := exists_softmaxExp_eq_fone hn hfinite
  have hge := hparts j (List.mem_range.mpr hj)
  rw [hone] at hge
  exact ⟨hnan, lt_of_lt_of_le (by decide) hge, fun i hi => hparts i (List.mem_range.mpr hi)⟩

theorem inUnitInterval_softmaxProb {i : Nat} (hi : i < n) : InUnitInterval (softmaxProb m saddr n i) := by
  have hexp := inUnitInterval_softmaxExp hn hfinite hi
  obtain ⟨hnan, hpos, hparts⟩ := softmaxSum_bounds hn hfinite
  exact inUnitInterval_fdiv hexp.toNonNegative (isFinite_of_inUnitInterval hexp) hnan hpos (hparts i hi)

end

/-- Settles O36: a completed command has stored `softmaxProb`, a part over a sum that is not below it. -/
theorem softmaxProbabilitiesInUnitInterval : Obligations.SoftmaxProbabilitiesInUnitInterval := by
  intro saddr n paddr s t hm hn hfinite hexec hcount i hi
  obtain ⟨-, hmem⟩ := exec_counted rfl hexec hcount
  have hprob : word t.mem paddr i = softmaxProb s.mem saddr n i := by
    rw [hmem]
    exact readWord_bufferCells hm hi
  rw [hprob, ← inUnitInterval_iff]
  exact inUnitInterval_softmaxProb hn hfinite hi

end Sys2Proof.Proofs
end

section
/-! SUPPORT. What the histogram units share: bytes stored as they are, and the histogram of R171 as counts and sums over
the pixels below a value. -/

namespace Sys2Proof.Proofs

open Sys2Proof.Laws Sys2Proof.Machine Sys2Proof.Safety

/-! ### Stored bytes -/

/-- The cells of `n` bytes from `base`. -/
def byteCells (base : Word) (n : Nat) (b : Nat → Byte) : List Host.Cell :=
  (List.range n).map fun i => (elemAddr .u8 base i, b i)

theorem elemAddr_u8 (base : Word) (i : Nat) : elemAddr .u8 base i = base.toNat + i := by simp [elemAddr, esize]

theorem byteCells_nodup (base : Word) (n : Nat) (b : Nat → Byte) : ((byteCells base n b).map Prod.fst).Nodup := by
  rw [byteCells, List.map_map]
  exact List.nodup_range.map fun i j h => by simpa [elemAddr_u8] using h

section
variable {m : Memory} {base : Word} {n : Nat} {b : Nat → Byte} (hm : Memory.wf m = true)
include hm

theorem readByte_byteCells {i : Nat} (hi : i < n) :
    readByte (writeCells m (byteCells base n b)) (base.toNat + i) = b i :=
  readByte_writeCells_mem hm (byteCells_nodup base n b)
    (List.mem_map.mpr ⟨i, List.mem_range.mpr hi, by rw [elemAddr_u8]⟩)

theorem readByte_byteCells_outside {a : Nat} (ha : a < base.toNat ∨ base.toNat + n ≤ a) :
    readByte (writeCells m (byteCells base n b)) a = readByte m a := by
  refine readByte_writeCells_other hm fun c hc => ?_
  obtain ⟨i, hi, rfl⟩ := List.mem_map.mp hc
  have hlt := List.mem_range.mp hi
  rw [elemAddr_u8]
  omega

end

/-- A compute command that stores bytes as they are, whose checks pass and whose accesses are answered, completes, with
its fallback or without. -/
theorem exec_completes_bytes {i : Instr} {work : Memory → Work} {s : State} {base : Word} {n : Nat} {b : Nat → Byte}
    (hm : Memory.wf s.mem = true) (hwork : workOf i = some work) (hcause : (footprint i).cause = none)
    (hneeds : ∀ x ∈ (work s.mem).needs, isDenied s x = false) (hmay : ∀ x ∈ (work s.mem).may, isDenied s x = false)
    (hstores : (work s.mem).stores = byteCells base n b) :
    ∃ t, exec i s = .next t ∧ ((work s.mem).degen = false → Completed s t) ∧
      ((work s.mem).degen = true → CompletedDegen s t) ∧ SameOutside s t base n ∧
      ∀ k < n, readByte t.mem (base.toNat + k) = b k := by
  have hmem : (finish (work s.mem) s).mem = writeCells s.mem (byteCells base n b) := by rw [finish_mem, hstores]
  refine ⟨finish (work s.mem) s, ?_, fun hplain => ?_, fun hdegen => ?_, fun a ha => ?_, fun k hk => ?_⟩
  · rw [exec_of_workOf hwork, runUnit_completes hcause hneeds hmay]
  · rw [Completed, finish_mem]
    exact finish_plain hplain
  · rw [CompletedDegen, finish_mem]
    exact finish_degen hdegen
  · rw [hmem]
    exact readByte_byteCells_outside hm ha
  · rw [hmem]
    exact readByte_byteCells hm hk

/-! ### The pixels of an image -/

/-- The pixels of a view in memory order (R170). -/
def pixelsOf (m : Memory) (v : View) : List Nat := (List.range (count v)).map fun i => byte m v.addr i

theorem count_of_gray {v : View} (hd : v.d = 1) : v.w * v.h = count v := by rw [count, hd, Nat.mul_one]

theorem grayPixels_eq (m : Memory) {v : View} (hd : v.d = 1) : grayPixels m v = pixelsOf m v := by
  simp only [grayPixels, pixelsOf, elemAddr_u8, count_of_gray hd]

theorem length_pixelsOf (m : Memory) (v : View) : (pixelsOf m v).length = count v := by simp [pixelsOf]

theorem forall_mem_pixelsOf {m : Memory} {v : View} {P : Nat → Prop} :
    (∀ p ∈ pixelsOf m v, P p) ↔ ∀ i < count v, P (byte m v.addr i) := by simp [pixelsOf]

theorem mem_pixelsOf {m : Memory} {v : View} {p : Nat} :
    p ∈ pixelsOf m v ↔ ∃ i < count v, byte m v.addr i = p := by simp [pixelsOf]

theorem pixelsOf_lt (m : Memory) (v : View) : ∀ p ∈ pixelsOf m v, p < 256 :=
  forall_mem_pixelsOf.mpr fun _ _ => BitVec.isLt _

/-! ### The pixels below a value -/

/-- The pixels with a value below `n`. -/
def under (px : List Nat) (n : Nat) : List Nat := px.filter fun v => decide (v < n)

theorem under_zero (px : List Nat) : under px 0 = [] := by simp [under]

theorem histOf_pos {px : List Nat} {t : Nat} : 0 < histOf px t ↔ t ∈ px := List.count_pos_iff

/-- One value up, the pixels of that value come in (R171). -/
theorem under_succ_perm (px : List Nat) (n : Nat) :
    (under px n ++ List.replicate (histOf px n) n).Perm (under px (n + 1)) := by
  have hlow : (under px (n + 1)).filter (fun v => decide (v < n)) = under px n := by
    simp only [under, List.filter_filter]
    refine List.filter_congr fun v _ => ?_
    rw [← Bool.decide_and, decide_eq_decide]
    omega
  have hat : (under px (n + 1)).filter (fun v => !decide (v < n)) = List.replicate (histOf px n) n := by
    rw [histOf, ← List.count, ← List.filter_beq, under, List.filter_filter]
    refine List.filter_congr fun v _ => ?_
    rw [← decide_not, ← Bool.decide_and, beq_eq_decide, decide_eq_decide]
    omega
  have hsplit := List.filter_append_perm (fun v => decide (v < n)) (under px (n + 1))
  rwa [hlow, hat] at hsplit

theorem length_under_succ (px : List Nat) (n : Nat) :
    (under px (n + 1)).length = (under px n).length + histOf px n := by
  rw [← (under_succ_perm px n).length_eq, List.length_append, List.length_replicate]

theorem sum_under_succ (px : List Nat) (n : Nat) :
    (under px (n + 1)).sum = (under px n).sum + n * histOf px n := by
  rw [← (under_succ_perm px n).sum_eq, List.sum_append, List.sum_replicate, smul_eq_mul, Nat.mul_comm]

theorem sum_histOf (px : List Nat) (n : Nat) : ((List.range n).map (histOf px)).sum = (under px n).length := by
  induction n with
  | zero => simp [under_zero]
  | succ n ih => simp [List.range_succ, ih, length_under_succ]

theorem sum_mul_histOf (px : List Nat) (n : Nat) :
    ((List.range n).map fun t => t * histOf px t).sum = (under px n).sum := by
  induction n with
  | zero => simp [under_zero]
  | succ n ih => simp [List.range_succ, ih, sum_under_succ]

theorem filter_le_eq_under (px : List Nat) (t : Nat) : (px.filter fun v => decide (v ≤ t)) = under px (t + 1) := by
  simp only [under, Nat.lt_succ_iff]

/-- `SUM` is the sum of the pixels (R178). -/
theorem graySum_eq_sum {px : List Nat} (hpx : ∀ p ∈ px, p < 256) : graySum px = px.sum := by
  rw [graySum, sum_mul_histOf, under, List.filter_eq_self.mpr fun p hp => decide_eq_true (hpx p hp)]

/-- `cdf[v]` counts the pixels not above `v` (R171). -/
theorem cdfOf_eq_below (px : List Nat) (v : Nat) : cdfOf px v = below px v := by
  rw [cdfOf, sum_histOf, below, filter_le_eq_under]

theorem below_le_length (px : List Nat) (v : Nat) : below px v ≤ px.length := List.length_filter_le _ _

theorem below_mono (px : List Nat) {t u : Nat} (h : t ≤ u) : below px t ≤ below px u :=
  (List.monotone_filter_right px fun _ hv => decide_eq_true ((of_decide_eq_true hv).trans h)).length_le

theorem below_lt_length_iff {px : List Nat} {v : Nat} : below px v < px.length ↔ ∃ p ∈ px, v < p := by
  rw [below, List.length_filter_lt_length_iff_exists]
  simp only [decide_eq_true_eq, not_le]

end Sys2Proof.Proofs
end

section
/-! SUPPORT. `HISTEQ` (R172 to R176): its checks pass, `cdf_min` is `cdf` at the least pixel value, the image is constant
exactly when no pixel is above it, and the remapped value of a pixel is a byte. -/

namespace Sys2Proof.Proofs

open Sys2Proof.Laws Sys2Proof.Machine Sys2Proof.Safety

/-! ### The remapping -/

section
variable {px : List Nat} {vmin v : Nat}

/-- `cdf_min` is reached at the least pixel value (R173). -/
theorem cdfMin_eq_below (hlt : vmin < 256) (hmem : vmin ∈ px) (hleast : ∀ p ∈ px, vmin ≤ p) :
    cdfMin px = below px vmin := by
  have hfind : ((List.range 256).find? fun t => decide (0 < histOf px t)) = some vmin := by
    refine List.find?_range_eq_some.mpr ⟨?_, List.mem_range.mpr hlt, fun t ht => ?_⟩
    · exact decide_eq_true (histOf_pos.mpr hmem)
    · have habsent : ¬ 0 < histOf px t := fun h => absurd (hleast t (histOf_pos.mp h)) (by omega)
      simpa using habsent
  rw [cdfMin, hfind]
  exact cdfOf_eq_below px vmin

theorem isConstant_eq_true_iff (hmin : cdfMin px = below px vmin) :
    isConstant px = true ↔ ∀ p ∈ px, p ≤ vmin := by
  rw [isConstant, hmin, beq_iff_eq, eq_comm, below, List.length_filter_eq_length_iff]
  simp only [decide_eq_true_eq]

theorem isConstant_eq_false (hmin : cdfMin px = below px vmin) (habove : ∃ p ∈ px, vmin < p) :
    isConstant px = false := by
  obtain ⟨p, hp, hlt⟩ := habove
  exact Bool.eq_false_iff.mpr fun h => absurd ((isConstant_eq_true_iff hmin).mp h p hp) (by omega)

theorem equalized_of_constant (h : isConstant px = true) : equalized px v = v := if_pos h

/-- The remapped value in the terms of the pixels, halves up (R174). -/
theorem equalized_eq (hmin : cdfMin px = below px vmin) (h : isConstant px = false) :
    equalized px v = (2 * ((below px v - below px vmin) * 255) + (px.length - below px vmin)) /
      (2 * (px.length - below px vmin)) := by
  simp only [equalized, h, hmin, cdfOf_eq_below, Bool.false_eq_true, if_false]

/-- Every output is a byte (R176 a). -/
theorem equalized_le (hmin : cdfMin px = below px vmin) (habove : ∃ p ∈ px, vmin < p) : equalized px v ≤ 255 := by
  rw [equalized_eq hmin (isConstant_eq_false hmin habove)]
  have hden := below_lt_length_iff.mpr habove
  have hnum := below_le_length px v
  refine Nat.lt_succ_iff.mp ((Nat.div_lt_iff_lt_mul (by omega)).mpr ?_)
  omega

end

/-! ### Completion -/

theorem histeqFootprint_passes {inp : View} {outAddr : Word} (hinp : Nonzero inp) (hd : inp.d = 1)
    (hinRange : InRange .u8 inp.addr (count inp)) (houtRange : InRange .u8 outAddr (count inp))
    (hapart : Apart outAddr.toNat (count inp) inp.addr.toNat (count inp)) :
    (histeqFootprint inp { inp with addr := outAddr }).cause = none := by
  obtain ⟨hw, hh, -⟩ := hinp
  rw [histeqFootprint_cause, preflight_none]
  refine ⟨?_, ?_, ?_, ?_, ?_⟩
  · simp [viewDims, hw.ne', hh.ne', hd]
  · simp [hd]
  · simp [viewBuffer]
  · simpa [viewBuffer] using ⟨hinRange, houtRange⟩
  · rw [← Nat.one_mul (count inp)] at hapart
    exact List.forall_mem_singleton.mpr (overlaps_false.mpr hapart)

theorem histeqWork_stores_eq_byteCells {inp out : View} (m : Memory) (hd : inp.d = 1) :
    (histeqWork inp out m).stores = byteCells out.addr (count inp) fun i =>
      BitVec.ofNat 8 (equalized (pixelsOf m inp) (byte m inp.addr i)) := by
  rw [histeqWork_stores, grayPixels_eq m hd, count_of_gray hd]
  simp only [byteCells, elemAddr_u8]

/-- `HISTEQ` completes, with `DEGEN` exactly for a constant image, and leaves the remapped pixels (R174, R175). -/
theorem exec_histeq {inp out : View} {s : State} (hm : Memory.wf s.mem = true) (hinp : Nonzero inp) (hw : out.w = inp.w)
    (hh : out.h = inp.h) (hdepth : out.d = inp.d) (hd : inp.d = 1) (hinRange : InRange .u8 inp.addr (count inp))
    (houtRange : InRange .u8 out.addr (count inp))
    (hapart : Apart out.addr.toNat (count inp) inp.addr.toNat (count inp))
    (hread : Answered s .read .u8 inp.addr (count inp)) (hwrite : Answered s .write .u8 out.addr (count inp)) :
    ∃ t, exec (.histeq inp out) s = .next t ∧ (isConstant (pixelsOf s.mem inp) = false → Completed s t) ∧
      (isConstant (pixelsOf s.mem inp) = true → CompletedDegen s t) ∧ SameOutside s t out.addr (count inp) ∧
      ∀ i < count inp, byte t.mem out.addr i = equalized (pixelsOf s.mem inp) (byte s.mem inp.addr i) % 256 := by
  obtain ⟨a, rfl⟩ := exists_readdressed hw hh hdepth
  obtain ⟨t, hexec, hplain, hdegen, hsame, hbytes⟩ :=
    exec_completes_bytes (i := .histeq inp { inp with addr := a }) hm rfl
      (histeqFootprint_passes hinp hd hinRange houtRange hapart)
      (List.forall_mem_append.mpr ⟨answered_viewAccesses hread, answered_viewAccesses hwrite⟩)
      (List.forall_mem_nil _) (histeqWork_stores_eq_byteCells s.mem hd)
  rw [histeqWork_degen, grayPixels_eq s.mem hd] at hplain hdegen
  refine ⟨t, hexec, hplain, hdegen, hsame, fun i hi => ?_⟩
  rw [byte, hbytes i hi, BitVec.toNat_ofNat]

/-- Counting pixels is counting their offsets. -/
theorem below_pixelsOf (m : Memory) (v : View) (t : Nat) :
    below (pixelsOf m v) t = ((List.range (count v)).filter fun i => decide (byte m v.addr i ≤ t)).length := by
  rw [below, pixelsOf, List.filter_map, List.length_map]
  rfl

/-- Settles O39: the least pixel value gives `cdf_min`, and a pixel above it makes the image not constant. -/
theorem histeqCompletes : Obligations.HisteqCompletes := by
  intro inp out s vmin hm hinp hw hh hdepth hd hinRange houtRange hapart hread hwrite hattained hleast hother
  obtain ⟨t, hexec, hplain, -, hsame, hbytes⟩ :=
    exec_histeq hm hinp hw hh hdepth hd hinRange houtRange hapart hread hwrite
  have hmem := mem_pixelsOf.mpr hattained
  have hmin := cdfMin_eq_below (pixelsOf_lt _ _ _ hmem) hmem (forall_mem_pixelsOf.mpr hleast)
  have habove : ∃ p ∈ pixelsOf s.mem inp, vmin < p := by
    obtain ⟨i, hi, hne⟩ := hother
    exact ⟨_, mem_pixelsOf.mpr ⟨i, hi, rfl⟩, lt_of_le_of_ne (hleast i hi) hne.symm⟩
  have hconst := isConstant_eq_false hmin habove
  refine ⟨t, hexec, hplain hconst, hsame, ?_⟩
  intro cdf den i hi
  calc byte t.mem out.addr i
      = equalized (pixelsOf s.mem inp) (byte s.mem inp.addr i) % 256 := hbytes i hi
    _ = equalized (pixelsOf s.mem inp) (byte s.mem inp.addr i) :=
        Nat.mod_eq_of_lt (Nat.lt_succ_iff.mpr (equalized_le hmin habove))
    _ = (2 * ((cdf (byte s.mem inp.addr i) - cdf vmin) * 255) + den) / (2 * den) := by
        rw [equalized_eq hmin hconst, length_pixelsOf, below_pixelsOf, below_pixelsOf]

/-- Settles O40: in a constant image the one value is the least, and a pixel is remapped to itself. -/
theorem histeqConstantIsDegenerate : Obligations.HisteqConstantIsDegenerate := by
  intro inp out s v hm hinp hw hh hdepth hd hinRange houtRange hapart hread hwrite hall
  obtain ⟨t, hexec, -, hdegen, hsame, hbytes⟩ :=
    exec_histeq hm hinp hw hh hdepth hd hinRange houtRange hapart hread hwrite
  have hpos : 0 < count inp := by
    obtain ⟨hw', hh', hd'⟩ := hinp
    exact Nat.mul_pos (Nat.mul_pos hw' hh') hd'
  have hmem : v ∈ pixelsOf s.mem inp := mem_pixelsOf.mpr ⟨0, hpos, hall 0 hpos⟩
  have hmin := cdfMin_eq_below (pixelsOf_lt _ _ _ hmem) hmem (forall_mem_pixelsOf.mpr fun i hi => (hall i hi).ge)
  have hconst := (isConstant_eq_true_iff hmin).mpr (forall_mem_pixelsOf.mpr fun i hi => (hall i hi).le)
  refine ⟨t, hexec, hdegen hconst, hsame, fun i hi => ?_⟩
  rw [hbytes i hi, equalized_of_constant hconst]
  exact Nat.mod_eq_of_lt (BitVec.isLt _)

end Sys2Proof.Proofs
end

section
/-! SUPPORT. `OTSU` (R177 to R180): its checks pass, and the scan keeps, of the candidates it has passed, the highest of
greatest objective. -/

namespace Sys2Proof.Proofs

open Sys2Proof.Laws Sys2Proof.Machine Sys2Proof.Safety

section
variable {px : List Nat} {t u level num den k : Nat}

/-! ### The objective -/

/-- The objective of a candidate as a rational (R178). -/
def objective (px : List Nat) (t : Nat) : ℚ := objNum px t / objDen px t

theorem objDen_pos (h : Candidate px t) : 0 < objDen px t := by
  obtain ⟨hlow, hhigh⟩ := h
  exact Int.mul_pos (by omega) (by omega)

/-- Cross-multiplication compares the objectives of candidates. -/
theorem objLe_iff (ht : Candidate px t) (hu : Candidate px u) : ObjLe px t u ↔ objective px t ≤ objective px u := by
  have htpos : (0 : ℚ) < objDen px t := Int.cast_pos.mpr (objDen_pos ht)
  have hupos : (0 : ℚ) < objDen px u := Int.cast_pos.mpr (objDen_pos hu)
  rw [objective, objective, div_le_div_iff₀ htpos hupos]
  exact_mod_cast Iff.rfl

theorem below_eq (px : List Nat) (t : Nat) : below px t = (under px t).length + histOf px t := by
  rw [below, filter_le_eq_under, length_under_succ]

theorem sumBelow_eq (px : List Nat) (t : Nat) : sumBelow px t = (under px t).sum + t * histOf px t := by
  rw [sumBelow, filter_le_eq_under, sum_under_succ]

theorem cast_otsuNum (px : List Nat) (t : Nat) :
    (otsuNum px.length px.sum (below px t) (sumBelow px t) : Int) = objNum px t :=
  Int.natAbs_of_nonneg (sq_nonneg _)

theorem cast_otsuDen (px : List Nat) (t : Nat) :
    ((below px t * (px.length - below px t) : Nat) : Int) = objDen px t := by
  rw [Nat.cast_mul, Nat.cast_sub (below_le_length px t)]

/-! ### The scan -/

/-- The scan of `k` candidates from `t` upward, over the pixels below `t` (R178). -/
def scanFrom (px : List Nat) (t k bestNum bestDen level : Nat) : Nat :=
  otsuScan px px.length px.sum (List.range' t k) (under px t).length (under px t).sum bestNum bestDen level

theorem otsuLevel_eq_scanFrom (hpx : ∀ p ∈ px, p < 256) : otsuLevel px = scanFrom px 0 256 0 1 0 := by
  rw [otsuLevel, scanFrom, graySum_eq_sum hpx, under_zero, List.range_eq_range']
  rfl

/-- One turn of the scan: a candidate with nothing at or below it is skipped, one with nothing above it stops the scan,
and any other replaces the best unless its objective is less (R178). -/
theorem scanFrom_succ : scanFrom px t (k + 1) num den level =
    if below px t = 0 then scanFrom px (t + 1) k num den level
    else if px.length - below px t = 0 then level
    else
      let num' := otsuNum px.length px.sum (below px t) (sumBelow px t)
      let den' := below px t * (px.length - below px t)
      if num * den' ≤ num' * den then scanFrom px (t + 1) k num' den' t else scanFrom px (t + 1) k num den level := by
  have hsum (hskip : below px t = 0) : (under px (t + 1)).sum = (under px t).sum := by
    rw [below_eq] at hskip
    rw [sum_under_succ, Nat.eq_zero_of_add_eq_zero_left hskip, Nat.mul_zero, Nat.add_zero]
  rw [scanFrom, List.range'_succ, otsuScan, ← below_eq, ← sumBelow_eq]
  by_cases hskip : below px t = 0
  · rw [if_pos hskip, if_pos hskip, scanFrom, hsum hskip, length_under_succ, ← below_eq]
  · rw [if_neg hskip, if_neg hskip]
    simp only [scanFrom, length_under_succ, sum_under_succ, ← below_eq, ← sumBelow_eq]

/-- `level` is, of the candidates below `t`, the highest that no other exceeds. -/
def Highest (px : List Nat) (t level : Nat) : Prop :=
  Candidate px level ∧ ∀ u < t, Candidate px u → ObjLe px u level ∧ (ObjLe px level u → u ≤ level)

/-- No value below `t` is a candidate. -/
def NoneBelow (px : List Nat) (t : Nat) : Prop := ∀ u < t, ¬ Candidate px u

/-- What the scan selects from the candidates below `t`: the highest of greatest objective, or 0 where there is none. -/
def Selected (px : List Nat) (t level : Nat) : Prop := Highest px t level ∨ (NoneBelow px t ∧ level = 0)

/-- What the scan holds before candidate `t`: the level selected, with its objective, or an objective of zero. -/
def ScanState (px : List Nat) (t num den level : Nat) : Prop :=
  (Highest px t level ∧ (num : Int) = objNum px level ∧ (den : Int) = objDen px level) ∨
    (NoneBelow px t ∧ num = 0 ∧ den = 1 ∧ level = 0)

theorem selected_of_scanState (h : ScanState px t num den level) : Selected px t level := by
  rcases h with ⟨hbest, -, -⟩ | ⟨hnone, -, -, hlevel⟩
  · exact .inl hbest
  · exact .inr ⟨hnone, hlevel⟩

theorem highest_succ_of_not_candidate (h : Highest px t level) (ht : ¬ Candidate px t) : Highest px (t + 1) level := by
  obtain ⟨hlevel, hbest⟩ := h
  refine ⟨hlevel, fun u hu hcand => hbest u (lt_of_le_of_ne (Nat.lt_succ_iff.mp hu) ?_) hcand⟩
  rintro rfl
  exact ht hcand

theorem noneBelow_succ (h : NoneBelow px t) (ht : ¬ Candidate px t) : NoneBelow px (t + 1) := by
  intro u hu
  rcases Nat.lt_succ_iff_lt_or_eq.mp hu with hlt | rfl
  · exact h u hlt
  · exact ht

/-- A value that is no candidate changes nothing. -/
theorem scanState_skip (h : ScanState px t num den level) (ht : ¬ Candidate px t) :
    ScanState px (t + 1) num den level := by
  rcases h with ⟨hbest, hvalue⟩ | ⟨hnone, hzero⟩
  · exact .inl ⟨highest_succ_of_not_candidate hbest ht, hvalue⟩
  · exact .inr ⟨noneBelow_succ hnone ht, hzero⟩

/-- A candidate whose objective is not below the best so far becomes the highest of greatest objective (R179). -/
theorem highest_succ_of_objLe (h : Highest px t level) (ht : Candidate px t) (hle : ObjLe px level t) :
    Highest px (t + 1) t := by
  obtain ⟨hlevel, hbest⟩ := h
  refine ⟨ht, fun u hu hcand => ⟨?_, fun _ => Nat.lt_succ_iff.mp hu⟩⟩
  rcases Nat.lt_succ_iff_lt_or_eq.mp hu with hlt | rfl
  · obtain ⟨hule, -⟩ := hbest u hlt hcand
    exact (objLe_iff hcand ht).mpr (((objLe_iff hcand hlevel).mp hule).trans ((objLe_iff hlevel ht).mp hle))
  · exact le_rfl

theorem highest_succ_of_noneBelow (h : NoneBelow px t) (ht : Candidate px t) : Highest px (t + 1) t := by
  refine ⟨ht, fun u hu hcand => ?_⟩
  rcases Nat.lt_succ_iff_lt_or_eq.mp hu with hlt | rfl
  · exact absurd hcand (h u hlt)
  · exact ⟨le_rfl, fun _ => le_rfl⟩

/-- A candidate of lesser objective leaves the best as it is. -/
theorem highest_succ_of_not_objLe (h : Highest px t level) (hlt : ¬ ObjLe px level t) : Highest px (t + 1) level := by
  obtain ⟨hlevel, hbest⟩ := h
  refine ⟨hlevel, fun u hu hcand => ?_⟩
  rcases Nat.lt_succ_iff_lt_or_eq.mp hu with hbefore | rfl
  · exact hbest u hbefore hcand
  · exact ⟨(not_le.mp hlt).le, fun hle => absurd hle hlt⟩

/-- The comparison of the scan is that of the objectives, and the first candidate always passes it. -/
theorem scanState_step (h : ScanState px t num den level) (ht : Candidate px t) {num' den' : Nat}
    (hnum : (num' : Int) = objNum px t) (hden : (den' : Int) = objDen px t) :
    if num * den' ≤ num' * den then ScanState px (t + 1) num' den' t else ScanState px (t + 1) num den level := by
  rcases h with ⟨hbest, hbestNum, hbestDen⟩ | ⟨hnone, rfl, rfl, rfl⟩
  · have hcompare : num * den' ≤ num' * den ↔ ObjLe px level t := by
      rw [ObjLe, ← hbestNum, ← hbestDen, ← hnum, ← hden]
      exact_mod_cast Iff.rfl
    split_ifs with hle
    · exact .inl ⟨highest_succ_of_objLe hbest ht (hcompare.mp hle), hnum, hden⟩
    · exact .inl ⟨highest_succ_of_not_objLe hbest (mt hcompare.mpr hle), hbestNum, hbestDen⟩
  · rw [if_pos (by simp)]
    exact .inl ⟨highest_succ_of_noneBelow hnone ht, hnum, hden⟩

/-- Where no pixel is above `t`, no value from `t` up is a candidate, so the selection is final. -/
theorem selected_of_no_pixel_above (h : Selected px t level) (hlast : px.length ≤ below px t) (n : Nat) :
    Selected px n level := by
  have hbefore {u : Nat} (hu : Candidate px u) : u < t := by
    obtain ⟨-, habove⟩ := hu
    by_contra hge
    exact absurd (below_mono px (not_lt.mp hge)) (by omega)
  rcases h with ⟨hlevel, hbest⟩ | ⟨hnone, hzero⟩
  · exact .inl ⟨hlevel, fun u _ hu => hbest u (hbefore hu) hu⟩
  · exact .inr ⟨fun u _ hu => hnone u (hbefore hu) hu, hzero⟩

theorem selected_scanFrom (h : ScanState px t num den level) : Selected px (t + k) (scanFrom px t k num den level) := by
  induction k generalizing t num den level with
  | zero => exact selected_of_scanState h
  | succ k ih =>
    rw [scanFrom_succ, ← Nat.add_assoc, Nat.add_right_comm]
    by_cases hskip : below px t = 0
    · rw [if_pos hskip]
      exact ih (scanState_skip h fun ⟨hlow, _⟩ => hlow.ne' hskip)
    rw [if_neg hskip]
    by_cases hstop : px.length - below px t = 0
    · rw [if_pos hstop]
      exact selected_of_no_pixel_above (selected_of_scanState h) (Nat.sub_eq_zero_iff_le.mp hstop) _
    rw [if_neg hstop]
    have hstep := scanState_step h ⟨by omega, by omega⟩ (cast_otsuNum px t) (cast_otsuDen px t)
    dsimp only
    split_ifs at hstep ⊢ <;> exact ih hstep

theorem candidate_lt (hpx : ∀ p ∈ px, p < 256) (h : Candidate px t) : t < 256 := by
  obtain ⟨-, habove⟩ := h
  obtain ⟨p, hp, hlt⟩ := below_lt_length_iff.mp habove
  exact hlt.trans (hpx p hp)

/-- The level is a byte: a candidate, or 0 (R178). -/
theorem selected_lt (hpx : ∀ p ∈ px, p < 256) (h : Selected px t level) : level < 256 := by
  rcases h with ⟨hcand, -⟩ | ⟨-, rfl⟩
  · exact candidate_lt hpx hcand
  · decide

theorem selected_otsuLevel (hpx : ∀ p ∈ px, p < 256) : Selected px 256 (otsuLevel px) := by
  rw [otsuLevel_eq_scanFrom hpx]
  exact selected_scanFrom (t := 0) (k := 256) (.inr ⟨fun _ hu => absurd hu (Nat.not_lt_zero _), rfl, rfl, rfl⟩)

end

/-! ### Completion -/

theorem otsuFootprint_passes {inp : View} {raddr : Word} (hinp : Nonzero inp) (hd : inp.d = 1)
    (hinRange : InRange .u8 inp.addr (count inp)) (hapart : Apart raddr.toNat 1 inp.addr.toNat (count inp)) :
    (otsuFootprint inp raddr).cause = none := by
  obtain ⟨hw, hh, -⟩ := hinp
  rw [otsuFootprint_cause, preflight_none]
  refine ⟨?_, ?_, ?_, ?_, ?_⟩
  · simp [viewDims, hw.ne', hh.ne', hd]
  · simp [hd]
  · simp [viewBuffer, vectorBuffer]
  · have hout : raddr.toNat + 1 ≤ 2 ^ 32 := raddr.isLt
    simpa [viewBuffer, vectorBuffer] using ⟨hinRange, hout⟩
  · rw [← Nat.one_mul (count inp)] at hapart
    exact List.forall_mem_singleton.mpr (overlaps_false.mpr hapart)

theorem otsuWork_stores_eq_byteCells {inp : View} (raddr : Word) (m : Memory) (hd : inp.d = 1) :
    (otsuWork inp raddr m).stores = byteCells raddr 1 fun _ => BitVec.ofNat 8 (otsuLevel (pixelsOf m inp)) := by
  rw [otsuWork_stores, grayPixels_eq m hd]
  rfl

/-- Settles O41: the scan selects from the candidates below 256, which are all there are. -/
theorem otsuCompletes : Obligations.OtsuCompletes := by
  intro inp raddr s hm hinp hd hinRange hapart hread hwrite
  obtain ⟨t, hexec, hplain, -, hsame, hbyte⟩ :=
    exec_completes_bytes (i := .otsu inp raddr) hm rfl
      (otsuFootprint_passes hinp hd hinRange hapart)
      (List.forall_mem_append.mpr ⟨answered_viewAccesses hread, answered_bufferAccesses hwrite⟩)
      (List.forall_mem_nil _) (otsuWork_stores_eq_byteCells raddr s.mem hd)
  refine ⟨t, hexec, hplain rfl, hsame, ?_⟩
  intro px level
  have hpx : ∀ p ∈ px, p < 256 := pixelsOf_lt s.mem inp
  have hselected := selected_otsuLevel hpx
  have hlevel : level = otsuLevel px := by
    calc level = (BitVec.ofNat 8 (otsuLevel px)).toNat := congrArg BitVec.toNat (hbyte 0 Nat.one_pos)
      _ = otsuLevel px % 256 := BitVec.toNat_ofNat _ _
      _ = otsuLevel px := Nat.mod_eq_of_lt (selected_lt hpx hselected)
  rw [hlevel]
  rcases hselected with ⟨hcand, hbest⟩ | ⟨hnone, hzero⟩
  · exact ⟨fun _ => ⟨hcand, fun u hu => hbest u (candidate_lt hpx hu) hu⟩, fun h => absurd hcand (h _)⟩
  · exact ⟨fun ⟨u, hu⟩ => absurd hu (hnone u (candidate_lt hpx hu)), fun _ => hzero⟩

end Sys2Proof.Proofs
end

section
/-! SUPPORT. The checks of a command, as the tables of R203 to R208 say them (R211): each table names what the machine checks,
so a command executes exactly when `ChecksPass`, and the extents it then has are its output buffer. -/

namespace Sys2Proof.Proofs

open Sys2Proof.Laws Sys2Proof.Machine Sys2Proof.Safety

/-! ### The machine's checks, from the tables -/

/-- A row of the table of buffers, as the machine's checks see it. -/
def bufferOfRow (b : Nat × Word × Nat × Nat) : Buffer := ⟨b.1, b.2.1.toNat, b.2.2.1, decide (b.2.2.2 = 4)⟩

/-- The shape relations of each command with their sub-codes (R205). -/
def shapeRelations : Instr → List (Nat × Bool)
  | .endCmd => []
  | .jump _ => []
  | .nop => []
  | .bsamp _ _ _ _ _ => []
  | .affine _ inp out _ _ _ _ _ _ => [(3, inp.d == out.d)]
  | .croprs _ inp out _ _ _ _ => [(3, inp.d == out.d)]
  | .conv2d inp filt out =>
      [(1, decide ((out.w : Int) = inp.w - filt.fw + 1)), (2, decide ((out.h : Int) = inp.h - filt.fh + 1)),
        (4, filt.ci == inp.d), (5, filt.co == out.d)]
  | .addbias _ _ => []
  | .relu inp out => sameShape inp out
  | .biasrelu inp _ out => sameShape inp out
  | .maxpool2 inp out => [(1, out.w == inp.w / 2), (2, out.h == inp.h / 2), (3, out.d == inp.d)]
  | .softmax _ _ _ => []
  | .histeq inp out => [(1, out.w == inp.w), (2, out.h == inp.h), (3, out.d == inp.d), (6, inp.d == 1)]
  | .otsu inp _ => [(6, inp.d == 1)]

/-- The rows of a command's output buffer (R208). -/
def outputRows (i : Instr) : List (Nat × Word × Nat × Nat) := (buffers i).filter fun b => b.1 == outputId i

/-- The rows of the inputs the output is checked against (R208). -/
def checkedRows (i : Instr) : List (Nat × Word × Nat × Nat) := (buffers i).filter fun b => (checkedInputs i).contains b.1

/-- The pairs (output, input) whose overlap is checked (R208). -/
def overlapPairs (i : Instr) : List (Buffer × Buffer) :=
  (outputRows i).flatMap fun o => (checkedRows i).map fun b => (bufferOfRow o, bufferOfRow b)

theorem bufferOfRow_bytes (id : Nat) (v : View) : bufferOfRow (id, v.addr, count v, 1) = viewBuffer id .u8 v := by
  simp [bufferOfRow, viewBuffer, viewCount, esize]

/-- The machine's checks of a command are those of its rows in the tables, in the order of R211; `JUMP` alone has a check of
its own. -/
theorem footprint_cause_eq {i : Instr} (h : ∀ target, i ≠ .jump target) :
    (footprint i).cause =
      preflight (dimFields i) (shapeRelations i) ((buffers i).map bufferOfRow) (overlapPairs i) := by
  cases i with
  | jump target => exact absurd rfl (h target)
  | endCmd | nop | conv2d | addbias | relu | maxpool2 | softmax => rfl
  | bsamp et | affine et | croprs et => cases et <;> rfl
  | biasrelu inp baddr out =>
    have hinputs : checkedInputs (.biasrelu inp baddr out) = if out.addr = inp.addr then [2] else [0, 2] := rfl
    rw [footprint, biasreluFootprint_cause, overlapPairs, checkedRows, hinputs]
    split_ifs <;> rfl
  | histeq inp out =>
    simp only [footprint, histeqFootprint_cause, ← bufferOfRow_bytes]
    rfl
  | otsu inp raddr =>
    simp only [footprint, otsuFootprint_cause, ← bufferOfRow_bytes]
    rfl

/-- The output extents of a command are those of its output rows. -/
theorem footprint_outs_eq (i : Instr) : (footprint i).outs = (outputRows i).map fun o => extentOf (bufferOfRow o) := by
  cases i with
  | histeq inp out =>
    simp only [footprint, histeqFootprint_outs, ← bufferOfRow_bytes]
    rfl
  | _ => rfl

/-! ### The checks pass -/

theorem not_zeroDim_iff {i : Instr} : (∀ k, ¬ ZeroDim i k) ↔ ∀ p ∈ dimFields i, p.2 ≠ 0 := by
  refine ⟨fun h p hp hzero => h p.1 ?_, fun h k hk => h _ hk rfl⟩
  rwa [ZeroDim, ← hzero]

/-- A sub-code's relation fails exactly where it is listed as false (R205). -/
theorem shapeFails_iff {i : Instr} {sub : Nat} : ShapeFails i sub ↔ (sub, false) ∈ shapeRelations i := by
  cases i with
  | affine _ inp out | croprs _ inp out => simp [ShapeFails, shapeRelations, eq_comm (a := out.d)]
  | _ => simp [ShapeFails, shapeRelations, sameShape]

theorem not_shapeFails_iff {i : Instr} : (∀ sub, ¬ ShapeFails i sub) ↔ ∀ p ∈ shapeRelations i, p.2 = true := by
  simp only [shapeFails_iff, Prod.forall, Bool.forall_bool]
  simp

/-- Elements are bytes or words (R12). -/
theorem elementSize_of_mem_buffers {i : Instr} : ∀ b ∈ buffers i, b.2.2.2 = 1 ∨ b.2.2.2 = 4 := by
  cases i with
  | bsamp et | affine et | croprs et => cases et <;> simp [buffers, esize]
  | _ => simp [buffers]

/-- But for a `JUMP`, alignment is asked of binary32 buffers alone, and is to 4 (R206). -/
theorem not_badAlign_iff {i : Instr} (h : ∀ target, i ≠ .jump target) :
    (∀ id, ¬ BadAlign i id) ↔ ∀ b ∈ (buffers i).map bufferOfRow, b.isF32 = true → b.base % 4 = 0 := by
  have hrow : ∀ b ∈ buffers i, b.2.1.toNat % b.2.2.2 = 0 ↔ ((bufferOfRow b).isF32 = true → (bufferOfRow b).base % 4 = 0) := by
    intro b hb
    rcases elementSize_of_mem_buffers b hb with hsize | hsize <;> simp [bufferOfRow, hsize, Nat.mod_one]
  have halign : ∀ id, BadAlign i id ↔ ∃ b ∈ buffers i, b.1 = id ∧ b.2.1.toNat % b.2.2.2 ≠ 0 := by
    intro id
    cases i with
    | jump target => exact absurd rfl (h target)
    | _ => exact iff_of_eq (or_false _)
  rw [List.forall_mem_map]
  constructor
  · intro hpass b hb
    exact (hrow b hb).mp (of_not_not fun hbad => hpass b.1 ((halign _).mpr ⟨b, hb, rfl, hbad⟩))
  · intro hpass id hbad
    obtain ⟨b, hb, -, hmis⟩ := (halign id).mp hbad
    exact hmis ((hrow b hb).mpr (hpass b hb))

theorem not_badRange_iff {i : Instr} :
    (∀ id, ¬ BadRange i id) ↔ ∀ b ∈ (buffers i).map bufferOfRow, b.base + b.size ≤ 2 ^ 32 := by
  rw [List.forall_mem_map]
  constructor
  · intro hpass b hb
    exact not_lt.mp fun hlt => hpass b.1 ⟨b, hb, rfl, hlt⟩
  · rintro hpass id ⟨b, hb, -, hlt⟩
    exact not_lt.mpr (hpass b hb) hlt

theorem mem_overlapPairs {i : Instr} {p : Buffer × Buffer} : p ∈ overlapPairs i ↔
    ∃ o ∈ buffers i, ∃ b ∈ buffers i, o.1 = outputId i ∧ b.1 ∈ checkedInputs i ∧ p = (bufferOfRow o, bufferOfRow b) := by
  simp only [overlapPairs, outputRows, checkedRows, List.mem_flatMap, List.mem_map, List.mem_filter, beq_iff_eq,
    List.contains_iff_mem]
  constructor
  · rintro ⟨o, ⟨ho, hout⟩, b, ⟨hb, hin⟩, rfl⟩
    exact ⟨o, ho, b, hb, hout, hin, rfl⟩
  · rintro ⟨o, ho, b, hb, hout, hin, rfl⟩
    exact ⟨o, ⟨ho, hout⟩, b, ⟨hb, hin⟩, rfl⟩

theorem not_badOverlap_iff {i : Instr} :
    (∀ id, ¬ BadOverlap i id) ↔ ∀ p ∈ overlapPairs i, overlaps (extentOf p.1) (extentOf p.2) = false := by
  constructor
  · intro hpass p hp
    obtain ⟨o, ho, b, hb, hout, hin, rfl⟩ := mem_overlapPairs.mp hp
    exact overlaps_false.mpr (of_not_not fun hmeet => hpass b.1 ⟨hin, o, ho, b, hb, hout, rfl, hmeet⟩)
  · rintro hpass id ⟨hin, o, ho, b, hb, hout, rfl, hmeet⟩
    exact hmeet (overlaps_false.mp (hpass _ (mem_overlapPairs.mpr ⟨o, ho, b, hb, hout, hin, rfl⟩)))

/-- The machine's checks report nothing exactly when no check of the tables fails (R211). -/
theorem footprint_cause_eq_none {i : Instr} : (footprint i).cause = none ↔ ChecksPass i := by
  by_cases h : ∀ target, i ≠ .jump target
  · rw [footprint_cause_eq h, preflight_none, ChecksPass, not_zeroDim_iff, not_shapeFails_iff, not_badAlign_iff h,
      not_badRange_iff, not_badOverlap_iff]
  · push Not at h
    obtain ⟨target, rfl⟩ := h
    simp [footprint, jumpFootprint, ChecksPass, ZeroDim, dimFields, buffers, checkedInputs]

/-! ### The extents of a command in execution -/

theorem inExtents_outs_iff {i : Instr} {a : Nat} : inExtents (footprint i).outs a = true ↔ InOutput i a := by
  simp [footprint_outs_eq, outputRows, inExtents, inExtent, extentOf, bufferOfRow, InOutput]

/-- The bytes that are the engine's while a command executes: those of its output, once its checks have passed (R74, R210). -/
theorem inExtents_live_iff {i : Instr} {a : Nat} :
    inExtents (liveFootprint (footprint i)).outs a = true ↔ ChecksPass i ∧ InOutput i a := by
  rw [← footprint_cause_eq_none, ← inExtents_outs_iff, liveFootprint]
  cases (footprint i).cause with
  | none => simp
  | some c => simp [noFootprint, inExtents]

end Sys2Proof.Proofs
end

section
/-! SUPPORT. The steps that 46_control.md and R186 describe (R186 to R189): the honoured stop, the denied fetch, the command
step with no host event inside it, and the sequencer's own commands; the statements on them. -/

namespace Sys2Proof.Proofs

open Sys2Proof.Laws Sys2Proof.Machine Sys2Proof.Safety

/-! ### The sequencer's commands -/

/-- Settles O20: `NOP` is its completion. -/
theorem nopCompletes : Obligations.NopCompletes := fun _ => rfl

/-- Settles O21: `END` is its completion and the end of the run. -/
theorem endCompletes : Obligations.EndCompletes := fun _ => rfl

theorem exec_jump (target : Word) (s : State) : exec (.jump target) s =
    if target.toNat % 64 = 0 then .next (complete target s) else .next (takeFault (.misaligned 3) s) := by
  rw [exec, execJump, jumpFootprint]
  split_ifs <;> rfl

/-- Settles O22: the target's alignment decides between completion and fault. -/
theorem jumpGoesToTarget : Obligations.JumpGoesToTarget := by
  intro target s
  rw [exec_jump]
  refine ⟨fun haligned => ?_, fun hmisaligned => ?_⟩
  · rw [if_pos haligned]
    rfl
  · rw [if_neg hmisaligned]
    rfl

/-! ### Stop requests and denied fetches -/

/-- Settles O9: the honoured stop is the whole of the engine's turn. -/
theorem stepHonoursStop : Obligations.StepHonoursStop := by
  intro s rest hrun hr hs hq
  rw [step_of_quietTurn hq]
  exact engineStep_stop hrun hr hs

theorem fetchDenied_iff {s : State} :
    fetchDenied s = true ↔ ∃ k < 16, isDenied s ⟨.fetch, 4, s.cp.toNat + 4 * k⟩ = true := by
  simp [fetchDenied, fetchAddr]

/-- The turn of a running engine whose fetch is denied is the fault entry, and nothing is latched (R24, R209). -/
theorem engineStep_fetchDenied {s : State} (hrun : s.engine = .run) (hr : s.resetPin = false) (hs : s.stopReq = false)
    (h : fetchDenied s = true) : engineStep [] [] s = .next (takeFault (.busError s.cp) s) := by
  rw [engineStep_noEvents hrun hr hs, commandEvent, fetchedState, if_pos h, if_pos h]

/-- Settles O8: one denied word denies the fetch. -/
theorem stepFaultsFetchBusError : Obligations.StepFaultsFetchBusError := by
  intro s rest hrun hr hs hq hdenied
  rw [step_of_quietTurn hq]
  exact engineStep_fetchDenied (s := { s with schedule := rest }) hrun hr hs (fetchDenied_iff.mpr hdenied)

/-! ### The command step -/

theorem wordUnordered_eq_false_iff {s : State} {k : Nat} :
    wordUnordered s k = false ↔ ∀ j < 4, s.cp.toNat + 4 * k + j ∉ s.unordered := by
  simp [wordUnordered, fetchAddr]

/-- What a fetch reads with no host write before its event is what it may read: each word that nothing races with is
memory's (R78, R186 step 2). -/
theorem mayFetch_fetchDesc (s : State) : MayFetch s (fetchDesc [] s s) := by
  intro k hk hordered
  rw [fetchDesc, descWord_descOfFn _ k hk, fetchWord_nil, wordUnordered_eq_false_iff.mpr hordered,
    if_neg Bool.false_ne_true, fetchAddr]

/-- A descriptor no byte of which is unordered takes no free value to fetch. -/
theorem fetchDraws_of_fetchedAt {s : State} {d : Desc} (h : FetchedAt s d) : fetchDraws [] s s = s := by
  obtain ⟨hordered, -⟩ := h
  refine fetchDraws_nil fun k hk => wordUnordered_eq_false_iff.mpr fun j hj => ?_
  rw [Nat.add_assoc]
  exact hordered _ (by omega)

/-- What a command writes is the engine's for later fetches; no other unordered write becomes ordered (R74, R80). -/
theorem stillUnordered_ordered (i : Instr) (s : State) :
    StillUnordered i s (ordered (liveFootprint (footprint i)).outs [] s).unordered := by
  intro a
  rw [ordered_unordered, List.mem_filter, ← inExtents_live_iff]
  simp

section
variable {s : State} {n : Nat} (hrun : s.engine = .run) (hr : s.resetPin = false) (hs : s.stopReq = false)
  (hanswered : FetchAnswered s) (hn : fetchDraws [] s s = { s with draws := n })
include hrun hr hs hanswered hn

/-- The turn at a descriptor that decodes is its command, with the latches loaded (R186 steps 2 to 6). -/
theorem engineStep_decoded {i : Instr} (hdec : decode (fetchDesc [] s s) = .ok i) :
    ∃ l, StillUnordered i s l ∧
      engineStep [] [] s = exec i { s with d := fetchDesc [] s s, unordered := l, draws := n } := by
  refine ⟨_, stillUnordered_ordered i s, ?_⟩
  rw [engineStep_command hrun hr hs (fetchDenied_eq_false hanswered), hdec, hn]
  rfl

/-- The turn at a descriptor that does not decode is the fault of its decoding, with the latches loaded (R106, R212). -/
theorem engineStep_undecoded {err : DecodeError} (hdec : decode (fetchDesc [] s s) = .error err) :
    engineStep [] [] s =
      .next (takeFault (causeOfDecode err) { s with d := fetchDesc [] s s, draws := n }) := by
  rw [engineStep_command hrun hr hs (fetchDenied_eq_false hanswered), hdec, hn]
  rfl

end

/-- Settles O5: the descriptor is the one the fetch reads; `FetchedAt` names it and leaves the fetch no free value. -/
theorem stepRunsDecodedInstruction : Obligations.StepRunsDecodedInstruction := by
  refine ⟨fun s rest d i ⟨hrun, hr, hs, hq, hanswered⟩ hfetched hdec => ?_,
    fun s rest ⟨hrun, hr, hs, hq, hanswered⟩ => ?_⟩
  all_goals rw [step_of_quietTurn hq]
  · have hdesc := fetchDesc_of_fetchedAt (s := { s with schedule := rest }) hfetched
    have hdraws := fetchDraws_of_fetchedAt (s := { s with schedule := rest }) hfetched
    have hstep := engineStep_decoded (s := { s with schedule := rest }) hrun hr hs hanswered hdraws
      (by rw [hdesc, hdec])
    rwa [hdesc] at hstep
  · obtain ⟨n, hn⟩ := fetchDraws_eq { s with schedule := rest }
    refine ⟨_, n, mayFetch_fetchDesc { s with schedule := rest }, fun i hdec => ?_, fun err hdec => ?_⟩
    · exact engineStep_decoded (s := { s with schedule := rest }) hrun hr hs hanswered hn hdec
    · exact engineStep_undecoded (s := { s with schedule := rest }) hrun hr hs hanswered hn hdec

end Sys2Proof.Proofs
end

section
/-! SUPPORT. The interrupt line (R216) and the faults of decoding (R202, R203); the statements on them. -/

namespace Sys2Proof.Proofs

open Sys2Proof.Laws Sys2Proof.Machine Sys2Proof.Safety

/-! ### The interrupt line -/

/-- Settles O57: the pending and enabled causes are the bits of the conjunction, and its mask leaves bits 2:0. -/
theorem interruptLine : Obligations.InterruptLine := by
  intro s
  have hmask : ∀ k < 32, (7 : Word).getLsbD k = decide (k < 3) := by decide
  rw [irq, decide_eq_true_iff]
  constructor
  · intro hne
    by_contra hnone
    refine hne (BitVec.eq_of_getLsbD_eq fun k hk => ?_)
    have hzero : (0 : Word).getLsbD k = false := BitVec.getLsbD_zero
    rw [BitVec.getLsbD_and, BitVec.getLsbD_and, hmask k hk, hzero, ← Bool.not_eq_true]
    simp only [Bool.and_eq_true, decide_eq_true_eq]
    rintro ⟨⟨hpending, henabled⟩, hlow⟩
    exact hnone ⟨k, hlow, hpending, henabled⟩
  · rintro ⟨k, hlow, hpending, henabled⟩ hzero
    have hbit : (s.intstat &&& s.inten &&& 7).getLsbD k = false := by rw [hzero]; exact BitVec.getLsbD_zero
    rw [BitVec.getLsbD_and, BitVec.getLsbD_and, hpending, henabled, hmask k (by omega), decide_eq_true hlow] at hbit
    cases hbit

/-! ### Faults of decoding -/

/-- The step at a fetched descriptor that does not decode is the fault of its decoding, with the latches loaded (R106,
R212). -/
theorem step_of_decode_error {s : State} {rest : List Move} {d : Desc} {err : DecodeError} (h : AtCommand s rest)
    (hfetched : FetchedAt s d) (hdec : decode d = .error err) :
    step s = .next (takeFault (causeOfDecode err) { s with d := d, schedule := rest }) := by
  obtain ⟨hrun, hr, hs, hq, hanswered⟩ := h
  have hdesc := fetchDesc_of_fetchedAt (s := { s with schedule := rest }) hfetched
  rw [step_of_quietTurn hq, engineStep_undecoded (s := { s with schedule := rest }) hrun hr hs hanswered
    (fetchDraws_of_fetchedAt hfetched) (by rw [hdesc, hdec]), hdesc]

/-- Settles O6: such a descriptor is refused by the decoder with its first word (clause 3 of O3). -/
theorem stepFaultsIllegalOpcode : Obligations.StepFaultsIllegalOpcode := by
  intro s rest d h hfetched hunassigned
  obtain ⟨-, -, hillegal⟩ := decodeFollowsOpcodeTable
  exact step_of_decode_error h hfetched (hillegal d hunassigned)

/-- Settles O7: such a descriptor is refused by the decoder with its lowest word that has a reserved bit set (clause 2 of
O3). -/
theorem stepFaultsReservedField : Obligations.StepFaultsReservedField := by
  intro s rest d h hfetched row hrow hop k hk hset hlow
  obtain ⟨-, hreserved, -⟩ := decodeFollowsOpcodeTable
  exact step_of_decode_error h hfetched (hreserved row hrow d k hop hk hset hlow)

end Sys2Proof.Proofs
end

section
/-! SUPPORT. The faults of the checks (R204 to R208, R211): each check reports the first offender of its table; and the
statements on them. -/

namespace Sys2Proof.Proofs

open Sys2Proof.Laws Sys2Proof.Machine Sys2Proof.Safety

/-! ### The first offender of a check -/

/-- A search of a list that rises in a number finds an element with the least number that any match has. -/
theorem exists_find?_eq_some_of_least {α : Type} {l : List α} {p : α → Bool} {key : α → Nat} {a : α}
    (hrising : l.Pairwise fun x y => key x ≤ key y) (ha : a ∈ l) (hp : p a = true)
    (hleast : ∀ x ∈ l, p x = true → key a ≤ key x) : ∃ b, l.find? p = some b ∧ key b = key a := by
  cases hfind : l.find? p with
  | none => exact absurd hp (List.find?_eq_none.mp hfind a ha)
  | some b =>
    refine ⟨b, rfl, ?_⟩
    have hle := hleast b (List.mem_of_find?_eq_some hfind) (List.find?_some hfind)
    obtain ⟨-, front, back, rfl, hfront⟩ := List.find?_eq_some_iff_append.mp hfind
    rcases List.mem_append.mp ha with hmem | hmem
    · simpa [hp] using hfront a hmem
    rcases List.mem_cons.mp hmem with rfl | hmem
    · rfl
    · obtain ⟨-, hback, -⟩ := List.pairwise_append.mp hrising
      exact le_antisymm ((List.pairwise_cons.mp hback).1 a hmem) hle

/-- A check of this form reports the least number at which its condition fails (R204 to R208). -/
theorem check_reports_least {α : Type} {l : List α} {p : α → Bool} {key : α → Nat} {bad : Nat → Prop} {k : Nat}
    (hrising : l.Pairwise fun x y => key x ≤ key y) (hrow : ∀ j, bad j ↔ ∃ a ∈ l, key a = j ∧ p a = true)
    (report : Nat → Cause) (hbad : bad k) (hleast : ∀ j < k, ¬ bad j) :
    ((l.find? p).map fun a => report (key a)) = some (report k) := by
  obtain ⟨a, ha, rfl, hp⟩ := (hrow k).mp hbad
  obtain ⟨b, hfind, hkey⟩ := exists_find?_eq_some_of_least hrising ha hp
    fun x hx hpx => not_lt.mp fun hlt => hleast _ hlt ((hrow _).mpr ⟨x, hx, rfl, hpx⟩)
  rw [hfind, Option.map_some, hkey]

/-! ### The tables rise in their numbers -/

theorem dimFields_rising (i : Instr) : (dimFields i).Pairwise fun x y => x.1 ≤ y.1 := by
  cases i <;> simp [dimFields]

theorem shapeRelations_rising (i : Instr) : (shapeRelations i).Pairwise fun x y => x.1 ≤ y.1 := by
  cases i <;> simp [shapeRelations, sameShape]

theorem buffers_rising (i : Instr) : (buffers i).Pairwise fun x y => x.1 < y.1 := by
  cases i <;> simp [buffers]

theorem bufferOfRow_rising (i : Instr) : ((buffers i).map bufferOfRow).Pairwise fun x y => x.id ≤ y.id :=
  List.pairwise_map.mpr ((buffers_rising i).imp fun h => h.le)

/-- Ids are unique, so the pairs of one output come in the order of the inputs. -/
theorem overlapPairs_rising (i : Instr) : (overlapPairs i).Pairwise fun x y => x.2.id ≤ y.2.id := by
  have hinputs : (checkedRows i).Pairwise fun x y => x.1 ≤ y.1 := ((buffers_rising i).filter _).imp fun h => h.le
  have houtputs : (outputRows i).Pairwise fun x y => x.1 < y.1 := (buffers_rising i).filter _
  have hid : ∀ o ∈ outputRows i, o.1 = outputId i := fun o ho => by simpa using (List.mem_filter.mp ho).2
  refine List.pairwise_flatMap.mpr ⟨fun o _ => List.pairwise_map.mpr hinputs, houtputs.imp_of_mem fun ha hb hlt => ?_⟩
  rw [hid _ ha, hid _ hb] at hlt
  exact absurd hlt (lt_irrefl _)

/-! ### Each check reports its table's first offender (R204 to R208) -/

section
variable {i : Instr}

theorem dimCheck_dimFields {k : Nat} (hbad : ZeroDim i k) (hleast : ∀ j < k, ¬ ZeroDim i j) :
    dimCheck (dimFields i) = some (.dimZero k) :=
  check_reports_least (dimFields_rising i) (fun j => by simp [ZeroDim]) .dimZero hbad hleast

theorem shapeCheck_shapeRelations {sub : Nat} (hbad : ShapeFails i sub) (hleast : ∀ j < sub, ¬ ShapeFails i j) :
    shapeCheck (shapeRelations i) = some (.shape sub) :=
  check_reports_least (bad := ShapeFails i) (shapeRelations_rising i) (fun j => shapeFails_iff.trans (by simp)) .shape
    hbad hleast

/-- But for a `JUMP`, what is misaligned is a binary32 buffer at no multiple of 4 (R206). -/
theorem badAlign_iff (h : ∀ target, i ≠ .jump target) {id : Nat} : BadAlign i id ↔
    ∃ a ∈ (buffers i).map bufferOfRow, a.id = id ∧ (a.isF32 && a.base % 4 != 0) = true := by
  have htable : BadAlign i id ↔ ∃ b ∈ buffers i, b.1 = id ∧ b.2.1.toNat % b.2.2.2 ≠ 0 := by
    cases i with
    | jump target => exact absurd rfl (h target)
    | _ => exact iff_of_eq (or_false _)
  simp only [htable, List.mem_map, exists_exists_and_eq_and]
  refine exists_congr fun b => and_congr_right fun hb => and_congr_right fun _ => ?_
  rcases elementSize_of_mem_buffers b hb with hsize | hsize <;> simp [bufferOfRow, hsize, Nat.mod_one]

theorem alignCheck_buffers (h : ∀ target, i ≠ .jump target) {id : Nat} (hbad : BadAlign i id)
    (hleast : ∀ j < id, ¬ BadAlign i j) : alignCheck ((buffers i).map bufferOfRow) = some (.misaligned id) :=
  check_reports_least (bufferOfRow_rising i) (fun _ => badAlign_iff h) .misaligned hbad hleast

theorem rangeCheck_buffers {id : Nat} (hbad : BadRange i id) (hleast : ∀ j < id, ¬ BadRange i j) :
    rangeCheck ((buffers i).map bufferOfRow) = some (.addrRange id) :=
  check_reports_least (bufferOfRow_rising i) (fun j => by simp [BadRange, bufferOfRow]) .addrRange hbad hleast

/-- What overlaps is a pair of the table, and its input has the id (R71, R208). -/
theorem badOverlap_iff {id : Nat} : BadOverlap i id ↔
    ∃ p ∈ overlapPairs i, p.2.id = id ∧ overlaps (extentOf p.1) (extentOf p.2) = true := by
  constructor
  · rintro ⟨hin, o, ho, b, hb, hout, rfl, hmeet⟩
    refine ⟨_, mem_overlapPairs.mpr ⟨o, ho, b, hb, hout, hin, rfl⟩, rfl, ?_⟩
    rw [← Bool.not_eq_false]
    exact fun hclear => hmeet (overlaps_false.mp hclear)
  · rintro ⟨p, hp, rfl, hmeet⟩
    obtain ⟨o, ho, b, hb, hout, hin, rfl⟩ := mem_overlapPairs.mp hp
    refine ⟨hin, o, ho, b, hb, hout, rfl, fun hapart => ?_⟩
    rw [← Bool.not_eq_false] at hmeet
    exact hmeet (overlaps_false.mpr hapart)

theorem overlapCheck_overlapPairs {id : Nat} (hbad : BadOverlap i id) (hleast : ∀ j < id, ¬ BadOverlap i j) :
    overlapCheck (overlapPairs i) = some (.overlap id) :=
  check_reports_least (overlapPairs_rising i) (fun _ => badOverlap_iff) .overlap hbad hleast

end

/-! ### A failed check is the command's fault (R210 to R212) -/

/-- A command whose checks report a cause takes that fault and does nothing else. -/
theorem exec_of_cause {i : Instr} {c : Cause} (h : (footprint i).cause = some c) (s : State) :
    exec i s = .next (takeFault c s) := by
  cases i with
  | endCmd | nop => cases h
  | jump target =>
    have hjump : (jumpFootprint target).cause = some c := h
    rw [exec, execJump, hjump]
  | bsamp | affine | croprs | conv2d | addbias | relu | biasrelu | maxpool2 | softmax | histeq | otsu =>
    exact runUnit_faults h

/-- What the first failing check of a command but `JUMP` reports is its fault. -/
theorem exec_of_preflight {i : Instr} {c : Cause} (hjump : ∀ target, i ≠ .jump target)
    (h : preflight (dimFields i) (shapeRelations i) ((buffers i).map bufferOfRow) (overlapPairs i) = some c) (s : State) :
    exec i s = .next (takeFault c s) :=
  exec_of_cause ((footprint_cause_eq hjump).trans h) s

section
variable {i : Instr}

theorem dimCheck_passes (h : ∀ k, ¬ ZeroDim i k) : dimCheck (dimFields i) = none :=
  dimCheck_none.mpr (not_zeroDim_iff.mp h)

theorem shapeCheck_passes (h : ∀ sub, ¬ ShapeFails i sub) : shapeCheck (shapeRelations i) = none :=
  shapeCheck_none.mpr (not_shapeFails_iff.mp h)

theorem alignCheck_passes (hjump : ∀ target, i ≠ .jump target) (h : ∀ id, ¬ BadAlign i id) :
    alignCheck ((buffers i).map bufferOfRow) = none :=
  alignCheck_none.mpr ((not_badAlign_iff hjump).mp h)

theorem rangeCheck_passes (h : ∀ id, ¬ BadRange i id) : rangeCheck ((buffers i).map bufferOfRow) = none :=
  rangeCheck_none.mpr (not_badRange_iff.mp h)

end

/-- Settles O11: the check of dimensions is the first. -/
theorem dimZeroReported : Obligations.DimZeroReported := by
  intro i s k hbad hleast
  have hjump : ∀ target, i ≠ .jump target := by
    rintro target rfl
    cases hbad
  refine exec_of_preflight (c := .dimZero k) hjump ?_ s
  rw [preflight, dimCheck_dimFields hbad hleast]

/-- Settles O12: the check of shapes follows that of dimensions. -/
theorem shapeReported : Obligations.ShapeReported := by
  intro i s sub hdim hbad hleast
  have hjump : ∀ target, i ≠ .jump target := by
    rintro target rfl
    cases shapeFails_iff.mp hbad
  refine exec_of_preflight (c := .shape sub) hjump ?_ s
  rw [preflight, dimCheck_passes hdim, shapeCheck_shapeRelations hbad hleast]

/-- Settles O13: `JUMP` has its target checked alone, by O22; any other command its binary32 buffers, after its shapes. -/
theorem misalignedReported : Obligations.MisalignedReported := by
  intro i s id hdim hshape hbad hleast
  by_cases hjump : ∀ target, i ≠ .jump target
  · refine exec_of_preflight (c := .misaligned id) hjump ?_ s
    rw [preflight, dimCheck_passes hdim, shapeCheck_passes hshape, alignCheck_buffers hjump hbad hleast]
  · push Not at hjump
    obtain ⟨target, rfl⟩ := hjump
    rcases hbad with ⟨b, hb, -⟩ | ⟨rfl, hmisaligned⟩
    · cases hb
    · exact (jumpGoesToTarget target s).2 hmisaligned

/-- Settles O14: the check of ranges follows that of alignment. -/
theorem addrRangeReported : Obligations.AddrRangeReported := by
  intro i s id hdim hshape halign hbad hleast
  have hjump : ∀ target, i ≠ .jump target := by
    rintro target rfl
    obtain ⟨b, hb, -⟩ := hbad
    cases hb
  refine exec_of_preflight (c := .addrRange id) hjump ?_ s
  rw [preflight, dimCheck_passes hdim, shapeCheck_passes hshape, alignCheck_passes hjump halign,
    rangeCheck_buffers hbad hleast]

/-- Settles O15: the check of overlaps is the last. -/
theorem overlapReported : Obligations.OverlapReported := by
  intro i s id hdim hshape halign hrange hbad hleast
  have hjump : ∀ target, i ≠ .jump target := by
    rintro target rfl
    obtain ⟨hin, -⟩ := hbad
    cases hin
  refine exec_of_preflight (c := .overlap id) hjump ?_ s
  rw [preflight, dimCheck_passes hdim, shapeCheck_passes hshape, alignCheck_passes hjump halign,
    rangeCheck_passes hrange, overlapCheck_overlapPairs hbad hleast]

end Sys2Proof.Proofs
end

section
/-! SUPPORT. Denied data accesses (R209, R210): the accesses of a command against the tables of R61, and the statement on a
data `BUS_ERROR`. -/

namespace Sys2Proof.Proofs

open Sys2Proof.Laws Sys2Proof.Machine Sys2Proof.Safety

/-! ### Accesses to a row of the table of buffers (R64) -/

/-- An access of this kind to an element of the buffer, as wide as the element. -/
def RowAccess (kind : AccessKind) (b : Nat × Word × Nat × Nat) (x : Access) : Prop :=
  x.kind = kind ∧ x.n = b.2.2.2 ∧ ∃ k, k * b.2.2.2 < b.2.2.1 ∧ x.addr = b.2.1.toNat + b.2.2.2 * k

/-- The rows of the inputs a command reads in full (R61). -/
def fullRows (i : Instr) : List (Nat × Word × Nat × Nat) := (buffers i).filter fun b => (readInFull i).contains b.1

/-- The rows of a command's inputs: all but buffer 1, which is an output where there is one (R201). -/
def inputRows (i : Instr) : List (Nat × Word × Nat × Nat) := (buffers i).filter fun b => b.1 != 1

theorem mem_bufferAccesses_iff {kind : AccessKind} {et : ElemType} {base : Word} {n : Nat} {x : Access} (id : Nat) :
    x ∈ bufferAccesses kind et base n ↔ RowAccess kind (id, base, esize et * n, esize et) x := by
  have hpos : 0 < esize et := by cases et <;> decide
  have hlt : ∀ k, k * esize et < esize et * n ↔ k < n := fun k => by
    rw [Nat.mul_comm, Nat.mul_lt_mul_left hpos]
  simp only [mem_bufferAccesses, RowAccess, hlt, elemAddr]
  constructor
  · rintro ⟨k, hk, rfl⟩
    exact ⟨rfl, rfl, k, hk, rfl⟩
  · obtain ⟨xkind, xn, xaddr⟩ := x
    rintro ⟨rfl, rfl, k, hk, rfl⟩
    exact ⟨k, hk, rfl⟩

theorem sureAccess_iff {i : Instr} {x : Access} : SureAccess i x ↔
    (∃ o ∈ outputRows i, RowAccess .write o x) ∨ (∃ b ∈ fullRows i, RowAccess .read b x) ∨ SampleRead i x := by
  simp only [SureAccess, outputRows, fullRows, RowAccess, List.mem_filter, beq_iff_eq, List.contains_iff_mem]
  constructor
  · rintro (⟨b, hb, ⟨hkind, hid⟩ | ⟨hkind, hid⟩, helem⟩ | hsample)
    · exact .inl ⟨b, ⟨hb, hid⟩, hkind, helem⟩
    · exact .inr (.inl ⟨b, ⟨hb, hid⟩, hkind, helem⟩)
    · exact .inr (.inr hsample)
  · rintro (⟨b, ⟨hb, hid⟩, hkind, helem⟩ | ⟨b, ⟨hb, hid⟩, hkind, helem⟩ | hsample)
    · exact .inl ⟨b, hb, .inl ⟨hkind, hid⟩, helem⟩
    · exact .inl ⟨b, hb, .inr ⟨hkind, hid⟩, helem⟩
    · exact .inr hsample

theorem dataAccess_of_outputRow {i : Instr} {x : Access} (h : ∃ o ∈ outputRows i, RowAccess .write o x) : DataAccess i x := by
  obtain ⟨o, ho, hkind, helem⟩ := h
  obtain ⟨hrow, hid⟩ := List.mem_filter.mp ho
  exact ⟨o, hrow, .inl ⟨hkind, by simpa using hid⟩, helem⟩

theorem dataAccess_of_inputRow {i : Instr} {x : Access} (h : ∃ b ∈ inputRows i, RowAccess .read b x) : DataAccess i x := by
  obtain ⟨b, hb, hkind, helem⟩ := h
  obtain ⟨hrow, hid⟩ := List.mem_filter.mp hb
  exact ⟨b, hrow, .inr ⟨hkind, by simpa using hid⟩, helem⟩

/-- What is read in full is an input (R61). -/
theorem inputRow_of_fullRow {i : Instr} {x : Access} (h : ∃ b ∈ fullRows i, RowAccess .read b x) :
    ∃ b ∈ inputRows i, RowAccess .read b x := by
  obtain ⟨b, hb, hx⟩ := h
  obtain ⟨hrow, hid⟩ := List.mem_filter.mp hb
  refine ⟨b, List.mem_filter.mpr ⟨hrow, ?_⟩, hx⟩
  have hne : ∀ id ∈ readInFull i, id ≠ 1 := by cases i <;> simp [readInFull]
  simpa using hne b.1 (by simpa using hid)

/-! ### The sampled and pooled reads (R61, R121, R128, R131, R161) -/

/-- The reads a command makes element by element: the neighbours of its samples, or the pooled elements. -/
def sampleReads : Instr → List Access
  | .bsamp et inp _ sx sy => neededAccesses et inp sx sy
  | .affine et inp out offX offY t0 t1 t2 t3 =>
      warpAccesses et inp out fun ix iy => [affineCoord inp out offX offY t0 t1 t2 t3 ix iy]
  | .croprs et inp out left top cropW cropH => warpAccesses et inp out (cropSamples out left top cropW cropH)
  | .maxpool2 inp out => poolReads inp out
  | _ => []

/-- A neighbour that a sample takes into its sum is read: it is one of the four, in bounds, and its weight counts. -/
theorem mem_neededAccesses {et : ElemType} {v : View} {sx sy : Word} {x : Access} (h : NeighbourRead et v sx sy x) :
    x ∈ neededAccesses et v sx sy := by
  obtain ⟨hsx, hsy, dx, hdx, dy, hdy, c, hc, px, hpx, py, hpy, hx, hy, hweight, rfl⟩ := h
  have hinside : inBounds v px py = true := by simp [inBounds, hpx, hpy]
  obtain ⟨weight, hmem, hcounts⟩ : ∃ weight, (weight, (px : Int), (py : Int)) ∈ neighbours sx sy ∧
      (et = .u8 → isZero weight = false) := by
    refine ⟨_, ?_, hweight⟩
    rw [neighbours_of_finite hsx hsy, hx, hy]
    interval_cases dx <;> interval_cases dy <;> simp [fone]
  have htaken : (decide (et = .f32) || !isZero weight) = true := by cases et <;> simp [hcounts]
  exact List.mem_flatMap.mpr ⟨_, List.mem_filter.mpr ⟨List.mem_filter.mpr ⟨hmem, hinside⟩, htaken⟩,
    List.mem_map.mpr ⟨c, List.mem_range.mpr hc, rfl⟩⟩

theorem mem_warpAccesses {et : ElemType} {inp out : View} {samples : Nat → Nat → List (Word × Word)} {ix iy : Nat}
    {p : Word × Word} {x : Access} (hix : ix < out.w) (hiy : iy < out.h) (hp : p ∈ samples ix iy)
    (h : NeighbourRead et inp p.1 p.2 x) : x ∈ warpAccesses et inp out samples := by
  simp only [warpAccesses, List.mem_flatMap, List.mem_range]
  exact ⟨iy, hiy, ix, hix, p, hp, mem_neededAccesses h⟩

/-- A canvas pixel is a sample of the output pixel whose block it lies in (R131). -/
theorem mem_cropSamples {out : View} {left top : Int} {cropW cropH bx : Nat} (bY : Nat)
    (hbx : bx < out.w * decimation out cropW cropH) :
    (cropCoord left cropW (out.w * decimation out cropW cropH) bx,
      cropCoord top cropH (out.h * decimation out cropW cropH) bY) ∈
      cropSamples out left top cropW cropH (bx / decimation out cropW cropH) (bY / decimation out cropW cropH) := by
  have hpos : 0 < decimation out cropW cropH := Nat.pos_of_mul_pos_left (Nat.zero_lt_of_lt hbx)
  simp only [cropSamples, List.mem_flatMap, List.mem_map, List.mem_range]
  refine ⟨bY % decimation out cropW cropH, Nat.mod_lt _ hpos, bx % decimation out cropW cropH, Nat.mod_lt _ hpos, ?_⟩
  rw [Nat.div_add_mod', Nat.div_add_mod']

theorem mem_sampleReads {i : Instr} {x : Access} (h : SampleRead i x) : x ∈ sampleReads i := by
  cases i with
  | bsamp => exact mem_neededAccesses h
  | affine et inp out offX offY t0 t1 t2 t3 =>
    obtain ⟨ix, hix, iy, hiy, hread⟩ := h
    exact mem_warpAccesses hix hiy (List.mem_singleton_self _) hread
  | croprs et inp out left top cropW cropH =>
    obtain ⟨bx, hbx, bY, hbY, hread⟩ := h
    exact mem_warpAccesses (Nat.div_lt_of_lt_mul (Nat.mul_comm _ _ ▸ hbx)) (Nat.div_lt_of_lt_mul (Nat.mul_comm _ _ ▸ hbY))
      (mem_cropSamples bY hbx) hread
  | maxpool2 inp out =>
    obtain ⟨px, hpx, py, hpy, c, hc, rfl⟩ := h
    exact mem_poolReads.mpr ⟨py, hpy, px, hpx, c, hc, rfl⟩
  | _ => exact h.elim

/-- They are reads of elements of an input, once the shapes of a pooling agree (R205). -/
theorem inputRow_of_sampleReads {i : Instr} {x : Access} (hshape : ∀ sub, ¬ ShapeFails i sub) (h : x ∈ sampleReads i) :
    ∃ b ∈ inputRows i, RowAccess .read b x := by
  cases i with
  | bsamp => exact ⟨_, List.mem_cons_self, (mem_bufferAccesses_iff 0).mp (neededAccesses_subset h)⟩
  | affine => exact ⟨_, List.mem_cons_self, (mem_bufferAccesses_iff 0).mp (warpAccesses_subset h)⟩
  | croprs => exact ⟨_, List.mem_cons_self, (mem_bufferAccesses_iff 0).mp (warpAccesses_subset h)⟩
  | maxpool2 inp out =>
    obtain ⟨hwidth, hheight, -⟩ : out.w = inp.w / 2 ∧ out.h = inp.h / 2 ∧ out.d = inp.d := by
      simpa [shapeRelations] using not_shapeFails_iff.mp hshape
    exact ⟨_, List.mem_cons_self, (mem_bufferAccesses_iff 0).mp (poolReads_subset hwidth hheight h)⟩
  | _ => cases h

/-! ### The accesses of a command's work -/

section
variable {i : Instr} {work : Memory → Work} (hwork : workOf i = some work) (m : Memory) {x : Access}
include hwork

/-- A command needs its sampled reads, every element of an input it reads in full, and every element of its output (R61). -/
theorem mem_needs_iff : x ∈ (work m).needs ↔
    x ∈ sampleReads i ∨ (∃ b ∈ fullRows i, RowAccess .read b x) ∨ ∃ o ∈ outputRows i, RowAccess .write o x := by
  cases i with
  | endCmd | jump | nop => cases hwork
  | bsamp | affine | croprs | conv2d | addbias | relu | biasrelu | maxpool2 | softmax | histeq | otsu =>
    cases hwork
    simp [sampleReads, fullRows, outputRows, buffers, readInFull, outputId, viewAccesses, viewCount,
      filterCount, mem_bufferAccesses_iff 0, RowAccess, esize, or_assoc]

/-- The further reads that R72 leaves free are of elements of an input. -/
theorem inputRow_of_may (h : x ∈ (work m).may) : ∃ b ∈ inputRows i, RowAccess .read b x := by
  cases i with
  | endCmd | jump | nop => cases hwork
  | bsamp =>
    cases hwork
    exact ⟨_, List.mem_cons_self, (mem_bufferAccesses_iff 0).mp (sampleAccesses_subset h)⟩
  | affine | croprs =>
    cases hwork
    exact ⟨_, List.mem_cons_self, (mem_bufferAccesses_iff 0).mp h⟩
  | conv2d | addbias | relu | biasrelu | maxpool2 | softmax | histeq | otsu =>
    cases hwork
    cases h

/-- Whatever a command accesses is an element of one of its buffers, as wide as the element (R61, R64, R72). -/
theorem dataAccess_of_mem (hshape : ∀ sub, ¬ ShapeFails i sub) (h : x ∈ (work m).needs ++ (work m).may) :
    DataAccess i x := by
  rcases List.mem_append.mp h with hneed | hmay
  · rcases (mem_needs_iff hwork m).mp hneed with hsample | hfull | hout
    · exact dataAccess_of_inputRow (inputRow_of_sampleReads hshape hsample)
    · exact dataAccess_of_inputRow (inputRow_of_fullRow hfull)
    · exact dataAccess_of_outputRow hout
  · exact dataAccess_of_inputRow (inputRow_of_may hwork m hmay)

/-- A sure access is one the command needs. -/
theorem mem_needs_of_sureAccess (h : SureAccess i x) : x ∈ (work m).needs := by
  rcases sureAccess_iff.mp h with hout | hfull | hsample
  · exact (mem_needs_iff hwork m).mpr (.inr (.inr hout))
  · exact (mem_needs_iff hwork m).mpr (.inr (.inl hfull))
  · exact (mem_needs_iff hwork m).mpr (.inl (mem_sampleReads hsample))

end

/-- The sequencer's commands access no data. -/
theorem exists_workOf_of_sureAccess {i : Instr} {x : Access} (h : SureAccess i x) : ∃ work, workOf i = some work := by
  cases i with
  | endCmd | jump | nop =>
    rcases h with ⟨b, hb, -⟩ | hsample
    · cases hb
    · exact hsample.elim
  | _ => exact ⟨_, rfl⟩

/-! ### The fault -/

theorem freeMember_mem {α : Type} (draw : Nat) (dflt : α) {l : List α} (h : l ≠ []) : freeMember draw dflt l ∈ l := by
  match l, h with
  | [x], _ => exact List.mem_singleton_self x
  | x :: y :: rest, _ =>
    have hlt : Config.freeNat draw % (rest.length + 2) < (x :: y :: rest).length := Nat.mod_lt _ (Nat.succ_pos _)
    rw [freeMember, List.getD_eq_getElem _ _ hlt]
    exact List.getElem_mem hlt

/-- A denied access that its work needs makes a command whose checks pass report one of its denied accesses (R209). -/
theorem exec_of_denied_need {i : Instr} {work : Memory → Work} {s : State} {x : Access} (hwork : workOf i = some work)
    (hpass : ChecksPass i) (hx : x ∈ (work s.mem).needs) (hdenied : isDenied s x = true) :
    exec i s = .next (busFault (footprint i).outs (((work s.mem).needs ++ (work s.mem).may).filter (isDenied s)) s) := by
  have hany : (work s.mem).needs.any (isDenied s) = true := List.any_eq_true.mpr ⟨x, hx, hdenied⟩
  rw [exec_of_workOf hwork, runUnit, footprint_cause_eq_none.mpr hpass]
  simp only [runWork, hany, if_true]

/-- Settles O16: a sure access is needed, and what is reported is a denied access of the command's work. -/
theorem dataBusErrorReported : Obligations.DataBusErrorReported := by
  rintro i s hm hpass ⟨x, hsure, hdenied⟩
  obtain ⟨work, hwork⟩ := exists_workOf_of_sureAccess hsure
  have hneed := mem_needs_of_sureAccess hwork s.mem hsure
  have ⟨_, hshape, _⟩ := hpass
  have hmember := freeMember_mem s.draws ⟨.read, 1, 0⟩ (List.ne_nil_of_mem
    (List.mem_filter.mpr ⟨List.mem_append_left (work s.mem).may hneed, hdenied⟩))
  obtain ⟨haccess, hreported⟩ := List.mem_filter.mp hmember
  refine ⟨_, _, exec_of_denied_need hwork hpass hneed hdenied, rfl,
    ⟨_, rfl, dataAccess_of_mem hwork s.mem hshape haccess, hreported⟩, fun b hb => ?_⟩
  exact readByte_havoc hm (Bool.eq_false_iff.mpr fun hin => hb (inExtents_outs_iff.mp hin))

end Sys2Proof.Proofs
end

section
/-! SUPPORT. Resets inside a step (R240, R241): what the host's events before the reset leave, what the reset leaves of a
command step, and the statement on them. -/

namespace Sys2Proof.Proofs

open Sys2Proof.Laws Sys2Proof.Machine Sys2Proof.Safety

/-! ### Host events that reset nothing -/

/-- What these host events, none of them a reset, keep of the state around the registers: everything but memory, which has
their writes, the log where they read, and the model's own records (R20, R47). -/
structure Surrounds (es : List HostEvent) (s t : State) : Prop where
  mmioBase : t.mmioBase = s.mmioBase
  denied : t.denied = s.denied
  resetPin : t.resetPin = s.resetPin
  schedule : t.schedule = s.schedule
  mem : t.mem = hostWritten s es
  readLog : (∀ addr n, .read addr n ∉ es) → t.readLog = s.readLog

theorem surrounds_refl (s : State) : Surrounds [] s s := ⟨rfl, rfl, rfl, rfl, rfl, fun _ => rfl⟩

section
variable {s t : State} (hbase : t.mmioBase = s.mmioBase)
include hbase

theorem windowOffset_congr : windowOffset t = windowOffset s := by
  funext addr
  rw [windowOffset, windowOffset, hbase]

theorem inWindow_congr : inWindow t = inWindow s := by
  funext addr
  rw [inWindow, inWindow, windowOffset_congr hbase]

theorem alignedWord_congr : alignedWord t = alignedWord s := by
  funext addr bytes
  unfold alignedWord
  rw [windowOffset_congr hbase]

theorem memoryWrites_congr (es : List HostEvent) : memoryWrites t es = memoryWrites s es := by
  unfold memoryWrites
  rw [inWindow_congr hbase]

theorem isResetEvent_congr (hpin : t.resetPin = s.resetPin) (e : HostEvent) : isResetEvent t e = isResetEvent s e := by
  unfold isResetEvent
  rw [inWindow_congr hbase, windowOffset_congr hbase, alignedWord_congr hbase, hpin]

end

theorem Surrounds.trans {es fs : List HostEvent} {s t u : State} (h : Surrounds es s t) (h' : Surrounds fs t u) :
    Surrounds (es ++ fs) s u where
  mmioBase := h'.mmioBase.trans h.mmioBase
  denied := h'.denied.trans h.denied
  resetPin := h'.resetPin.trans h.resetPin
  schedule := h'.schedule.trans h.schedule
  mem := by
    have hwrites : memoryWrites s (es ++ fs) = memoryWrites s es ++ memoryWrites s fs := List.filterMap_append ..
    rw [h'.mem, hostWritten, h.mem, memoryWrites_congr h.mmioBase, hostWritten, hostWritten, hwrites, List.flatten_append,
      writeCells_append]
  readLog := fun hread => (h'.readLog fun addr n hmem => hread addr n (List.mem_append_right es hmem)).trans
    (h.readLog fun addr n hmem => hread addr n (List.mem_append_left fs hmem))

/-- A write of the window but `SRESET` changes registers only (R30). -/
theorem surrounds_windowWrite {off : Nat} {v : Word} (s : State) (hv : off = 0x004 → v.getLsbD 31 = false) :
    Surrounds [] s (windowWrite off v s) := by
  rcases windowWrite_cases off v s with ⟨hoff, h⟩ | h | h | h | h | h <;> rw [h]
  · rw [ctrlWrite_frame s (hv hoff)]
    exact ⟨rfl, rfl, rfl, rfl, rfl, fun _ => rfl⟩
  · rw [cpWrite_frame]
    exact ⟨rfl, rfl, rfl, rfl, rfl, fun _ => rfl⟩
  all_goals exact ⟨rfl, rfl, rfl, rfl, rfl, fun _ => rfl⟩

/-- An event in a block out of reset that resets nothing is answered and keeps the surroundings (R47, R78). -/
theorem duringAccess_surrounds {e : HostEvent} {s : State} (outs : List Extent) (hr : s.resetPin = false)
    (he : isResetEvent s e = false) : ∃ t, duringAccess outs e s = .next t ∧ Surrounds [e] s t := by
  cases e with
  | write addr bytes =>
    rw [duringAccess, hostAccess]
    cases hw : inWindow s addr with
    | false =>
      have hwrites : memoryWrites s [.write addr bytes] = [hostCells addr bytes] := by simp [memoryWrites, hw]
      refine ⟨hostStore addr bytes s, rfl, rfl, rfl, rfl, rfl, ?_, fun _ => rfl⟩
      rw [hostStore_mem, hostWritten, hwrites, List.flatten_singleton]
    | true =>
      have hwrites : memoryWrites s [.write addr bytes] = [] := by simp [memoryWrites, hw]
      have hregisters : Surrounds [] s (windowStore addr bytes s) := by
        rw [windowStore]
        cases hword : alignedWord s addr bytes with
        | none => exact surrounds_refl s
        | some v => exact surrounds_windowWrite s fun hoff => by simpa [isResetEvent, hw, hr, hoff, hword] using he
      refine ⟨windowStore addr bytes s, by simp [hr], hregisters.mmioBase, hregisters.denied, hregisters.resetPin,
        hregisters.schedule, ?_, fun _ => hregisters.readLog nofun⟩
      rw [hostWritten, hwrites]
      exact hregisters.mem
  | read addr n =>
    have hlogs : ¬ ∀ a k, HostEvent.read a k ∉ [HostEvent.read addr n] :=
      fun hread => hread addr n List.mem_cons_self
    rw [duringAccess]
    cases hw : inWindow s addr with
    | false => exact ⟨_, rfl, rfl, rfl, rfl, rfl, rfl, fun hread => absurd hread hlogs⟩
    | true =>
      refine ⟨logRead (windowLoad s addr n) s, ?_, rfl, rfl, rfl, rfl, rfl, fun hread => absurd hread hlogs⟩
      simp [hostAccess, hw, hr]
  | resetPin asserted =>
    obtain rfl : asserted = false := he
    exact ⟨s, by simp [duringAccess, hostAccess, driveReset, hr], rfl, rfl, rfl, rfl, rfl, fun _ => rfl⟩

/-- Events that reset nothing are answered one after the other, and the events after them meet what they leave. -/
theorem duringAccesses_append {es : List HostEvent} {s : State} (outs : List Extent) (tail : List HostEvent)
    (hr : s.resetPin = false) (hes : ∀ x ∈ es, isResetEvent s x = false) :
    ∃ t, Surrounds es s t ∧ duringAccesses outs (es ++ tail) s = duringAccesses outs tail t := by
  induction es generalizing s with
  | nil => exact ⟨s, surrounds_refl s, rfl⟩
  | cons e es ih =>
    obtain ⟨he, hes⟩ := List.forall_mem_cons.mp hes
    obtain ⟨u, hu, hkept⟩ := duringAccess_surrounds outs hr he
    obtain ⟨t, ht, hrest⟩ := ih (hkept.resetPin.trans hr) fun x hx =>
      (isResetEvent_congr hkept.mmioBase hkept.resetPin x).trans (hes x hx)
    refine ⟨t, hkept.trans ht, ?_⟩
    rw [List.cons_append, duringAccesses, he, if_neg Bool.false_ne_true, hu]
    exact hrest

/-- Host events in two parts: the second part meets what the first leaves, if it leaves a state. -/
theorem hostAccesses_append (es fs : List HostEvent) (s : State) : hostAccesses (es ++ fs) s =
    match hostAccesses es s with
    | .next t => hostAccesses fs t
    | .fault f => .fault f
    | .refused r => .refused r := by
  induction es generalizing s with
  | nil => rfl
  | cons e es ih =>
    rw [List.cons_append, hostAccesses, hostAccesses]
    cases hostAccess e s with
    | next t => exact ih t
    | fault f => rfl
    | refused r => rfl

/-! ### The reset -/

/-- What a reset makes of the state `t` inside a step with these output extents: the bytes of the extents unspecified, the
registers at their reset values, the reset input as in `r` (R240, R241). -/
def abandoned (outs : List Extent) (r t : State) : State :=
  { registersReset (havoc outs t) with resetPin := r.resetPin }

/-- Host events inside a step that a reset among them has ended, in this outcome. -/
def endedByReset : Host.Outcome State Fault Refusal → Host.Outcome (State × Bool) Fault Refusal
  | .next u => .next (u, true)
  | .fault f => .fault f
  | .refused r => .refused r

section
variable {s r t : State} {e : HostEvent} {es : List HostEvent} (hreset : ResetsTo s e r) (h : Surrounds es s t)
include hreset h

theorem isResetEvent_of_resetsTo (hr : s.resetPin = false) : isResetEvent t e = true := by
  rw [isResetEvent_congr h.mmioBase h.resetPin]
  rcases hreset with ⟨v, hv, rfl, -⟩ | ⟨rfl, -⟩
  · have hoff : windowOffset s (s.mmioBase + 0x004) = 0x004 := windowOffset_base s (k := 0x004) (by decide)
    simp only [isResetEvent, inWindow, hoff, hr, alignedWord, bytesOfWord, wordOfBytes_extract]
    exact hv
  · rfl

theorem hostAccess_of_resetsTo (outs : List Extent) (hr : s.resetPin = false) :
    hostAccess e (havoc outs t) = .next (abandoned outs r t) := by
  rcases hreset with ⟨v, hv, rfl, rfl⟩ | ⟨rfl, rfl⟩
  · have hpin : (havoc outs t).resetPin = s.resetPin := h.resetPin
    have hctrl := hostAccess_writeWord (s := havoc outs t) (k := 0x004) v (by decide) (by decide) (hpin.trans hr)
    rw [havoc_mmioBase, h.mmioBase, windowWrite_ctrl, ctrlWrite_sreset hv] at hctrl
    rw [abandoned, ← hpin]
    exact hctrl
  · exact hostAccess_resetPin_true _

theorem resetLeaves_abandoned (outs : List Extent) : ResetLeaves s r es s.schedule (abandoned outs r t) := by
  have ⟨hbase, hdenied, _, hsched, _, hlog⟩ := h
  refine ⟨?_, hlog⟩
  rcases hreset with ⟨v, hv, rfl, rfl⟩ | ⟨rfl, rfl⟩ <;> simp [abandoned, hbase, hdenied, hsched]

end

section
variable {s r : State} {e : HostEvent} {earlier : List HostEvent} (more : List HostEvent) (hr : s.resetPin = false)
  (hreset : ResetsTo s e r) (hearlier : ∀ x ∈ earlier, isResetEvent s x = false)
include hr hreset hearlier

/-- Host events with a first reset among them, inside a step begun in `s`: those before it, the reset, and those after it,
which meet a block without a command (R241). -/
theorem duringAccesses_reset {t₀ : State} (h : Surrounds [] s t₀) (outs : List Extent) :
    ∃ t, Surrounds earlier s t ∧
    duringAccesses outs (earlier ++ e :: more) t₀ = endedByReset (hostAccesses more (abandoned outs r t)) := by
  obtain ⟨t, ht, hrest⟩ := duringAccesses_append outs (e :: more) (h.resetPin.trans hr) fun x hx =>
    (isResetEvent_congr h.mmioBase h.resetPin x).trans (hearlier x hx)
  have hkept : Surrounds earlier s t := h.trans ht
  have htail : hostAccesses (e :: more) (havoc outs t) = hostAccesses more (abandoned outs r t) := by
    rw [hostAccesses, hostAccess_of_resetsTo hreset hkept outs hr]
  refine ⟨t, hkept, ?_⟩
  rw [hrest, duringAccesses, isResetEvent_of_resetsTo hreset hkept hr, if_pos rfl, htail]
  cases hostAccesses more (abandoned outs r t) <;> rfl

/-- A reset after the fetch event ends the step: neither its command nor a fault follows. -/
theorem commandRest_reset {t₀ : State} (h : Surrounds [] s t₀) (fp : Footprint) (dataFlag : Bool)
    (early : List Host.Cell) (act : State → Host.Outcome State Fault Refusal) : ∃ t, Surrounds earlier s t ∧
    commandRest fp dataFlag early (earlier ++ e :: more) act t₀ = hostAccesses more (abandoned fp.outs r t) := by
  obtain ⟨t, ht, hduring⟩ := duringAccesses_reset more hr hreset hearlier h fp.outs
  refine ⟨t, ht, ?_⟩
  rw [commandRest, hduring]
  cases hostAccesses more (abandoned fp.outs r t) <;> rfl

/-- A reset before the fetch event ends the step: the events after it meet a block that makes no access (R241). -/
theorem commandStep_reset (executing : List HostEvent) : ∃ t, Surrounds earlier s t ∧
    commandStep (earlier ++ e :: more) executing s = hostAccesses (more ++ executing) (abandoned [] r t) := by
  obtain ⟨t, ht, hduring⟩ := duringAccesses_reset more hr hreset hearlier (surrounds_refl s) []
  refine ⟨t, ht, ?_⟩
  rw [commandStep, hduring, hostAccesses_append]
  cases hostAccesses more (abandoned [] r t) <;> rfl

end

/-! ### What the reset leaves -/

section
variable {s r t : State} {es : List HostEvent} (h : Surrounds es s t)
include h

/-- Where a step has no output, a reset loses nothing. -/
theorem abandoned_mem_nil : (abandoned [] r t).mem = hostWritten s es := h.mem

/-- A reset inside a command loses bytes of its output extents alone (R241). -/
theorem readByte_abandoned {i : Instr} (hm : Memory.wf s.mem = true) {a : Nat} (ha : ¬ InOutput i a) :
    readByte (abandoned (liveFootprint (footprint i)).outs r t).mem a = readByte (hostWritten s es) a := by
  have hwritten : Memory.wf t.mem = true := h.mem ▸ wf_writeCells _ hm
  rw [← h.mem]
  exact readByte_havoc hwritten (inExtents_of_not_inOutput ha)

end

/-- A fetch keeps the surroundings. -/
theorem surrounds_latch (s : State) (d : Desc) : Surrounds [] s (latch d (fetchDraws [] s s)) := by
  obtain ⟨n, hn⟩ := fetchDraws_eq s
  rw [hn]
  exact ⟨rfl, rfl, rfl, rfl, rfl, fun _ => rfl⟩

/-- So does taking the command's output bytes out of the record of unordered writes. -/
theorem surrounds_ordered {s t : State} (outs : List Extent) (racing : List Nat) (h : Surrounds [] s t) :
    Surrounds [] s (ordered outs racing t) := ⟨h.mmioBase, h.denied, h.resetPin, h.schedule, h.mem, h.readLog⟩

section
variable {s r : State} {e : HostEvent} {earlier : List HostEvent} (more : List HostEvent) (hrun : s.engine = .run)
  (hr : s.resetPin = false) (hs : s.stopReq = false) (hreset : ResetsTo s e r)
  (hearlier : ∀ x ∈ earlier, isResetEvent s x = false)
include hrun hr hs

theorem engineStep_eq_commandStep (fetching executing : List HostEvent) :
    engineStep fetching executing s = commandStep fetching executing s := by
  simp [engineStep, hrun, hr, hs]

include hreset hearlier

/-- A reset before the fetch event. -/
theorem engineStep_reset_fetching (executing : List HostEvent) : ∃ u, ResetLeaves s r earlier s.schedule u ∧
    u.mem = hostWritten s earlier ∧
    engineStep (earlier ++ e :: more) executing s = hostAccesses (more ++ executing) u := by
  obtain ⟨t, ht, hstep⟩ := commandStep_reset more hr hreset hearlier executing
  rw [engineStep_eq_commandStep hrun hr hs]
  exact ⟨_, resetLeaves_abandoned hreset ht [], abandoned_mem_nil ht, hstep⟩

/-- A reset in a step whose fetch is denied. -/
theorem engineStep_reset_denied (hdenied : fetchDenied s = true) : ∃ u, ResetLeaves s r earlier s.schedule u ∧
    u.mem = hostWritten s earlier ∧ engineStep [] (earlier ++ e :: more) s = hostAccesses more u := by
  obtain ⟨t, ht, hrest⟩ := commandRest_reset more hr hreset hearlier (surrounds_refl s) noFootprint false []
    fun u => .next (takeFault (.busError s.cp) u)
  rw [engineStep_eq_commandStep hrun hr hs, commandStep, duringAccesses_nil]
  simp only [fetchAndRun, hdenied, if_true]
  exact ⟨_, resetLeaves_abandoned hreset ht [], abandoned_mem_nil ht, hrest⟩

/-- A reset in a step whose descriptor does not decode. -/
theorem engineStep_reset_undecoded {err : DecodeError} (hanswered : fetchDenied s = false)
    (hdec : decode (fetchDesc [] s s) = .error err) : ∃ u, ResetLeaves s r earlier s.schedule u ∧
    u.mem = hostWritten s earlier ∧ engineStep [] (earlier ++ e :: more) s = hostAccesses more u := by
  obtain ⟨t, ht, hrest⟩ := commandRest_reset more hr hreset hearlier (surrounds_latch s (fetchDesc [] s s))
    noFootprint false [] fun u => .next (takeFault (causeOfDecode err) u)
  rw [engineStep_eq_commandStep hrun hr hs, commandStep, duringAccesses_nil]
  simp only [fetchAndRun, hanswered, hdec]
  exact ⟨_, resetLeaves_abandoned hreset ht [], abandoned_mem_nil ht, hrest⟩

/-- A reset in a step whose descriptor decodes, after its fetch event. -/
theorem engineStep_reset_command {i : Instr} (hm : Memory.wf s.mem = true) (hanswered : fetchDenied s = false)
    (hdec : decode (fetchDesc [] s s) = .ok i) : ∃ u, ResetLeaves s r earlier s.schedule u ∧
    (∀ a, ¬ InOutput i a → readByte u.mem a = readByte (hostWritten s earlier) a) ∧
    engineStep [] (earlier ++ e :: more) s = hostAccesses more u := by
  obtain ⟨t, ht, hrest⟩ := commandRest_reset more hr hreset hearlier
    (surrounds_ordered (liveFootprint (footprint i)).outs [] (surrounds_latch s (fetchDesc [] s s)))
    (liveFootprint (footprint i)) (flagFromData i) [] (exec i)
  rw [engineStep_eq_commandStep hrun hr hs, commandStep, duringAccesses_nil]
  simp only [fetchAndRun, hanswered, hdec]
  exact ⟨_, resetLeaves_abandoned hreset ht _, fun a ha => readByte_abandoned ht hm ha, hrest⟩

end

/-- Settles O59, by where the step was when the reset landed. -/
theorem softResetAbandonsCommand : Obligations.SoftResetAbandonsCommand := by
  intro s r earlier more e rest hm hrun hr hs hreset hearlier
  have hreset' : ResetsTo { s with schedule := rest } e { r with schedule := rest } := by
    rcases hreset with ⟨v, hv, he, rfl⟩ | ⟨he, rfl⟩
    · exact .inl ⟨v, hv, he, rfl⟩
    · exact .inr ⟨he, rfl⟩
  refine ⟨fun hsched => ⟨fun hanswered => ?_, fun hdenied => ?_⟩, fun executing hsched => ?_⟩ <;>
    rw [step, systemStep, hsched]
  · have hfetch : fetchDenied { s with schedule := rest } = false := fetchDenied_eq_false hanswered
    refine ⟨_, mayFetch_fetchDesc { s with schedule := rest }, fun i hdec => ?_, fun err hdec => ?_⟩
    · exact engineStep_reset_command (s := { s with schedule := rest }) (r := { r with schedule := rest }) more hrun hr hs
        hreset' hearlier hm hfetch hdec
    · exact engineStep_reset_undecoded (s := { s with schedule := rest }) (r := { r with schedule := rest }) more hrun hr
        hs hreset' hearlier hfetch hdec
  · have hfetch : ∃ k < 16, isDenied s ⟨.fetch, 4, s.cp.toNat + 4 * k⟩ = true := by
      simpa [FetchAnswered] using hdenied
    exact engineStep_reset_denied (s := { s with schedule := rest }) (r := { r with schedule := rest }) more hrun hr hs
      hreset' hearlier (fetchDenied_iff.mpr hfetch)
  · exact engineStep_reset_fetching (s := { s with schedule := rest }) (r := { r with schedule := rest }) more hrun hr hs
      hreset' hearlier executing

end Sys2Proof.Proofs
end
